-- ==== Sys2Proof/Word.lean ====
section
/-! DEFINITION. The word types of QRE (00_scope.md R8): 32-bit scalars and command words, 8-bit codewords and
GF(256) elements. Every quantity is unsigned. -/

namespace Sys2Proof

/-- A scalar register's value, a command word, a wide CSR (R21, R80): 32 bits, unsigned. -/
abbrev Word := BitVec 32

/-- A codeword, a memory byte, a GF(256) element (R13, R106): 8 bits. -/
abbrev Byte := BitVec 8

/-- `zext_32` of a byte (R11). -/
abbrev Byte.zext (b : Byte) : Word := BitVec.setWidth 32 b

end Sys2Proof
end

