-- ==== Sys2Proof/Config.lean ====
section
/-! DEFINITION. The implementation parameters of QRE-1.0 that are plain sizes (00_scope.md R7). The ROM tables the same
rule lists are in Machine/Rom.lean. QRE leaves no value open (70_reset_and_hazards.md R327), so there is no free value. -/

namespace Sys2Proof.Config

/-- `INSIZE` (R7, R43): bytes of space IN. -/
abbrev inSize : Nat := 8192

/-- `CWSIZE` (R7, R44): bytes of space DCW and of space FCW. -/
abbrev cwSize : Nat := 4096

/-- `PMAX` (R7, R41): the most coefficients a polynomial register holds. -/
abbrev pMax : Nat := 4096

/-- `BBMAX` (R7, R42): the most bits the bit buffer holds. -/
abbrev bbMax : Nat := 23648

/-- `DEGMAX` (R7, R148): the largest degree RSGEN and RSSYN accept. -/
abbrev degMax : Nat := 255

end Sys2Proof.Config
end

