-- ==== Sys2Proof/Syntax.lean ====
section
/-! DEFINITION. The commands of QRE as syntax: one constructor of `Instr` per row of spec/opcode_table.json, operands
named as 30_encoding.md R95 names them. What a command does is in Machine/; how it is encoded is in Decode.lean. -/

namespace Sys2Proof

/-- A scalar register number `x0` .. `x15` (R21). -/
abbrev XReg := Fin 16

/-- A polynomial register number `p0` .. `p3` (R41). -/
abbrev PReg := Fin 4

/-- The seven address spaces (R60); the reserved space numbers 7 to 15 are no space. -/
inductive Space
  | inp | dcw | fcw | exp | log | mat | bb
  deriving DecidableEq, Repr

/-- The mode codes BSEG decodes (R86, R93); Kanji decodes and is then refused (R161). -/
inductive Mode
  | numeric | alphanumeric | byte | kanji
  deriving DecidableEq, Repr

/-- The CSR file (R24), one name per register. -/
inductive Csr
  | status | errcmd | cmdcnt | ver | ecl | size | phase | mask | bblen | totbits | dlen | flen | pen | bstage
  | penv (k : Fin 8)
  | fmt | vinf
  | plen (k : Fin 4)
  | datacw | totcw | nblk | eccpb
  deriving DecidableEq, Repr

/-- The 46 commands (R91), in the order of spec/opcode_table.json. -/
inductive Instr
  -- GF unit
  | gfadd (rd rs1 rs2 : XReg)
  | gfmul (rd rs1 rs2 : XReg)
  | gfdiv (rd rs1 rs2 : XReg)
  | gfpow (rd rs1 rs2 : XReg)
  | gfexp (rd rs1 : XReg)
  | gflog (rd rs1 : XReg)
  -- polynomial unit
  | pld (pd : PReg) (sp : Space) (rs1 rs2 : XReg)
  | pst (pa : PReg) (sp : Space) (rs1 : XReg)
  | pmov (pd pa : PReg)
  | pdeg (rd : XReg) (pa : PReg)
  | padd (pd pa pb : PReg)
  | pmul (pd pa pb : PReg)
  | pscl (pd pa : PReg) (rs1 : XReg)
  | peval (rd : XReg) (pa : PReg) (rs1 : XReg)
  -- Reed-Solomon unit
  | rsgen (pd : PReg) (rs1 : XReg)
  | rsrem (pd pa pb : PReg)
  | rsenc
  | rssyn (rd : XReg) (pd pa : PReg) (rs1 : XReg)
  -- bitstream packer
  | bapp (rs1 rs2 : XReg)
  | bseg (mode : Mode) (rs1 rs2 : XReg)
  | bterm
  | balign
  | bpad
  | bflush
  -- matrix engine
  | minit
  | mfind
  | mtime
  | malign
  | mrsv
  | mdata
  | mmask (rs1 : XReg)
  | mpen (rd : XReg)
  | msel
  -- information placer
  | ifmt
  | iver
  | bchf (rd rs1 : XReg)
  | bchv (rd rs1 : XReg)
  -- system
  | nop
  | halt
  | clear
  | ldi (rd : XReg) (imm : BitVec 16)
  | mov (rd rs1 : XReg)
  | ldb (rd : XReg) (sp : Space) (rs1 : XReg)
  | stb (sp : Space) (rs1 rs2 : XReg)
  | csrr (rd : XReg) (csr : Csr)
  | csrw (csr : Csr) (rs1 : XReg)
  deriving DecidableEq, Repr

end Sys2Proof
end

