-- ==== Sys2Proof/WellFormed.lean ====
section
/-! DEFINITION. Which commands have a legal word (30_encoding.md R90, steps 3 and 4): STB, PLD and PST name one of the
spaces IN, DCW, FCW only, and CSRW one of the four writable CSRs. Every other operand is legal by its type (R89). -/

namespace Sys2Proof

/-- The spaces STB, PLD and PST accept (R86): IN, DCW and FCW. -/
def Space.isRam : Space → Bool
  | .inp | .dcw | .fcw => true
  | .exp | .log | .mat | .bb => false

/-- The CSRs marked RW* in R24: VER, ECL, DLEN, FLEN (R268). -/
def Csr.isWritable : Csr → Bool
  | .ver | .ecl | .dlen | .flen => true
  | .status | .errcmd | .cmdcnt | .size | .phase | .mask | .bblen | .totbits | .pen | .bstage | .penv _ | .fmt
  | .vinf | .plen _ | .datacw | .totcw | .nblk | .eccpb => false

/-- A command that some 32-bit word encodes. -/
def Instr.wellFormed : Instr → Bool
  | .pld _ sp _ _ => sp.isRam
  | .pst _ sp _ => sp.isRam
  | .stb sp _ _ => sp.isRam
  | .csrw csr _ => csr.isWritable
  | .gfadd .. | .gfmul .. | .gfdiv .. | .gfpow .. | .gfexp .. | .gflog .. => true
  | .pmov .. | .pdeg .. | .padd .. | .pmul .. | .pscl .. | .peval .. => true
  | .rsgen .. | .rsrem .. | .rsenc | .rssyn .. => true
  | .bapp .. | .bseg .. | .bterm | .balign | .bpad | .bflush => true
  | .minit | .mfind | .mtime | .malign | .mrsv | .mdata | .mmask .. | .mpen .. | .msel => true
  | .ifmt | .iver | .bchf .. | .bchv .. => true
  | .nop | .halt | .clear | .ldi .. | .mov .. | .ldb .. | .csrr .. => true

end Sys2Proof
end

