-- ==== Sys2Proof/Decode.lean ====
section
/-! DEFINITION. The command word (30_encoding.md R80 to R92): its fields, the decoder (total on every 32-bit word, an
illegal word rejected by the step of R90 that rejects it), and after it the encoder. -/

namespace Sys2Proof

/-! ### Numbers of spaces, modes and CSRs -/

/-- The space number `sp` of R60. -/
def Space.number : Space → Nat
  | .inp => 0 | .dcw => 1 | .fcw => 2 | .exp => 3 | .log => 4 | .mat => 5 | .bb => 6

/-- The space of a number; 7 to 15 are reserved (R60, R86). -/
def Space.ofNumber : Nat → Option Space
  | 0 => some .inp | 1 => some .dcw | 2 => some .fcw | 3 => some .exp | 4 => some .log | 5 => some .mat
  | 6 => some .bb | _ => none

/-- The space of a number, where STB, PLD and PST accept it: 0 to 2 (R86). -/
def Space.ofRamNumber (n : Nat) : Option Space := (Space.ofNumber n).filter Space.isRam

/-- The mode code, which is the 4-bit mode indicator itself (R86, R93). -/
def Mode.number : Mode → Nat
  | .numeric => 1 | .alphanumeric => 2 | .byte => 4 | .kanji => 8

/-- The mode of a code; every code but 1, 2, 4, 8 is reserved (R86). -/
def Mode.ofNumber : Nat → Option Mode
  | 1 => some .numeric | 2 => some .alphanumeric | 4 => some .byte | 8 => some .kanji | _ => none

/-- The CSR number of R24. -/
def Csr.number : Csr → Nat
  | .status => 0x00 | .errcmd => 0x01 | .cmdcnt => 0x02 | .ver => 0x03 | .ecl => 0x04 | .size => 0x05
  | .phase => 0x06 | .mask => 0x07 | .bblen => 0x08 | .totbits => 0x09 | .dlen => 0x0A | .flen => 0x0B
  | .pen => 0x0C | .bstage => 0x0D | .penv k => 0x10 + k.val | .fmt => 0x18 | .vinf => 0x19
  | .plen k => 0x1A + k.val | .datacw => 0x1E | .totcw => 0x1F | .nblk => 0x20 | .eccpb => 0x21

/-- The CSR of a number; a number outside 0x00..0x0D and 0x10..0x21 is no CSR (R24). -/
def Csr.ofNumber (n : Nat) : Option Csr :=
  if h : 0x10 ≤ n ∧ n ≤ 0x17 then some (.penv ⟨n - 0x10, by omega⟩)
  else if h : 0x1A ≤ n ∧ n ≤ 0x1D then some (.plen ⟨n - 0x1A, by omega⟩)
  else match n with
    | 0x00 => some .status | 0x01 => some .errcmd | 0x02 => some .cmdcnt | 0x03 => some .ver
    | 0x04 => some .ecl | 0x05 => some .size | 0x06 => some .phase | 0x07 => some .mask
    | 0x08 => some .bblen | 0x09 => some .totbits | 0x0A => some .dlen | 0x0B => some .flen
    | 0x0C => some .pen | 0x0D => some .bstage | 0x18 => some .fmt | 0x19 => some .vinf
    | 0x1E => some .datacw | 0x1F => some .totcw | 0x20 => some .nblk | 0x21 => some .eccpb
    | _ => none

/-- The CSR of a number, where CSRW accepts it (R268). -/
def Csr.ofWritableNumber (n : Nat) : Option Csr := (Csr.ofNumber n).filter Csr.isWritable

/-! ### Fields of a word (R81) -/

/-- `cw[hi:lo]` (R8): the bits of the word from `hi` down to `lo`, as a natural number. -/
def bits (cw : Word) (hi lo : Nat) : Nat := cw.toNat / 2 ^ lo % 2 ^ (hi + 1 - lo)

/-- `rd = cw[23:20]`. -/
def fieldRd (cw : Word) : XReg := Fin.ofNat 16 (bits cw 23 20)

/-- `rs1 = cw[19:16]`. -/
def fieldRs1 (cw : Word) : XReg := Fin.ofNat 16 (bits cw 19 16)

/-- `rs2 = cw[15:12]`. -/
def fieldRs2 (cw : Word) : XReg := Fin.ofNat 16 (bits cw 15 12)

/-- `pd = cw[11:10]`. -/
def fieldPd (cw : Word) : PReg := Fin.ofNat 4 (bits cw 11 10)

/-- `pa = cw[9:8]`. -/
def fieldPa (cw : Word) : PReg := Fin.ofNat 4 (bits cw 9 8)

/-- `pb = cw[7:6]`. -/
def fieldPb (cw : Word) : PReg := Fin.ofNat 4 (bits cw 7 6)

/-- `imm16 = cw[15:0]`. -/
def fieldImm16 (cw : Word) : BitVec 16 := BitVec.ofNat 16 (bits cw 15 0)

/-! ### Decoding -/

/-- The reasons for which a word is illegal, in the order R90 tests them. Each of them is IllegalCommand. -/
inductive Illegal
  /-- Step 1: `op` is unassigned (R91). -/
  | opcode
  /-- Step 2: a must-be-zero bit of the format is 1 (R81). -/
  | mustBeZero
  /-- Step 3: `sel` is a value the command does not accept (R86). -/
  | selector
  /-- Step 4: `csr` is no CSR, or is read-only and the command is CSRW (R87). -/
  | csr
  deriving DecidableEq, Repr

/-- The command `i` where the bits of each slice in `zero` are 0 (R90, step 2). -/
def whenZero (cw : Word) (zero : List (Nat × Nat)) (i : Except Illegal Instr) : Except Illegal Instr :=
  if zero.all (fun z => bits cw z.1 z.2 == 0) then i else .error .mustBeZero

/-- The command of an accepted selector or CSR number, else the reason (R90, steps 3 and 4). -/
def orIllegal (o : Option Instr) (why : Illegal) : Except Illegal Instr :=
  match o with
  | some i => .ok i
  | none => .error why

/-- The decoder: R82 to R88 by format, R91 by opcode, R90 for what is illegal. -/
def decode (cw : Word) : Except Illegal Instr :=
  let rd := fieldRd cw
  let rs1 := fieldRs1 cw
  let rs2 := fieldRs2 cw
  let pd := fieldPd cw
  let pa := fieldPa cw
  let pb := fieldPb cw
  let sel := bits cw 3 0
  match bits cw 31 24 with
  | 0x00 => whenZero cw [(23, 0)] (.ok .nop)
  | 0x01 => whenZero cw [(23, 0)] (.ok .halt)
  | 0x02 => whenZero cw [(23, 0)] (.ok .clear)
  | 0x03 => whenZero cw [(19, 16)] (.ok (.ldi rd (fieldImm16 cw)))
  | 0x04 => whenZero cw [(15, 0)] (.ok (.mov rd rs1))
  | 0x05 => whenZero cw [(15, 4)] (orIllegal ((Space.ofNumber sel).map fun sp => .ldb rd sp rs1) .selector)
  | 0x06 => whenZero cw [(23, 20), (11, 4)]
      (orIllegal ((Space.ofRamNumber sel).map fun sp => .stb sp rs1 rs2) .selector)
  | 0x07 => whenZero cw [(19, 8)] (orIllegal ((Csr.ofNumber (bits cw 7 0)).map fun c => .csrr rd c) .csr)
  | 0x08 => whenZero cw [(23, 20), (15, 8)]
      (orIllegal ((Csr.ofWritableNumber (bits cw 7 0)).map fun c => .csrw c rs1) .csr)
  | 0x10 => whenZero cw [(11, 0)] (.ok (.gfadd rd rs1 rs2))
  | 0x11 => whenZero cw [(11, 0)] (.ok (.gfmul rd rs1 rs2))
  | 0x12 => whenZero cw [(11, 0)] (.ok (.gfdiv rd rs1 rs2))
  | 0x13 => whenZero cw [(11, 0)] (.ok (.gfpow rd rs1 rs2))
  | 0x14 => whenZero cw [(15, 0)] (.ok (.gfexp rd rs1))
  | 0x15 => whenZero cw [(15, 0)] (.ok (.gflog rd rs1))
  | 0x20 => whenZero cw [(23, 20), (9, 4)]
      (orIllegal ((Space.ofRamNumber sel).map fun sp => .pld pd sp rs1 rs2) .selector)
  | 0x21 => whenZero cw [(23, 20), (15, 10), (7, 4)]
      (orIllegal ((Space.ofRamNumber sel).map fun sp => .pst pa sp rs1) .selector)
  | 0x22 => whenZero cw [(23, 12), (7, 0)] (.ok (.pmov pd pa))
  | 0x23 => whenZero cw [(19, 10), (7, 0)] (.ok (.pdeg rd pa))
  | 0x24 => whenZero cw [(23, 12), (5, 0)] (.ok (.padd pd pa pb))
  | 0x25 => whenZero cw [(23, 12), (5, 0)] (.ok (.pmul pd pa pb))
  | 0x26 => whenZero cw [(23, 20), (15, 12), (7, 0)] (.ok (.pscl pd pa rs1))
  | 0x27 => whenZero cw [(15, 10), (7, 0)] (.ok (.peval rd pa rs1))
  | 0x30 => whenZero cw [(23, 20), (15, 12), (9, 0)] (.ok (.rsgen pd rs1))
  | 0x31 => whenZero cw [(23, 12), (5, 0)] (.ok (.rsrem pd pa pb))
  | 0x32 => whenZero cw [(23, 0)] (.ok .rsenc)
  | 0x33 => whenZero cw [(15, 12), (7, 0)] (.ok (.rssyn rd pd pa rs1))
  | 0x40 => whenZero cw [(23, 20), (11, 0)] (.ok (.bapp rs1 rs2))
  | 0x41 => whenZero cw [(23, 20), (11, 4)]
      (orIllegal ((Mode.ofNumber sel).map fun m => .bseg m rs1 rs2) .selector)
  | 0x42 => whenZero cw [(23, 0)] (.ok .bterm)
  | 0x43 => whenZero cw [(23, 0)] (.ok .balign)
  | 0x44 => whenZero cw [(23, 0)] (.ok .bpad)
  | 0x45 => whenZero cw [(23, 0)] (.ok .bflush)
  | 0x50 => whenZero cw [(23, 0)] (.ok .minit)
  | 0x51 => whenZero cw [(23, 0)] (.ok .mfind)
  | 0x52 => whenZero cw [(23, 0)] (.ok .mtime)
  | 0x53 => whenZero cw [(23, 0)] (.ok .malign)
  | 0x54 => whenZero cw [(23, 0)] (.ok .mrsv)
  | 0x55 => whenZero cw [(23, 0)] (.ok .mdata)
  | 0x56 => whenZero cw [(23, 20), (15, 0)] (.ok (.mmask rs1))
  | 0x57 => whenZero cw [(19, 0)] (.ok (.mpen rd))
  | 0x58 => whenZero cw [(23, 0)] (.ok .msel)
  | 0x60 => whenZero cw [(23, 0)] (.ok .ifmt)
  | 0x61 => whenZero cw [(23, 0)] (.ok .iver)
  | 0x62 => whenZero cw [(15, 0)] (.ok (.bchf rd rs1))
  | 0x63 => whenZero cw [(15, 0)] (.ok (.bchv rd rs1))
  | _ => .error .opcode

/-- The command the decoder reads from a word of the opcode table: QRE is handed one 32-bit value (R80), whose bit
numbering is the table's own. -/
def decodeTableWord (nbits w : Nat) : Option Instr := (decode (BitVec.ofNat 32 (w % 2 ^ nbits))).toOption

/-! ### Encoding -/

/-- The word with opcode `op` and the fields `rd`, `rs1` and `cw[15:0] = low` (R81). -/
def pack (op rd rs1 low : Nat) : Word := BitVec.ofNat 32 (op * 2 ^ 24 + rd * 2 ^ 20 + rs1 * 2 ^ 16 + low)

/-- `cw[15:0]` from `rs2`, `pd`, `pa`, `pb` and `sel` (R81). -/
def packLow (rs2 pd pa pb sel : Nat) : Nat := rs2 * 2 ^ 12 + pd * 2 ^ 10 + pa * 2 ^ 8 + pb * 2 ^ 6 + sel

/-- The command word of a command (the `cw = …` line of each command's rule). For a command that is not well-formed it
is the word its fields make, which the decoder rejects. -/
def encode : Instr → Word
  | .gfadd rd rs1 rs2 => pack 0x10 rd rs1 (packLow rs2 0 0 0 0)
  | .gfmul rd rs1 rs2 => pack 0x11 rd rs1 (packLow rs2 0 0 0 0)
  | .gfdiv rd rs1 rs2 => pack 0x12 rd rs1 (packLow rs2 0 0 0 0)
  | .gfpow rd rs1 rs2 => pack 0x13 rd rs1 (packLow rs2 0 0 0 0)
  | .gfexp rd rs1 => pack 0x14 rd rs1 0
  | .gflog rd rs1 => pack 0x15 rd rs1 0
  | .pld pd sp rs1 rs2 => pack 0x20 0 rs1 (packLow rs2 pd 0 0 sp.number)
  | .pst pa sp rs1 => pack 0x21 0 rs1 (packLow 0 0 pa 0 sp.number)
  | .pmov pd pa => pack 0x22 0 0 (packLow 0 pd pa 0 0)
  | .pdeg rd pa => pack 0x23 rd 0 (packLow 0 0 pa 0 0)
  | .padd pd pa pb => pack 0x24 0 0 (packLow 0 pd pa pb 0)
  | .pmul pd pa pb => pack 0x25 0 0 (packLow 0 pd pa pb 0)
  | .pscl pd pa rs1 => pack 0x26 0 rs1 (packLow 0 pd pa 0 0)
  | .peval rd pa rs1 => pack 0x27 rd rs1 (packLow 0 0 pa 0 0)
  | .rsgen pd rs1 => pack 0x30 0 rs1 (packLow 0 pd 0 0 0)
  | .rsrem pd pa pb => pack 0x31 0 0 (packLow 0 pd pa pb 0)
  | .rsenc => pack 0x32 0 0 0
  | .rssyn rd pd pa rs1 => pack 0x33 rd rs1 (packLow 0 pd pa 0 0)
  | .bapp rs1 rs2 => pack 0x40 0 rs1 (packLow rs2 0 0 0 0)
  | .bseg m rs1 rs2 => pack 0x41 0 rs1 (packLow rs2 0 0 0 m.number)
  | .bterm => pack 0x42 0 0 0
  | .balign => pack 0x43 0 0 0
  | .bpad => pack 0x44 0 0 0
  | .bflush => pack 0x45 0 0 0
  | .minit => pack 0x50 0 0 0
  | .mfind => pack 0x51 0 0 0
  | .mtime => pack 0x52 0 0 0
  | .malign => pack 0x53 0 0 0
  | .mrsv => pack 0x54 0 0 0
  | .mdata => pack 0x55 0 0 0
  | .mmask rs1 => pack 0x56 0 rs1 0
  | .mpen rd => pack 0x57 rd 0 0
  | .msel => pack 0x58 0 0 0
  | .ifmt => pack 0x60 0 0 0
  | .iver => pack 0x61 0 0 0
  | .bchf rd rs1 => pack 0x62 rd rs1 0
  | .bchv rd rs1 => pack 0x63 rd rs1 0
  | .nop => pack 0x00 0 0 0
  | .halt => pack 0x01 0 0 0
  | .clear => pack 0x02 0 0 0
  | .ldi rd imm => pack 0x03 rd 0 imm.toNat
  | .mov rd rs1 => pack 0x04 rd rs1 0
  | .ldb rd sp rs1 => pack 0x05 rd rs1 (packLow 0 0 0 0 sp.number)
  | .stb sp rs1 rs2 => pack 0x06 0 rs1 (packLow rs2 0 0 0 sp.number)
  | .csrr rd csr => pack 0x07 rd 0 csr.number
  | .csrw csr rs1 => pack 0x08 0 rs1 csr.number

end Sys2Proof
end

