-- ==== Sys2Proof/Machine/State.lean ====
section
/-! DEFINITION. The state of QRE as plain data (10_state.md): every register, CSR, buffer, memory and the matrix, at the
widths of R24, beside the two host-port fields of the model (R240), and the state after reset (R50, R310). -/

namespace Sys2Proof.Machine

/-- The fault codes of `STATUS.ERR` (60_exceptions.md R281). -/
inductive ErrCode
  /-- Empty input, or a character the named mode cannot carry. -/
  | invalidInput
  /-- The data does not fit: the capacity, the count indicator or the bit buffer. -/
  | capacityExceeded
  /-- A version, level, mask or mode outside the options. -/
  | invalidOption
  /-- GF division by zero, the logarithm of 0. -/
  | arithmeticError
  /-- The command word is illegal (R90). -/
  | illegalCommand
  /-- A command in a phase, stage or configuration its rule does not allow. -/
  | sequenceError
  /-- A register operand outside the range the command accepts. -/
  | rangeError
  deriving DecidableEq, Repr

/-- The number of a fault code in `STATUS.ERR` (R281). -/
def ErrCode.code : ErrCode → Nat
  | .invalidInput => 1 | .capacityExceeded => 2 | .invalidOption => 3 | .arithmeticError => 4
  | .illegalCommand => 5 | .sequenceError => 6 | .rangeError => 7

/-- The tri-state of a matrix cell (R45). -/
inductive Colour
  | unset | light | dark
  deriving DecidableEq, Repr

/-- One cell of the matrix: `M[r][c]` and its reservation bit `RSV[r][c]` (R45). -/
structure MatCell where
  colour : Colour
  reserved : Bool
  deriving DecidableEq, Repr

/-- The matrix `M` with `RSV`: its rows from the top, each from the left (R45). -/
abbrev Grid := List (List MatCell)

/-- A byte memory (IN, DCW, FCW): the bytes that are not `Memory.unlisted`, at strictly rising addresses. -/
abbrev Memory := List Host.Cell

/-- What an unlisted address reads as: every byte of IN, DCW and FCW is 0 after reset (R50; log 8). -/
def Memory.unlisted : Byte := 0

/-- The canonical form: strictly rising addresses, and no entry that equals what an unlisted address reads as. -/
abbrev Memory.wf (m : Memory) : Prop :=
  m.Pairwise (fun c d => c.1 < d.1) ∧ ∀ c ∈ m, c.2 ≠ Memory.unlisted

/-- One host transaction (47_host_orchestration.md R240). Space numbers, addresses and CSR numbers are natural numbers
(R60); those that name nothing are refused (R251). -/
inductive HostTx
  /-- `Reset`: the reset pin asserted and released (R310). -/
  | reset
  /-- `Command(cw)`: one word on the command port (R80). -/
  | command (cw : Word)
  /-- `HostRead(sp, addr)`. -/
  | read (sp addr : Nat)
  /-- `HostWrite(sp, addr, v)`. -/
  | write (sp addr : Nat) (v : Byte)
  /-- `HostCsr(n)`. -/
  | csr (n : Nat)
  deriving DecidableEq, Repr

/-- What the host port answers (the result column of R240). -/
inductive HostReply
  /-- Nothing: before any host access, and after `Reset` and `Command`. -/
  | noData
  /-- The byte (or bit) read, or the CSR's value. -/
  | value (v : Word)
  /-- The byte was written. -/
  | done
  /-- The access was refused (R251): no data, no state change. -/
  | refused
  deriving DecidableEq, Repr

/-- The reasons for which a step of the model stops with a machine fault: none. Every fault of QRE is a state it enters
and stays usable in (R284, R288), so it is a next state here, and no rule of the spec leaves a command or a host access
without an outcome (R327). Nobody raises a member of this type, which is safe: the model never stops where QRE goes on. -/
inductive Fault
  deriving DecidableEq, Repr

/-- The reasons for which the model gives an instruction no meaning. -/
inductive Refusal
  /-- Raised by no arm of `exec`: all 46 commands are modelled. Safe: a refusal proves nothing about QRE. -/
  | notModelled (mnemonic : String)
  deriving DecidableEq, Repr

/-- The complete state of QRE (R20), and the model's own two host-port fields. -/
structure State where
  /-- The scalar registers (R21). -/
  x : Vector Word 16
  /-- The polynomial registers, highest degree first (R41); `PLENk` is the length of `p[k]`. -/
  p : Vector (List Byte) 4
  /-- `STATUS.FAULT` and `STATUS.ERR` (R25, R281): the code while `FAULT = 1`, none while it is 0. -/
  fault : Option ErrCode
  /-- `STATUS.HALTED` (R25). -/
  halted : Bool
  /-- `ERRCMD` (R26). -/
  errcmd : Word
  /-- `CMDCNT` (R27). -/
  cmdcnt : Word
  /-- `VER` (R28). -/
  ver : BitVec 6
  /-- `ECL` (R29). -/
  ecl : BitVec 2
  /-- `SIZE` (R30). -/
  size : BitVec 8
  /-- `PHASE` (R30). -/
  phase : BitVec 4
  /-- `MASK` (R30): bit 3 valid, bits [2:0] the mask id. -/
  mask : BitVec 4
  /-- `BB` (R42), first appended bit first; `BBLEN` is its length. -/
  bb : List Bool
  /-- `TOTBITS` (R31). -/
  totbits : BitVec 15
  /-- `DLEN` (R31). -/
  dlen : BitVec 13
  /-- `FLEN` (R31). -/
  flen : BitVec 13
  /-- `PEN` (R32). -/
  pen : Word
  /-- `BSTAGE` (R31). -/
  bstage : BitVec 2
  /-- `PENV0` .. `PENV7` (R32). -/
  penv : Vector Word 8
  /-- `FMT` (R32). -/
  fmt : BitVec 15
  /-- `VINF` (R32). -/
  vinf : BitVec 18
  /-- The memory `IN` (R43). -/
  inp : Memory
  /-- The memory `DCW` (R44). -/
  dcw : Memory
  /-- The memory `FCW` (R44). -/
  fcw : Memory
  /-- `M` and `RSV` (R45). -/
  mat : Grid
  /-- The model's own: the host's transactions still to come, first one next (R240; log 1). -/
  pending : List HostTx
  /-- The model's own: the host port's last answer (R240; log 2). -/
  reply : HostReply
  deriving DecidableEq, Repr

/-- The state after the reset pin is asserted and released (R50, R310). -/
def State.reset : State where
  x := Vector.replicate 16 0
  p := Vector.replicate 4 [0]
  fault := none
  halted := false
  errcmd := 0
  cmdcnt := 0
  ver := 0
  ecl := 0
  size := 0
  phase := 0
  mask := 0
  bb := []
  totbits := 0
  dlen := 0
  flen := 0
  pen := 0
  bstage := 0
  penv := Vector.replicate 8 0
  fmt := 0
  vinf := 0
  inp := []
  dcw := []
  fcw := []
  mat := []
  pending := []
  reply := .noData

end Sys2Proof.Machine
end

