-- ==== Sys2Proof/Machine/Rom.lean ====
section
/-! DEFINITION. The ROM tables of QRE (10_state.md R33 to R39, 44_matrix_patterns.md R184, 30_encoding.md R94): constants,
not state (R20). They are written here, in a file of Machine/, and stand at the spec's own values (log 7). -/

namespace Sys2Proof.Machine

/-! ### EXP and LOG (R33, R34) -/

/-- The table of R33, one number per row of 16 entries, entry +0 in the most significant byte; index 255 does not exist
and its place holds 00. -/
def expRows : List Nat :=
  [ 0x01020408102040801D3A74E8CD871326,
    0x4C982D5AB475EAC98F03060C183060C0,
    0x9D274E9C254A94356AD4B577EEC19F23,
    0x468C050A142850A05DBA69D2B96FDEA1,
    0x5FBE61C2992F5EBC65CA890F1E3C78F0,
    0xFDE7D3BB6BD6B17FFEE1DFA35BB671E2,
    0xD9AF4386112244880D1A3468D0BD67CE,
    0x811F3E7CF8EDC7933B76ECC5973366CC,
    0x85172E5CB86DDAA94F9E214284152A54,
    0xA84D9A2952A455AA49923972E4D5B773,
    0xE6D1BF63C6913F7EFCE5D7B37BF6F1FF,
    0xE3DBAB4B963162C495376EDCA557AE41,
    0x82193264C88D070E1C3870E0DDA753A6,
    0x51A259B279F2F9EFC39B2B56AC458A09,
    0x122448903D7AF4F5F7F3FBEBCB8B0B16,
    0x2C58B07DFAE9CF831B366CD8AD478E00 ]

/-- The table of R34, laid out as `expRows`; `LOG[0]` is undefined and its place holds 00, which `gfLog` never reads. -/
def logRows : List Nat :=
  [ 0x0000011902321AC603DF33EE1B68C74B,
    0x0464E00E348DEF811CC169F8C8084C71,
    0x058A652FE1240F2135938EDAF0128245,
    0x1DB5C27D6A27F9B9C99A09784DE472A6,
    0x06BF8B6266DD30FDE29825B310912288,
    0x36D094CE8F96DBBDF1D2135C83384640,
    0x1E42B6A3C3487E6E6B3A2854FA85BA3D,
    0xCA5E9B9F0A15792B4ED4E5AC73F3A757,
    0x0770C0F78C80630D674ADEED31C5FE18,
    0xE3A5997726B8B47C114492D92320892E,
    0x373FD15B95BCCFCD908797B2DCFCBE61,
    0xF256D3AB142A5D9E843C3953476D41A2,
    0x1F2D43D8B77BA476C41749EC7F0C6FF6,
    0x6CA13B52299D55AAFB6086B1BBCC3E5A,
    0xCB595FB09CA9A0510BF516EB7A752CD7,
    0x4FAED5E9E6E7ADE874D6F4EAA85058AF ]

/-- The entry with index `i` of a table laid out in rows of 16 bytes. -/
def romByte (rows : List Nat) (i : Nat) : Nat := rows.getD (i / 16) 0 / 2 ^ (8 * (15 - i % 16)) % 256

/-- `EXP[i]`, `i` in 0..254 (R33). -/
def romExp (i : Nat) : Byte := BitVec.ofNat 8 (romByte expRows i)

/-- `LOG[a]` as a number 0..254, for `a != 0`; there is no `LOG[0]` (R34). -/
def romLog (a : Byte) : Option Nat := if a = 0 then none else some (romByte logRows a.toNat)

/-! ### ALNUM (R35) -/

/-- The ASCII codes of the 45 symbols in the order of their values: digits, capital letters, then space and
`$`, `%`, `*`, `+`, `-`, `.`, `/`, `:` (R35). -/
def alnumTable : List Nat :=
  (List.range 10).map (0x30 + ·) ++ (List.range 26).map (0x41 + ·)
    ++ [0x20, 0x24, 0x25, 0x2A, 0x2B, 0x2D, 0x2E, 0x2F, 0x3A]

/-- The value 0..44 of a character, none where it is not in the table (R35). -/
def alnumValue (ch : Byte) : Option Nat := alnumTable.idxOf? ch.toNat

/-! ### Capacity tables (R36 to R39) -/

/-- An error-correction level (R29). -/
inductive Level
  | l | m | q | h
  deriving DecidableEq, Repr

/-- The level of the 2-bit code in `ECL`: L = 1, M = 0, Q = 3, H = 2 (R29). -/
def levelOf (ecl : BitVec 2) : Level :=
  if ecl = 0 then .m else if ecl = 1 then .l else if ecl = 2 then .h else .q

/-- The 2-bit code of a level (R29). -/
def levelCode : Level → BitVec 2
  | .m => 0 | .l => 1 | .h => 2 | .q => 3

/-- Four table columns, one per level. -/
structure PerLevel where
  l : Nat
  m : Nat
  q : Nat
  h : Nat

/-- The column of a level. -/
def PerLevel.column (t : PerLevel) : Level → Nat
  | .l => t.l | .m => t.m | .q => t.q | .h => t.h

/-- The value a table of versions gives where the version is not 1..40. -/
def noColumns : PerLevel := ⟨0, 0, 0, 0⟩

/-- Columns E of R39 (`ECC_PER_BLOCK`), versions 1 to 10: columns L, M, Q, H. -/
def eccRows0 : List PerLevel :=
  [ ⟨7, 10, 13, 17⟩, ⟨10, 16, 22, 28⟩, ⟨15, 26, 18, 22⟩, ⟨20, 18, 26, 16⟩, ⟨26, 24, 18, 22⟩,
    ⟨18, 16, 24, 28⟩, ⟨20, 18, 18, 26⟩, ⟨24, 22, 22, 26⟩, ⟨30, 22, 20, 24⟩, ⟨18, 26, 24, 28⟩ ]

/-- Columns E of R39 (`ECC_PER_BLOCK`), versions 11 to 20: columns L, M, Q, H. -/
def eccRows1 : List PerLevel :=
  [ ⟨20, 30, 28, 24⟩, ⟨24, 22, 26, 28⟩, ⟨26, 22, 24, 22⟩, ⟨30, 24, 20, 24⟩, ⟨22, 24, 30, 24⟩,
    ⟨24, 28, 24, 30⟩, ⟨28, 28, 28, 28⟩, ⟨30, 26, 28, 28⟩, ⟨28, 26, 26, 26⟩, ⟨28, 26, 30, 28⟩ ]

/-- Columns E of R39 (`ECC_PER_BLOCK`), versions 21 to 30: columns L, M, Q, H. -/
def eccRows2 : List PerLevel :=
  [ ⟨28, 26, 28, 30⟩, ⟨28, 28, 30, 24⟩, ⟨30, 28, 30, 30⟩, ⟨30, 28, 30, 30⟩, ⟨26, 28, 30, 30⟩,
    ⟨28, 28, 28, 30⟩, ⟨30, 28, 30, 30⟩, ⟨30, 28, 30, 30⟩, ⟨30, 28, 30, 30⟩, ⟨30, 28, 30, 30⟩ ]

/-- Columns E of R39 (`ECC_PER_BLOCK`), versions 31 to 40: columns L, M, Q, H. -/
def eccRows3 : List PerLevel :=
  [ ⟨30, 28, 30, 30⟩, ⟨30, 28, 30, 30⟩, ⟨30, 28, 30, 30⟩, ⟨30, 28, 30, 30⟩, ⟨30, 28, 30, 30⟩,
    ⟨30, 28, 30, 30⟩, ⟨30, 28, 30, 30⟩, ⟨30, 28, 30, 30⟩, ⟨30, 28, 30, 30⟩, ⟨30, 28, 30, 30⟩ ]

/-- Columns N of R39 (`NBLK`), versions 1 to 10: columns L, M, Q, H. -/
def nblkRows0 : List PerLevel :=
  [ ⟨1, 1, 1, 1⟩, ⟨1, 1, 1, 1⟩, ⟨1, 1, 2, 2⟩, ⟨1, 2, 2, 4⟩, ⟨1, 2, 4, 4⟩,
    ⟨2, 4, 4, 4⟩, ⟨2, 4, 6, 5⟩, ⟨2, 4, 6, 6⟩, ⟨2, 5, 8, 8⟩, ⟨4, 5, 8, 8⟩ ]

/-- Columns N of R39 (`NBLK`), versions 11 to 20: columns L, M, Q, H. -/
def nblkRows1 : List PerLevel :=
  [ ⟨4, 5, 8, 11⟩, ⟨4, 8, 10, 11⟩, ⟨4, 9, 12, 16⟩, ⟨4, 9, 16, 16⟩, ⟨6, 10, 12, 18⟩,
    ⟨6, 10, 17, 16⟩, ⟨6, 11, 16, 19⟩, ⟨6, 13, 18, 21⟩, ⟨7, 14, 21, 25⟩, ⟨8, 16, 20, 25⟩ ]

/-- Columns N of R39 (`NBLK`), versions 21 to 30: columns L, M, Q, H. -/
def nblkRows2 : List PerLevel :=
  [ ⟨8, 17, 23, 25⟩, ⟨9, 17, 23, 34⟩, ⟨9, 18, 25, 30⟩, ⟨10, 20, 27, 32⟩, ⟨12, 21, 29, 35⟩,
    ⟨12, 23, 34, 37⟩, ⟨12, 25, 34, 40⟩, ⟨13, 26, 35, 42⟩, ⟨14, 28, 38, 45⟩, ⟨15, 29, 40, 48⟩ ]

/-- Columns N of R39 (`NBLK`), versions 31 to 40: columns L, M, Q, H. -/
def nblkRows3 : List PerLevel :=
  [ ⟨16, 31, 43, 51⟩, ⟨17, 33, 45, 54⟩, ⟨18, 35, 48, 57⟩, ⟨19, 37, 51, 60⟩, ⟨19, 38, 53, 63⟩,
    ⟨20, 40, 56, 66⟩, ⟨21, 43, 59, 70⟩, ⟨22, 45, 62, 74⟩, ⟨24, 47, 65, 77⟩, ⟨25, 49, 68, 81⟩ ]

/-- A table of versions 1 to 40 read at version `v`. -/
def atVersion (rows : List PerLevel) (v : Nat) : PerLevel :=
  if v = 0 then noColumns else rows.getD (v - 1) noColumns

/-- `ECC_PER_BLOCK(v, l)` (R37); 0 where `v` is no version. -/
def eccPerBlock (v : Nat) (lv : Level) : Nat := (atVersion (eccRows0 ++ eccRows1 ++ eccRows2 ++ eccRows3) v).column lv

/-- `NBLK(v, l)` (R38); 0 where `v` is no version. -/
def nblk (v : Nat) (lv : Level) : Nat := (atVersion (nblkRows0 ++ nblkRows1 ++ nblkRows2 ++ nblkRows3) v).column lv

/-- `N(v)`, the number of unreserved cells after MRSV (44_matrix_patterns.md R186); 0 where `v` is no version. -/
def dataCells (v : Nat) : Nat :=
  if 1 ≤ v ∧ v ≤ 40 then
    let n := v / 7 + 2
    16 * v * v + 128 * v + 64 - (if v = 1 then 0 else 25 * n * n - 10 * n - 55) - (if v ≥ 7 then 36 else 0)
  else 0

/-- `TOTAL_CW(v) = N(v) div 8` (R36). -/
def totalCw (v : Nat) : Nat := dataCells v / 8

/-- `REM_BITS(v) = N(v) mod 8` (R36). -/
def remBits (v : Nat) : Nat := dataCells v % 8

/-- `DATA_CW(v, l)` (R39). -/
def dataCw (v : Nat) (lv : Level) : Nat := totalCw v - eccPerBlock v lv * nblk v lv

/-! ### Alignment positions (R184) -/

/-- `ALIGN_POS`, versions 1 to 10 (R184). -/
def alignRows0 : List (List Nat) :=
  [ [],
    [6, 18],
    [6, 22],
    [6, 26],
    [6, 30],
    [6, 34],
    [6, 22, 38],
    [6, 24, 42],
    [6, 26, 46],
    [6, 28, 50] ]

/-- `ALIGN_POS`, versions 11 to 20 (R184). -/
def alignRows1 : List (List Nat) :=
  [ [6, 30, 54],
    [6, 32, 58],
    [6, 34, 62],
    [6, 26, 46, 66],
    [6, 26, 48, 70],
    [6, 26, 50, 74],
    [6, 30, 54, 78],
    [6, 30, 56, 82],
    [6, 30, 58, 86],
    [6, 34, 62, 90] ]

/-- `ALIGN_POS`, versions 21 to 30 (R184). -/
def alignRows2 : List (List Nat) :=
  [ [6, 28, 50, 72, 94],
    [6, 26, 50, 74, 98],
    [6, 30, 54, 78, 102],
    [6, 28, 54, 80, 106],
    [6, 32, 58, 84, 110],
    [6, 30, 58, 86, 114],
    [6, 34, 62, 90, 118],
    [6, 26, 50, 74, 98, 122],
    [6, 30, 54, 78, 102, 126],
    [6, 26, 52, 78, 104, 130] ]

/-- `ALIGN_POS`, versions 31 to 40 (R184). -/
def alignRows3 : List (List Nat) :=
  [ [6, 30, 56, 82, 108, 134],
    [6, 34, 60, 86, 112, 138],
    [6, 30, 58, 86, 114, 142],
    [6, 34, 62, 90, 118, 146],
    [6, 30, 54, 78, 102, 126, 150],
    [6, 24, 50, 76, 102, 128, 154],
    [6, 28, 54, 80, 106, 132, 158],
    [6, 32, 58, 84, 110, 136, 162],
    [6, 26, 54, 82, 110, 138, 166],
    [6, 30, 58, 86, 114, 142, 170] ]

/-- `ALIGN_POS(v)` (R184); empty where `v` is no version. -/
def alignPos (v : Nat) : List Nat :=
  if v = 0 then [] else (alignRows0 ++ alignRows1 ++ alignRows2 ++ alignRows3).getD (v - 1) []

/-! ### Character-count indicator widths (R94) -/

/-- `CCBITS(mode, v)` (30_encoding.md R94). -/
def ccBits (m : Mode) (v : Nat) : Nat :=
  if v ≤ 9 then
    match m with | .numeric => 10 | .alphanumeric => 9 | .byte => 8 | .kanji => 8
  else if v ≤ 26 then
    match m with | .numeric => 12 | .alphanumeric => 11 | .byte => 16 | .kanji => 10
  else
    match m with | .numeric => 14 | .alphanumeric => 13 | .byte => 16 | .kanji => 12

end Sys2Proof.Machine
end

