-- ==== Sys2Proof/Machine/Ops.lean ====
section
/-! DEFINITION. The named operations over registers, memories, the bit buffer and the matrix, taking a fault and the
return from it (60_exceptions.md R284, R286), and the one frame in which every command runs (00_scope.md R12, R285). -/

namespace Sys2Proof.Machine

/-! ### Registers -/

/-- `x[i]` (R11). -/
def readX (s : State) (r : XReg) : Word := s.x[r.val]

/-- `x[i] <- v` (R11, R21): the whole 32-bit register. -/
def writeX (s : State) (r : XReg) (v : Word) : State := { s with x := s.x.set r.val v }

/-- `p[k]` (R11). -/
def readP (s : State) (k : PReg) : List Byte := s.p[k.val]

/-- `p[k] <- s` (R11, R130): the whole register; `PLENk` is the new length. -/
def writeP (s : State) (k : PReg) (v : List Byte) : State := { s with p := s.p.set k.val v }

/-- `PLEN[k]` (R41). -/
abbrev pLen (s : State) (k : PReg) : Nat := (readP s k).length

/-- `BBLEN` (R31, R42). -/
abbrev bbLen (s : State) : Nat := s.bb.length

/-- The level `ECL` holds (R29). -/
abbrev level (s : State) : Level := levelOf s.ecl

/-! ### Byte memories -/

/-- The byte at address `a`. -/
def Memory.read : Memory → Nat → Byte
  | [], _ => Memory.unlisted
  | (k, w) :: m, a => if k = a then w else Memory.read m a

/-- The memory with byte `v` at address `a`, in canonical form. -/
def Memory.write : Memory → Nat → Byte → Memory
  | [], a, v => if v = Memory.unlisted then [] else [(a, v)]
  | (k, w) :: m, a, v =>
    if a < k then (if v = Memory.unlisted then (k, w) :: m else (a, v) :: (k, w) :: m)
    else if a = k then (if v = Memory.unlisted then m else (a, v) :: m)
    else (k, w) :: Memory.write m a v

/-- The memory with the bytes `vs` at `a`, `a + 1`, … -/
def Memory.writeAll (m : Memory) (a : Nat) : List Byte → Memory
  | [] => m
  | v :: vs => Memory.writeAll (Memory.write m a v) (a + 1) vs

/-- The bytes at `a`, `a + 1`, …, `a + n - 1`. -/
def Memory.readAll (m : Memory) (a n : Nat) : List Byte := (List.range n).map fun i => m.read (a + i)

/-- The number of bytes of a space STB, PLD and PST accept, none for the others (R60, R120). -/
def Space.limit : Space → Option Nat
  | .inp => some Config.inSize
  | .dcw => some Config.cwSize
  | .fcw => some Config.cwSize
  | .exp | .log | .mat | .bb => none

/-- The memory of a space IN, DCW or FCW; the others have none. -/
def ram (s : State) : Space → Memory
  | .inp => s.inp
  | .dcw => s.dcw
  | .fcw => s.fcw
  | .exp | .log | .mat | .bb => []

/-- The state with the memory of a space IN, DCW or FCW replaced; the others are never the target (R67). -/
def setRam (s : State) (sp : Space) (m : Memory) : State :=
  match sp with
  | .inp => { s with inp := m }
  | .dcw => { s with dcw := m }
  | .fcw => { s with fcw := m }
  | .exp | .log | .mat | .bb => s

/-! ### The matrix -/

/-- The cell at row `r`, column `c` (R45); a position outside the matrix gives Unset, unreserved (log 12). -/
def Grid.cell (g : Grid) (r c : Nat) : MatCell := (g.getD r []).getD c ⟨.unset, false⟩

/-- The grid with the cell at `(r, c)` changed by `f`. -/
def Grid.modify (g : Grid) (r c : Nat) (f : MatCell → MatCell) : Grid :=
  List.modify g r fun row => List.modify row c f

/-- `setf(r, c, val)` (44_matrix_patterns.md R189). -/
def Grid.setf (g : Grid) (rc : Nat × Nat) (v : Colour) : Grid := Grid.modify g rc.1 rc.2 fun _ => ⟨v, true⟩

/-- `reserve(r, c)` (R189). -/
def Grid.reserve (g : Grid) (rc : Nat × Nat) : Grid := Grid.modify g rc.1 rc.2 fun m => { m with reserved := true }

/-- `M[r][c] <- val` with `RSV` left as it is (R200, R222, R224). -/
def Grid.paint (g : Grid) (rc : Nat × Nat) (v : Colour) : Grid :=
  Grid.modify g rc.1 rc.2 fun m => { m with colour := v }

/-- A `setf` for each entry, in order. -/
def Grid.setfAll (g : Grid) (ws : List ((Nat × Nat) × Colour)) : Grid := ws.foldl (fun g w => g.setf w.1 w.2) g

/-- A `reserve` for each entry, in order. -/
def Grid.reserveAll (g : Grid) (ws : List (Nat × Nat)) : Grid := ws.foldl Grid.reserve g

/-- A `paint` for each entry, in order. -/
def Grid.paintAll (g : Grid) (ws : List ((Nat × Nat) × Colour)) : Grid := ws.foldl (fun g w => g.paint w.1 w.2) g

/-- Dark for a bit 1, Light for a bit 0 (R200, R228). -/
def colourOf (b : Bool) : Colour := if b then .dark else .light

/-- The byte a cell reads as in space MAT: bit 0 Dark, bit 1 Unset, bit 2 reserved (R45, R63). -/
def MatCell.byte (m : MatCell) : Byte :=
  BitVec.ofNat 8 ((if m.colour = .dark then 1 else 0) + (if m.colour = .unset then 2 else 0)
    + (if m.reserved then 4 else 0))

/-! ### Checks -/

/-- `require cond else <Fault>` (R11). -/
def require (c : Prop) [Decidable c] (e : ErrCode) : Except ErrCode Unit := if c then .ok () else .error e

/-- `MemRead(sp, addr, 1)` (20_memory.md R66). -/
def memRead (s : State) (sp : Space) (addr : Nat) : Except ErrCode Byte :=
  match sp with
  | .inp => do require (addr ≤ 8191) .rangeError; .ok (s.inp.read addr)
  | .dcw => do require (addr ≤ 4095) .rangeError; .ok (s.dcw.read addr)
  | .fcw => do require (addr ≤ 4095) .rangeError; .ok (s.fcw.read addr)
  | .exp => do require (addr ≤ 254) .rangeError; .ok (romExp addr)
  | .log => do
    require (addr ≠ 0) .arithmeticError
    require (addr ≤ 255) .rangeError
    match romLog (BitVec.ofNat 8 addr) with
    | some i => .ok (BitVec.ofNat 8 i)
    | none => .error .arithmeticError
  | .mat => do
    require (addr < s.size.toNat * s.size.toNat) .rangeError
    .ok (s.mat.cell (addr / s.size.toNat) (addr % s.size.toNat)).byte
  | .bb => do
    require (addr < bbLen s) .rangeError
    .ok (if s.bb.getD addr false then 1 else 0)

/-- `MemWrite(sp, addr, 1, v)` (R67); a space STB cannot name is illegal (R64). -/
def memWrite (s : State) (sp : Space) (addr : Nat) (v : Byte) : Except ErrCode State :=
  match Space.limit sp with
  | none => .error .illegalCommand
  | some n => do
    require (addr < n) .rangeError
    .ok (setRam s sp ((ram s sp).write addr v))

/-! ### The bit buffer -/

/-- The `n` low bits of `v`, most significant first: what `bb_append(v, n)` appends (43_bitstream.md R170). -/
def bitsOf (v n : Nat) : List Bool := (List.range n).map fun k => v.testBit (n - 1 - k)

/-- The state with the bits appended to `BB` (R42, R170). -/
def appendBits (s : State) (bs : List Bool) : State := { s with bb := s.bb ++ bs }

/-! ### Faults and completion -/

/-- Fault entry (60_exceptions.md R284) for the command word `cw`: nothing else changes. -/
def enterFault (e : ErrCode) (cw : Word) (s : State) : State := { s with fault := some e, errcmd := cw }

/-- The return from a fault, which is CLEAR's effect (R286, 48_system_commands.md R262): every piece of state at its
"after CLEAR" value of R50; `CMDCNT` is kept (and counted on by completion), and so are the host port's fields. -/
def discardRun (s : State) : State :=
  { State.reset with cmdcnt := s.cmdcnt, pending := s.pending, reply := s.reply }

/-- Completion: `CMDCNT <- CMDCNT + 1` modulo 2^32, the last effect of every completing command (R27). -/
def complete (s : State) : State := { s with cmdcnt := s.cmdcnt + 1 }

/-- One command from its checks and effect `r`: it completes with all of its effect, or it faults with none of it
(R12, R285). `ERRCMD` gets the command's own word (R26; log 4). -/
def runCommand (i : Instr) (s : State) (r : Except ErrCode State) : Host.Outcome State Fault Refusal :=
  match r with
  | .ok t => .next (complete t)
  | .error e => .next (enterFault e (encode i) s)

end Sys2Proof.Machine
end

