-- ==== Sys2Proof/Machine/Operands.lean ====
section
/-! DEFINITION. The operand forms of the commands: a register value checked against the range its command accepts
(00_scope.md R12, 10_state.md R21, 30_encoding.md R89), and the runs of addresses (20_memory.md R65). -/

namespace Sys2Proof.Machine

/-- A register as a GF(256) element: at most 255, never truncated (40_gf256.md R107). -/
def fieldElement (s : State) (r : XReg) : Except ErrCode Byte := do
  require ((readX s r).toNat ≤ 255) .rangeError
  .ok ((readX s r).setWidth 8)

/-- A register as a natural number at most `hi`, else RangeError. -/
def natUpTo (s : State) (r : XReg) (hi : Nat) : Except ErrCode Nat := do
  require ((readX s r).toNat ≤ hi) .rangeError
  .ok (readX s r).toNat

/-- A register as an ECC degree, 1..255 (42_reed_solomon.md R148). -/
def degree (s : State) (r : XReg) : Except ErrCode Nat := do
  require (1 ≤ (readX s r).toNat ∧ (readX s r).toNat ≤ Config.degMax) .rangeError
  .ok (readX s r).toNat

/-- The size of a space PLD, PST and STB accept; naming another space is illegal (R86, R90). -/
def ramLimit (sp : Space) : Except ErrCode Nat :=
  match Space.limit sp with
  | some n => .ok n
  | none => .error .illegalCommand

/-- The run of `n` bytes from `a` lies in a space of `limit` bytes; the sum is exact (R65). -/
def requireRun (a n limit : Nat) : Except ErrCode Unit := require (a + n ≤ limit) .rangeError

/-- A version is set (R28). -/
def requireVersion (s : State) : Except ErrCode Unit := require (s.ver ≠ 0) .sequenceError

/-- `PHASE` has the one value a matrix command requires (R30). -/
def requirePhase (s : State) (k : BitVec 4) : Except ErrCode Unit := require (s.phase = k) .sequenceError

/-- `BSTAGE` has the one value a packer command requires (43_bitstream.md R171). -/
def requireStage (s : State) (k : BitVec 2) : Except ErrCode Unit := require (s.bstage = k) .sequenceError

/-- Appending `n` bits keeps the buffer within `BBMAX` (R42, R170). -/
def requireRoom (s : State) (n : Nat) : Except ErrCode Unit :=
  require (bbLen s + n ≤ Config.bbMax) .capacityExceeded

end Sys2Proof.Machine
end

