-- ==== Sys2Proof/Machine/Flags.lean ====
section
/-! DEFINITION. QRE has no flags (10_state.md R23). What it computes instead: the fields of `STATUS` (R25), the view CSRs
(R32), the value of every CSR as it is read (R24, 48_system_commands.md R267) and the write window (R269). -/

namespace Sys2Proof.Machine

/-- `RESULT_VALID = (PHASE = 9) and (FAULT = 0)` (R25). -/
def resultValid (s : State) : Bool := s.phase = 9 && s.fault.isNone

/-- Every command word but CLEAR's is dropped: `FAULT = 1` or `HALTED = 1` (60_exceptions.md R288). -/
def stopped (s : State) : Bool := s.fault.isSome || s.halted

/-- `STATUS` (R25): bit 0 FAULT, bit 1 HALTED, bit 2 RESULT_VALID, bit 3 zero, bits [7:4] ERR. -/
def statusWord (s : State) : Word :=
  BitVec.ofNat 32 ((if s.fault.isSome then 1 else 0) + (if s.halted then 2 else 0)
    + (if resultValid s then 4 else 0)
    + 16 * (match s.fault with | some e => e.code | none => 0))

/-- `window()` (R269): VER and ECL may be written. -/
abbrev writeWindow (s : State) : Prop := s.phase = 0 ∧ bbLen s = 0 ∧ s.flen = 0

/-- `DATA_CW(VER, ECL)`; 0 while `VER = 0` (R32, R39). -/
abbrev dataCwNow (s : State) : Nat := dataCw s.ver.toNat (level s)

/-- `TOTAL_CW(VER)`; 0 while `VER = 0` (R32, R36). -/
abbrev totalCwNow (s : State) : Nat := totalCw s.ver.toNat

/-- `CAP = 8 * DATA_CW(VER, ECL)`, the data capacity in bits (43_bitstream.md R172). -/
abbrev capBits (s : State) : Nat := 8 * dataCwNow s

/-- The value of a CSR, zero-extended to 32 bits (R24). -/
def csrRead (s : State) : Csr → Word
  | .status => statusWord s
  | .errcmd => s.errcmd
  | .cmdcnt => s.cmdcnt
  | .ver => s.ver.setWidth 32
  | .ecl => s.ecl.setWidth 32
  | .size => s.size.setWidth 32
  | .phase => s.phase.setWidth 32
  | .mask => s.mask.setWidth 32
  | .bblen => BitVec.ofNat 32 (bbLen s)
  | .totbits => s.totbits.setWidth 32
  | .dlen => s.dlen.setWidth 32
  | .flen => s.flen.setWidth 32
  | .pen => s.pen
  | .bstage => s.bstage.setWidth 32
  | .penv k => s.penv[k.val]
  | .fmt => s.fmt.setWidth 32
  | .vinf => s.vinf.setWidth 32
  | .plen k => BitVec.ofNat 32 (pLen s k)
  | .datacw => BitVec.ofNat 32 (dataCwNow s)
  | .totcw => BitVec.ofNat 32 (totalCwNow s)
  | .nblk => BitVec.ofNat 32 (nblk s.ver.toNat (level s))
  | .eccpb => BitVec.ofNat 32 (eccPerBlock s.ver.toNat (level s))

end Sys2Proof.Machine
end

