-- ==== Sys2Proof/Machine/Gf.lean ====
section
/-! DEFINITION. The GF unit (40_gf256.md): the pure functions of R106 and the commands GFADD, GFMUL, GFDIV, GFPOW, GFEXP,
GFLOG (R100 to R105, R109). -/

namespace Sys2Proof.Machine

/-! ### Pure functions (R106) -/

/-- `gf_add(a, b) = a xor b`. -/
def gfAdd (a b : Byte) : Byte := a ^^^ b

/-- `gf_mul(a, b)`: 0 where an operand is 0 (it has no logarithm), else `EXP[(LOG[a] + LOG[b]) mod 255]`. -/
def gfMul (a b : Byte) : Byte :=
  match romLog a, romLog b with
  | some i, some j => romExp ((i + j) % 255)
  | _, _ => 0

/-- `gf_div(a, b)`: ArithmeticError for `b = 0`, 0 for `a = 0`, else `EXP[(LOG[a] - LOG[b] + 255) mod 255]`. -/
def gfDiv (a b : Byte) : Except ErrCode Byte :=
  match romLog b with
  | none => .error .arithmeticError
  | some j =>
    match romLog a with
    | none => .ok 0
    | some i => .ok (romExp ((i + 255 - j) % 255))

/-- `gf_pow(a, n)`: 1 for `n = 0`, 0 for `a = 0`, else `EXP[(LOG[a] * n) mod 255]` with the exact product. -/
def gfPow (a : Byte) (n : Nat) : Byte :=
  if n = 0 then 1
  else match romLog a with
    | none => 0
    | some i => romExp (i * n % 255)

/-! ### Commands -/

/-- GFADD `xd, xa, xb` (R100). -/
def execGfadd (rd rs1 rs2 : XReg) (s : State) : Host.Outcome State Fault Refusal :=
  runCommand (.gfadd rd rs1 rs2) s do
    let a ← fieldElement s rs1
    let b ← fieldElement s rs2
    .ok (writeX s rd (gfAdd a b).zext)

/-- GFMUL `xd, xa, xb` (R101). -/
def execGfmul (rd rs1 rs2 : XReg) (s : State) : Host.Outcome State Fault Refusal :=
  runCommand (.gfmul rd rs1 rs2) s do
    let a ← fieldElement s rs1
    let b ← fieldElement s rs2
    .ok (writeX s rd (gfMul a b).zext)

/-- GFDIV `xd, xa, xb` (R102): the divisor 0 faults whatever the dividend. -/
def execGfdiv (rd rs1 rs2 : XReg) (s : State) : Host.Outcome State Fault Refusal :=
  runCommand (.gfdiv rd rs1 rs2) s do
    let a ← fieldElement s rs1
    let b ← fieldElement s rs2
    let q ← gfDiv a b
    .ok (writeX s rd q.zext)

/-- GFPOW `xd, xa, xn` (R103): the exponent is the full 32-bit value. -/
def execGfpow (rd rs1 rs2 : XReg) (s : State) : Host.Outcome State Fault Refusal :=
  runCommand (.gfpow rd rs1 rs2) s do
    let a ← fieldElement s rs1
    .ok (writeX s rd (gfPow a (readX s rs2).toNat).zext)

/-- GFEXP `xd, xi` (R104): the index is not reduced. -/
def execGfexp (rd rs1 : XReg) (s : State) : Host.Outcome State Fault Refusal :=
  runCommand (.gfexp rd rs1) s do
    let i ← natUpTo s rs1 254
    .ok (writeX s rd (romExp i).zext)

/-- GFLOG `xd, xa` (R105): 0 has no logarithm. -/
def execGflog (rd rs1 : XReg) (s : State) : Host.Outcome State Fault Refusal :=
  runCommand (.gflog rd rs1) s do
    let a ← fieldElement s rs1
    match romLog a with
    | some i => .ok (writeX s rd (BitVec.ofNat 32 i))
    | none => .error .arithmeticError

end Sys2Proof.Machine
end

