-- ==== Sys2Proof/Machine/Poly.lean ====
section
/-! DEFINITION. The polynomial unit (41_polynomial.md): the pure functions of R128 on coefficient lists, highest degree
first and never normalised (R129), and the commands PLD, PST, PMOV, PDEG, PADD, PMUL, PSCL, PEVAL (R120 to R127, R130). -/

namespace Sys2Proof.Machine

/-! ### Pure functions (R128) -/

/-- `zeros(n)` (00_scope.md R9). -/
def zeros (n : Nat) : List Byte := List.replicate n 0

/-- `poly_add(a, b)`: the shorter operand is padded with leading zeros. -/
def polyAdd (a b : List Byte) : List Byte :=
  let n := max a.length b.length
  List.zipWith gfAdd (zeros (n - a.length) ++ a) (zeros (n - b.length) ++ b)

/-- `r[i] <- gf_add(r[i], v)`. -/
def addAt (r : List Byte) (i : Nat) (v : Byte) : List Byte := r.set i (gfAdd (r.getD i 0) v)

/-- `poly_mul(a, b)`: the convolution, as the double loop of R128. -/
def polyMul (a b : List Byte) : List Byte :=
  (List.range a.length).foldl
    (fun r i => (List.range b.length).foldl (fun r j => addAt r (i + j) (gfMul (a.getD i 0) (b.getD j 0))) r)
    (zeros (a.length + b.length - 1))

/-- `poly_scale(a, s)`. -/
def polyScale (a : List Byte) (s : Byte) : List Byte := a.map fun c => gfMul c s

/-- `poly_eval(a, t)`, by Horner's rule. -/
def polyEval (a : List Byte) (t : Byte) : Byte := a.foldl (fun acc c => gfAdd (gfMul acc t) c) 0

/-! ### Commands -/

/-- PLD `pd, SPACE, xa, xn` (R120): every address is checked before a byte moves. -/
def execPld (pd : PReg) (sp : Space) (rs1 rs2 : XReg) (s : State) : Host.Outcome State Fault Refusal :=
  runCommand (.pld pd sp rs1 rs2) s do
    let limit ← ramLimit sp
    let a := (readX s rs1).toNat
    let n := (readX s rs2).toNat
    require (1 ≤ n ∧ n ≤ Config.pMax) .rangeError
    requireRun a n limit
    .ok (writeP s pd ((ram s sp).readAll a n))

/-- PST `pa, SPACE, xa` (R121): all `PLEN[pa]` bytes, or none. -/
def execPst (pa : PReg) (sp : Space) (rs1 : XReg) (s : State) : Host.Outcome State Fault Refusal :=
  runCommand (.pst pa sp rs1) s do
    let limit ← ramLimit sp
    let a := (readX s rs1).toNat
    requireRun a (pLen s pa) limit
    .ok (setRam s sp ((ram s sp).writeAll a (readP s pa)))

/-- PMOV `pd, pa` (R122). -/
def execPmov (pd pa : PReg) (s : State) : Host.Outcome State Fault Refusal :=
  runCommand (.pmov pd pa) s (.ok (writeP s pd (readP s pa)))

/-- PDEG `xd, pa` (R123): length minus one. -/
def execPdeg (rd : XReg) (pa : PReg) (s : State) : Host.Outcome State Fault Refusal :=
  runCommand (.pdeg rd pa) s (.ok (writeX s rd (BitVec.ofNat 32 (pLen s pa - 1))))

/-- PADD `pd, pa, pb` (R124). -/
def execPadd (pd pa pb : PReg) (s : State) : Host.Outcome State Fault Refusal :=
  runCommand (.padd pd pa pb) s (.ok (writeP s pd (polyAdd (readP s pa) (readP s pb))))

/-- PMUL `pd, pa, pb` (R125). -/
def execPmul (pd pa pb : PReg) (s : State) : Host.Outcome State Fault Refusal :=
  runCommand (.pmul pd pa pb) s do
    require (pLen s pa + pLen s pb - 1 ≤ Config.pMax) .rangeError
    .ok (writeP s pd (polyMul (readP s pa) (readP s pb)))

/-- PSCL `pd, pa, xs` (R126). -/
def execPscl (pd pa : PReg) (rs1 : XReg) (s : State) : Host.Outcome State Fault Refusal :=
  runCommand (.pscl pd pa rs1) s do
    let c ← fieldElement s rs1
    .ok (writeP s pd (polyScale (readP s pa) c))

/-- PEVAL `xd, pa, xs` (R127). -/
def execPeval (rd : XReg) (pa : PReg) (rs1 : XReg) (s : State) : Host.Outcome State Fault Refusal :=
  runCommand (.peval rd pa rs1) s do
    let t ← fieldElement s rs1
    .ok (writeX s rd (polyEval (readP s pa) t).zext)

end Sys2Proof.Machine
end

