-- ==== Sys2Proof/Machine/ReedSolomon.lean ====
section
/-! DEFINITION. The Reed-Solomon unit (42_reed_solomon.md): generator polynomials R144, remainders R145, the block split
R146 and the interleaving R147, and the commands RSGEN, RSREM, RSENC, RSSYN (R140 to R143, R148). -/

namespace Sys2Proof.Machine

/-! ### Pure functions -/

/-- `rs_gen(degree)` (R144). -/
def rsGen (n : Nat) : List Byte := (List.range n).foldl (fun g i => polyMul g [1, romExp i]) [1]

/-- The inner loop of R145: `w[i+j] <- gf_add(w[i+j], gf_mul(g[j], f))` for every `j`. -/
def subtractMultiple (g w : List Byte) (i : Nat) (f : Byte) : List Byte :=
  (List.range g.length).foldl (fun w j => addAt w (i + j) (gfMul (g.getD j 0) f)) w

/-- One round of the long division of R145, at position `i` of the working polynomial `w`. -/
def divisionRound (g w : List Byte) (i : Nat) : Except ErrCode (List Byte) :=
  if w.getD i 0 = 0 then .ok w
  else do
    let f ← gfDiv (w.getD i 0) (g.getD 0 0)
    .ok (subtractMultiple g w i f)

/-- `rs_rem(d, g)` (R145): the last `len(g) - 1` entries of the working polynomial, leading zeros kept. -/
def rsRem (d g : List Byte) : Except ErrCode (List Byte) := do
  let w ← (List.range d.length).foldlM (divisionRound g) (d ++ zeros (g.length - 1))
  .ok (w.drop d.length)

/-- `len(b)`, the data codewords of block `b` of `B` blocks over `D` codewords (R146). -/
def blockLen (D B b : Nat) : Nat := D / B + if b ≥ B - D % B then 1 else 0

/-- `off(b)`, the index of block `b`'s first codeword (R146). -/
def blockOff (D B b : Nat) : Nat := b * (D / B) + (b - (B - D % B))

/-- The data codewords split into `B` blocks (R146). -/
def splitBlocks (data : List Byte) (B : Nat) : List (List Byte) :=
  (List.range B).map fun b => (data.drop (blockOff data.length B b)).take (blockLen data.length B b)

/-- Round-robin over the blocks for `n` rounds; a block that has run out is skipped (R147). -/
def roundRobin (blocks : List (List Byte)) (n : Nat) : List Byte :=
  (List.range n).flatMap fun i => blocks.filterMap fun b => b[i]?

/-- The interleaved codeword stream of `B` blocks with `E` ECC codewords each (R147). -/
def interleaved (data : List Byte) (B E : Nat) : Except ErrCode (List Byte) := do
  let blocks := splitBlocks data B
  let eccs ← blocks.mapM fun b => rsRem b (rsGen E)
  .ok (roundRobin blocks (data.length / B + 1) ++ roundRobin eccs E)

/-- The values of a codeword polynomial at the roots `2^0` .. `2^(n-1)` (R143). -/
def syndromes (c : List Byte) (n : Nat) : List Byte := (List.range n).map fun i => polyEval c (romExp i)

/-! ### Commands -/

/-- RSGEN `pd, xn` (R140). -/
def execRsgen (pd : PReg) (rs1 : XReg) (s : State) : Host.Outcome State Fault Refusal :=
  runCommand (.rsgen pd rs1) s do
    let n ← degree s rs1
    .ok (writeP s pd (rsGen n))

/-- RSREM `pd, pa, pb` (R141). -/
def execRsrem (pd pa pb : PReg) (s : State) : Host.Outcome State Fault Refusal :=
  runCommand (.rsrem pd pa pb) s do
    require (pLen s pb ≥ 2) .rangeError
    require (pLen s pa + pLen s pb - 1 ≤ Config.pMax) .rangeError
    require ((readP s pb).getD 0 0 ≠ 0) .arithmeticError
    let e ← rsRem (readP s pa) (readP s pb)
    .ok (writeP s pd e)

/-- RSENC (R142). -/
def execRsenc (s : State) : Host.Outcome State Fault Refusal :=
  runCommand .rsenc s do
    requireVersion s
    require (s.dlen.toNat = dataCwNow s) .sequenceError
    let data := s.dcw.readAll 0 s.dlen.toNat
    let out ← interleaved data (nblk s.ver.toNat (level s)) (eccPerBlock s.ver.toNat (level s))
    .ok { s with fcw := s.fcw.writeAll 0 out, flen := BitVec.ofNat 13 (totalCwNow s) }

/-- RSSYN `xd, pd, pa, xn` (R143). -/
def execRssyn (rd : XReg) (pd pa : PReg) (rs1 : XReg) (s : State) : Host.Outcome State Fault Refusal :=
  runCommand (.rssyn rd pd pa rs1) s do
    let n ← degree s rs1
    let syn := syndromes (readP s pa) n
    .ok (writeX (writeP s pd syn) rd (BitVec.ofNat 32 (syn.filter (· ≠ 0)).length))

end Sys2Proof.Machine
end

