-- ==== Sys2Proof/Machine/Packer.lean ====
section
/-! DEFINITION. The bitstream packer (43_bitstream.md): the payloads of R162 to R165 and the commands BAPP, BSEG, BTERM,
BALIGN, BPAD, BFLUSH (R160, R161, R166 to R169, R171 to R173). -/

namespace Sys2Proof.Machine

/-! ### Payloads -/

/-- The decimal value of a digit character (R162). -/
def digitValue (ch : Byte) : Nat := ch.toNat - 0x30

/-- `numeric_payload(ch)` (R162): groups of 3 digits in 10 bits, then 2 in 7 or 1 in 4. -/
def numericPayload : List Byte → List Bool
  | d0 :: d1 :: d2 :: rest =>
    bitsOf (100 * digitValue d0 + 10 * digitValue d1 + digitValue d2) 10 ++ numericPayload rest
  | [d0, d1] => bitsOf (10 * digitValue d0 + digitValue d1) 7
  | [d0] => bitsOf (digitValue d0) 4
  | [] => []

/-- The value of a character of the alphanumeric table; BSEG has checked that it is in it (R161, R163). -/
def alnumOf (ch : Byte) : Nat := (alnumValue ch).getD 0

/-- `alnum_payload(ch)` (R163): pairs in 11 bits, a trailing character in 6. -/
def alnumPayload : List Byte → List Bool
  | c0 :: c1 :: rest => bitsOf (45 * alnumOf c0 + alnumOf c1) 11 ++ alnumPayload rest
  | [c0] => bitsOf (alnumOf c0) 6
  | [] => []

/-- `byte_payload(ch)` (R164): every byte verbatim. -/
def bytePayload (ch : List Byte) : List Bool := ch.flatMap fun b => bitsOf b.toNat 8

/-- The payload of a segment; Kanji has none (R3, R161). -/
def payload : Mode → List Byte → List Bool
  | .numeric, ch => numericPayload ch
  | .alphanumeric, ch => alnumPayload ch
  | .byte, ch => bytePayload ch
  | .kanji, _ => []

/-- `payload_bits(mode, n)` (R165). -/
def payloadBits : Mode → Nat → Nat
  | .numeric, n => 10 * (n / 3) + (if n % 3 = 0 then 0 else if n % 3 = 1 then 4 else 7)
  | .alphanumeric, n => 11 * (n / 2) + 6 * (n % 2)
  | .byte, n => 8 * n
  | .kanji, _ => 0

/-- The mode can carry the character (R161). -/
def carries : Mode → Byte → Bool
  | .numeric, ch => 0x30 ≤ ch.toNat && ch.toNat ≤ 0x39
  | .alphanumeric, ch => (alnumValue ch).isSome
  | .byte, _ => true
  | .kanji, _ => false

/-- Codeword `k` of a bit sequence: MSB first, zero-padded on the final partial byte (R169). -/
def codewordAt (bs : List Bool) (k : Nat) : Byte :=
  BitVec.ofNat 8 (((bs.drop (8 * k)).take 8 ++ List.replicate (8 * k + 8 - bs.length) false).take 8
    |>.foldl (fun acc b => 2 * acc + b.toNat) 0)

/-- The bit sequence as `ceil(len / 8)` codewords (R169). -/
def codewords (bs : List Bool) : List Byte := (List.range ((bs.length + 7) / 8)).map (codewordAt bs)

/-- The alternating pad codewords 0xEC, 0x11, `n` of them, as bits (R168). -/
def padBits (n : Nat) : List Bool :=
  (List.range n).flatMap fun k => bitsOf (if k % 2 = 0 then 0xEC else 0x11) 8

/-! ### Commands -/

/-- BAPP `xv, xn` (R160). -/
def execBapp (rs1 rs2 : XReg) (s : State) : Host.Outcome State Fault Refusal :=
  runCommand (.bapp rs1 rs2) s do
    requireStage s 0
    let v := (readX s rs1).toNat
    let n ← natUpTo s rs2 32
    require (n = 32 ∨ v < 2 ^ n) .rangeError
    requireRoom s n
    .ok (appendBits s (bitsOf v n))

/-- BSEG `MODE, xa, xn` (R161), with its checks in the order given there. -/
def execBseg (m : Mode) (rs1 rs2 : XReg) (s : State) : Host.Outcome State Fault Refusal :=
  runCommand (.bseg m rs1 rs2) s do
    requireVersion s
    requireStage s 0
    require (m ≠ .kanji) .invalidOption
    let a := (readX s rs1).toNat
    let n := (readX s rs2).toNat
    require (n ≥ 1) .invalidInput
    requireRun a n Config.inSize
    let cc := ccBits m s.ver.toNat
    require (n < 2 ^ cc) .capacityExceeded
    let ch := s.inp.readAll a n
    require (ch.all (carries m)) .invalidInput
    requireRoom s (4 + cc + payloadBits m n)
    .ok (appendBits s (bitsOf m.number 4 ++ bitsOf n cc ++ payload m ch))

/-- BTERM (R166). -/
def execBterm (s : State) : Host.Outcome State Fault Refusal :=
  runCommand .bterm s do
    requireVersion s
    requireStage s 0
    require (bbLen s ≥ 1) .invalidInput
    require (bbLen s ≤ capBits s) .capacityExceeded
    .ok { appendBits s (bitsOf 0 (min 4 (capBits s - bbLen s))) with
          totbits := BitVec.ofNat 15 (bbLen s), bstage := 1 }

/-- BALIGN (R167). -/
def execBalign (s : State) : Host.Outcome State Fault Refusal :=
  runCommand .balign s do
    requireStage s 1
    .ok { appendBits s (bitsOf 0 ((8 - bbLen s % 8) % 8)) with bstage := 2 }

/-- BPAD (R168): a pad codeword adds one to `BBLEN div 8`, so the loop runs `D - BBLEN div 8` times. -/
def execBpad (s : State) : Host.Outcome State Fault Refusal :=
  runCommand .bpad s do
    requireStage s 2
    .ok { appendBits s (padBits (dataCwNow s - bbLen s / 8)) with bstage := 3 }

/-- BFLUSH (R169): allowed in every stage; the buffer is not changed. -/
def execBflush (s : State) : Host.Outcome State Fault Refusal :=
  runCommand .bflush s
    (.ok { s with dcw := s.dcw.writeAll 0 (codewords s.bb), dlen := BitVec.ofNat 13 ((bbLen s + 7) / 8) })

end Sys2Proof.Machine
end

