-- ==== Sys2Proof/Machine/Matrix.lean ====
section
/-! DEFINITION. The matrix engine's function patterns (44_matrix_patterns.md): the cells each pattern writes, the
information cells of 46_information.md R223 and R225, and the commands MINIT, MFIND, MTIME, MALIGN, MRSV (R180 to R183,
R185, R188, R189). `S` is the matrix side. -/

namespace Sys2Proof.Machine

/-! ### Cells -/

/-- The integers `lo`, `lo + 1`, …, `lo + n - 1`: the index of a `for` over a range that starts below 0. -/
def intRange (lo : Int) (n : Nat) : List Int := (List.range n).map fun k : Nat => lo + (k : Int)

/-- The cell `(r, c)` with its colour, where it lies in the matrix (R181: clipped at the matrix edge). -/
def inMatrix (S : Nat) (r c : Int) (v : Colour) : Option ((Nat × Nat) × Colour) :=
  if 0 ≤ r ∧ r < S ∧ 0 ≤ c ∧ c < S then some ((r.toNat, c.toNat), v) else none

/-- The ring number `max(|dr|, |dc|)` of a cell around a centre. -/
def ring (dr dc : Int) : Nat := max dr.natAbs dc.natAbs

/-- The finder pattern with its separator, origin `(r0, c0)` (R181). -/
def finderAt (S r0 c0 : Nat) : List ((Nat × Nat) × Colour) :=
  (intRange (-1) 9).flatMap fun dr => (intRange (-1) 9).filterMap fun dc =>
    inMatrix S (r0 + dr) (c0 + dc)
      (if 0 ≤ dr ∧ dr ≤ 6 ∧ 0 ≤ dc ∧ dc ≤ 6 then (if ring (dr - 3) (dc - 3) = 2 then .light else .dark)
       else .light)

/-- The three finder patterns (R181). -/
def finderCells (S : Nat) : List ((Nat × Nat) × Colour) :=
  [(0, 0), (0, S - 7), (S - 7, 0)].flatMap fun o => finderAt S o.1 o.2

/-- The two timing patterns, `i` in 8 .. S-9 (R182). -/
def timingCells (S : Nat) : List ((Nat × Nat) × Colour) :=
  (List.range (S - 16)).flatMap fun k =>
    let i := 8 + k
    let v : Colour := if i % 2 = 0 then .dark else .light
    [((6, i), v), ((i, 6), v)]

/-- `zone(r, c)`: the three 8 by 8 finder corners (R183). -/
def inFinderZone (S : Nat) (r c : Int) : Bool :=
  (r ≤ 7 && c ≤ 7) || (r ≤ 7 && c ≥ (S : Int) - 8) || (r ≥ (S : Int) - 8 && c ≤ 7)

/-- The alignment pattern centred at `(a, b)`, empty where it would overlap a finder pattern (R183). -/
def alignmentAt (S a b : Nat) : List ((Nat × Nat) × Colour) :=
  if (intRange (-2) 5).all fun dr => (intRange (-2) 5).all fun dc => !inFinderZone S (a + dr) (b + dc) then
    (intRange (-2) 5).flatMap fun dr => (intRange (-2) 5).filterMap fun dc =>
      inMatrix S (a + dr) (b + dc) (if ring dr dc = 1 then .light else .dark)
  else []

/-- The alignment patterns of a version (R183, R184). -/
def alignmentCells (S v : Nat) : List ((Nat × Nat) × Colour) :=
  (alignPos v).flatMap fun a => (alignPos v).flatMap fun b => alignmentAt S a b

/-- `FMT1(i)`, `i` in 0..14: the cell of format bit `i`, copy 1 (46_information.md R223). -/
def fmt1 (i : Nat) : Nat × Nat :=
  if i ≤ 5 then (i, 8) else if i = 6 then (7, 8) else if i = 7 then (8, 8) else if i = 8 then (8, 7)
  else (8, 14 - i)

/-- `FMT2(i)`, `i` in 0..14: the cell of format bit `i`, copy 2 (R223). -/
def fmt2 (S i : Nat) : Nat × Nat := if i ≤ 7 then (8, S - 1 - i) else (S - 15 + i, 8)

/-- `VER_TR(i)`, `i` in 0..17: the cell of version bit `i`, top-right block (R225). -/
def verTr (S i : Nat) : Nat × Nat := (i / 3, S - 11 + i % 3)

/-- `VER_BL(i)`, `i` in 0..17: the cell of version bit `i`, bottom-left block (R225). -/
def verBl (S i : Nat) : Nat × Nat := (S - 11 + i % 3, i / 3)

/-- The 30 format cells (R185, R223). -/
def formatCells (S : Nat) : List (Nat × Nat) := (List.range 15).flatMap fun i => [fmt1 i, fmt2 S i]

/-- The 36 version cells, of versions 7 and up only (R185, R225). -/
def versionCells (S v : Nat) : List (Nat × Nat) :=
  if v ≥ 7 then (List.range 18).flatMap fun i => [verTr S i, verBl S i] else []

/-! ### Commands -/

/-- The matrix side of a version, `4*VER + 17` (R180). -/
def sideOf (v : Nat) : Nat := 4 * v + 17

/-- The empty matrix of side `S`: every cell Unset, none reserved (R180). -/
def emptyGrid (S : Nat) : Grid := List.replicate S (List.replicate S ⟨.unset, false⟩)

/-- MINIT (R180). -/
def execMinit (s : State) : Host.Outcome State Fault Refusal :=
  runCommand .minit s do
    requireVersion s
    requirePhase s 0
    let S := sideOf s.ver.toNat
    .ok { s with size := BitVec.ofNat 8 S, mat := emptyGrid S, mask := 0, phase := 1 }

/-- MFIND (R181). -/
def execMfind (s : State) : Host.Outcome State Fault Refusal :=
  runCommand .mfind s do
    requirePhase s 1
    .ok { s with mat := s.mat.setfAll (finderCells s.size.toNat), phase := 2 }

/-- MTIME (R182). -/
def execMtime (s : State) : Host.Outcome State Fault Refusal :=
  runCommand .mtime s do
    requirePhase s 2
    .ok { s with mat := s.mat.setfAll (timingCells s.size.toNat), phase := 3 }

/-- MALIGN (R183); at version 1 it places nothing and still advances the phase (R188). -/
def execMalign (s : State) : Host.Outcome State Fault Refusal :=
  runCommand .malign s do
    requirePhase s 3
    .ok { s with mat := s.mat.setfAll (alignmentCells s.size.toNat s.ver.toNat), phase := 4 }

/-- MRSV (R185): the format strips, the dark module, the version blocks from version 7 on. -/
def execMrsv (s : State) : Host.Outcome State Fault Refusal :=
  runCommand .mrsv s do
    requirePhase s 4
    let S := s.size.toNat
    let g := (s.mat.reserveAll (formatCells S)).setf (S - 8, 8) .dark
    .ok { s with mat := g.reserveAll (versionCells S s.ver.toNat), phase := 5 }

end Sys2Proof.Machine
end

