-- ==== Sys2Proof/Machine/DataMask.lean ====
section
/-! DEFINITION. The matrix engine's data placement, masks and penalty (45_matrix_data_mask.md): the scan order R201, the
masks R202 and R204, the penalty R205 to R208 and R211, and the commands MDATA, MMASK, MPEN, MSEL (R200, R203, R209, R210,
R212). -/

namespace Sys2Proof.Machine

/-! ### Data placement (R201) -/

/-- The strips of the scan from the right-hand column `right` on, with their direction: `while right >= 1`, column 6
skipped. The first argument bounds the number of strips. -/
def stripsFrom : Nat → Nat → Bool → List (Nat × Bool)
  | 0, _, _ => []
  | fuel + 1, right, up =>
    if right ≥ 1 then
      let right' := if right = 6 then 5 else right
      (right', up) :: stripsFrom fuel (right' - 2) (!up)
    else []

/-- The cells of one strip: rows upward or downward, in a row the right cell first, unreserved cells only. -/
def stripCells (g : Grid) (S right : Nat) (up : Bool) : List (Nat × Nat) :=
  (if up then (List.range S).reverse else List.range S).flatMap fun r =>
    [(r, right), (r, right - 1)].filter fun rc => !(g.cell rc.1 rc.2).reserved

/-- `scan_order()`: the data cells in placement order. -/
def scanOrder (g : Grid) (S : Nat) : List (Nat × Nat) :=
  (stripsFrom S (S - 1) true).flatMap fun t => stripCells g S t.1 t.2

/-- The bits of the codeword stream: codeword 0 first, bit 7 of each first (R200). -/
def streamBits (cws : List Byte) : List Bool := cws.flatMap fun b => bitsOf b.toNat 8

/-- The colour of each cell of the scan: the stream's bits, then Light for the cells left over (R200). -/
def placements (order : List (Nat × Nat)) (bs : List Bool) : List ((Nat × Nat) × Colour) :=
  order.zip ((bs ++ List.replicate (order.length - bs.length) false).map colourOf)

/-! ### Masks -/

/-- `cond(k, r, c)` (R204), `k` a mask id 0..7. -/
def maskCond (k r c : Nat) : Bool :=
  match k with
  | 0 => (r + c) % 2 = 0
  | 1 => r % 2 = 0
  | 2 => c % 3 = 0
  | 3 => (r + c) % 3 = 0
  | 4 => (r / 2 + c / 3) % 2 = 0
  | 5 => (r * c) % 2 + (r * c) % 3 = 0
  | 6 => ((r * c) % 2 + (r * c) % 3) % 2 = 0
  | 7 => ((r + c) % 2 + (r * c) % 3) % 2 = 0
  | _ => false

/-- The inverted cell: `Light if G[r][c] = Dark else Dark` (R202). -/
def MatCell.invert (m : MatCell) : MatCell := { m with colour := if m.colour = .dark then .light else .dark }

/-- `apply_mask(G, k)` (R202): reserved cells are never touched. -/
def applyMask (g : Grid) (k : Nat) : Grid :=
  g.mapIdx fun r row => row.mapIdx fun c m => if !m.reserved && maskCond k r c then m.invert else m

/-! ### Penalty (R205) -/

/-- `g[r][c]`: true where the cell is Dark; Light and Unset count as light (R205). -/
def darkRows (g : Grid) : List (List Bool) := g.map fun row => row.map fun m => m.colour = .dark

/-- The columns, read top to bottom, of `S` columns. -/
def columnsOf (S : Nat) (rows : List (List Bool)) : List (List Bool) :=
  (List.range S).map fun c => rows.map fun row => row.getD c false

/-- The `2*S` lines: the rows left to right, then the columns top to bottom (R205). -/
def linesOf (S : Nat) (rows : List (List Bool)) : List (List Bool) := rows ++ columnsOf S rows

/-- The lengths of the maximal runs that follow a run of `n` values `b` (R206). -/
def runsFrom (b : Bool) (n : Nat) : List Bool → List Nat
  | [] => [n]
  | y :: ys => if y = b then runsFrom b (n + 1) ys else n :: runsFrom y 1 ys

/-- The lengths of the maximal runs of a line (R206). -/
def runLengths : List Bool → List Nat
  | [] => []
  | y :: ys => runsFrom y 1 ys

/-- The score of a line under rule (a): `L - 2` for every run of length `L >= 5` (R206). -/
def runScore (line : List Bool) : Nat := ((runLengths line).map fun n => if n ≥ 5 then n - 2 else 0).sum

/-- `Na(G)` (R206). -/
def penaltyA (ls : List (List Bool)) : Nat := (ls.map runScore).sum

/-- The 2 by 2 blocks of equal modules in two neighbouring rows, overlapping ones too (R207). -/
def equalBlocks : List Bool → List Bool → Nat
  | a :: b :: upper, c :: d :: lower =>
    (if a = b ∧ a = c ∧ a = d then 1 else 0) + equalBlocks (b :: upper) (d :: lower)
  | _, _ => 0

/-- The 2 by 2 blocks of equal modules of a grid (R207). -/
def blockCount : List (List Bool) → Nat
  | upper :: lower :: rows => equalBlocks upper lower + blockCount (lower :: rows)
  | _ => 0

/-- `Nb(G)` (R207). -/
def penaltyB (rows : List (List Bool)) : Nat := 3 * blockCount rows

/-- The finder-like pattern dark, light, dark, dark, dark, light, dark (R208). -/
def finderLike : List Bool := [true, false, true, true, true, false, true]

/-- The windows of a line that hold the finder-like pattern, overlapping ones too (R208). -/
def finderWindows : List Bool → Nat
  | [] => 0
  | y :: ys => (if finderLike.isPrefixOf (y :: ys) then 1 else 0) + finderWindows ys

/-- `Nc(G)` (R208). -/
def penaltyC (ls : List (List Bool)) : Nat := 40 * (ls.map finderWindows).sum

/-- `Nd(G)` (R211), with `|20*dark - 10*total|` on natural numbers. -/
def penaltyD (S : Nat) (rows : List (List Bool)) : Nat :=
  let dark := (rows.map fun row => row.count true).sum
  let total := S * S
  10 * (((20 * dark - 10 * total) + (10 * total - 20 * dark)) / total)

/-- `pen(G)` (R205) of a grid of side `S`. -/
def penalty (S : Nat) (g : Grid) : Nat :=
  let rows := darkRows g
  let ls := linesOf S rows
  penaltyA ls + penaltyB rows + penaltyC ls + penaltyD S rows

/-- The eight candidate penalties of MSEL (R210). -/
def maskPenalties (S : Nat) (g : Grid) : List Nat := (List.range 8).map fun k => penalty S (applyMask g k)

/-- The smallest index of the least entry (R210: when two masks tie, the lower id wins). -/
def bestMask (ps : List Nat) : Nat := ps.idxOf (ps.foldl min (ps.headD 0))

/-! ### Commands -/

/-- MDATA (R200): `RSV` is not changed. -/
def execMdata (s : State) : Host.Outcome State Fault Refusal :=
  runCommand .mdata s do
    requirePhase s 5
    require (s.flen.toNat = totalCwNow s) .sequenceError
    let order := scanOrder s.mat s.size.toNat
    let bs := streamBits (s.fcw.readAll 0 s.flen.toNat)
    .ok { s with mat := s.mat.paintAll (placements order bs), phase := 6 }

/-- MMASK `xs` (R203). -/
def execMmask (rs1 : XReg) (s : State) : Host.Outcome State Fault Refusal :=
  runCommand (.mmask rs1) s do
    requirePhase s 6
    let k := (readX s rs1).toNat
    require (k ≤ 7) .invalidOption
    .ok { s with mat := applyMask s.mat k, mask := BitVec.ofNat 4 (8 + k), phase := 7 }

/-- MPEN `xd` (R209): the matrix and `PHASE` are not changed. -/
def execMpen (rd : XReg) (s : State) : Host.Outcome State Fault Refusal :=
  runCommand (.mpen rd) s do
    require (s.phase.toNat ≥ 6) .sequenceError
    let v : Word := BitVec.ofNat 32 (penalty s.size.toNat s.mat)
    .ok { writeX s rd v with pen := v }

/-- MSEL (R210). -/
def execMsel (s : State) : Host.Outcome State Fault Refusal :=
  runCommand .msel s do
    requirePhase s 6
    let ps := maskPenalties s.size.toNat s.mat
    let best := bestMask ps
    .ok { s with
          penv := Vector.ofFn fun k => BitVec.ofNat 32 (ps.getD k.val 0)
          pen := BitVec.ofNat 32 (ps.getD best 0)
          mat := applyMask s.mat best
          mask := BitVec.ofNat 4 (8 + best)
          phase := 7 }

end Sys2Proof.Machine
end

