-- ==== Sys2Proof/Machine/Information.lean ====
section
/-! DEFINITION. The information placer (46_information.md): the two BCH codes (R226, R227) and the commands BCHF, BCHV,
IFMT, IVER (R220, R221, R222, R224, R228). -/

namespace Sys2Proof.Machine

/-- One step of the binary long division of R226 and R227: where bit `i` is 1, the generator, whose leading bit is bit
`deg`, is subtracted at bit `i`. -/
def bchStep (gen deg rem i : Nat) : Nat := if rem.testBit i then rem ^^^ (gen * 2 ^ (i - deg)) else rem

/-- `bch_fmt(d)`, `d` in 0..31 (R226). -/
def bchFmt (d : Nat) : Nat :=
  let rem := [14, 13, 12, 11, 10].foldl (bchStep 0x537 10) (d * 2 ^ 10)
  (d * 2 ^ 10 + rem) ^^^ 0x5412

/-- `bch_ver(d)`, `d` in 0..63 (R227). -/
def bchVer (d : Nat) : Nat :=
  let rem := [17, 16, 15, 14, 13, 12].foldl (bchStep 0x1F25 12) (d * 2 ^ 12)
  d * 2 ^ 12 + rem

/-- The format word's bits at their cells, both copies (R222, R223). -/
def formatWrites (S w : Nat) : List ((Nat × Nat) × Colour) :=
  (List.range 15).flatMap fun i => [(fmt1 i, colourOf (w.testBit i)), (fmt2 S i, colourOf (w.testBit i))]

/-- The version word's bits at their cells, both copies (R224, R225). -/
def versionWrites (S w : Nat) : List ((Nat × Nat) × Colour) :=
  (List.range 18).flatMap fun i => [(verTr S i, colourOf (w.testBit i)), (verBl S i, colourOf (w.testBit i))]

/-- The format word of the state's level and mask: `bch_fmt(8 * ECL + MASK[2:0])` (R222). -/
def formatWord (s : State) : Nat := bchFmt (8 * s.ecl.toNat + s.mask.toNat % 8)

/-- IFMT (R222): `RSV` stays 1. -/
def execIfmt (s : State) : Host.Outcome State Fault Refusal :=
  runCommand .ifmt s do
    requirePhase s 7
    let w := formatWord s
    .ok { s with mat := s.mat.paintAll (formatWrites s.size.toNat w), fmt := BitVec.ofNat 15 w, phase := 8 }

/-- IVER (R224): below version 7 nothing is placed and `VINF` is 0. -/
def execIver (s : State) : Host.Outcome State Fault Refusal :=
  runCommand .iver s do
    requirePhase s 8
    if s.ver.toNat ≥ 7 then
      let w := bchVer s.ver.toNat
      .ok { s with mat := s.mat.paintAll (versionWrites s.size.toNat w), vinf := BitVec.ofNat 18 w, phase := 9 }
    else
      .ok { s with vinf := 0, phase := 9 }

/-- BCHF `xd, xs` (R220). -/
def execBchf (rd rs1 : XReg) (s : State) : Host.Outcome State Fault Refusal :=
  runCommand (.bchf rd rs1) s do
    let d ← natUpTo s rs1 31
    .ok (writeX s rd (BitVec.ofNat 32 (bchFmt d)))

/-- BCHV `xd, xs` (R221). -/
def execBchv (rd rs1 : XReg) (s : State) : Host.Outcome State Fault Refusal :=
  runCommand (.bchv rd rs1) s do
    let d ← natUpTo s rs1 63
    .ok (writeX s rd (BitVec.ofNat 32 (bchVer d)))

end Sys2Proof.Machine
end

