-- ==== Sys2Proof/Machine/System.lean ====
section
/-! DEFINITION. The system commands (48_system_commands.md): NOP, HALT, CLEAR, LDI, MOV, LDB, STB, CSRR, CSRW (R260 to
R270). -/

namespace Sys2Proof.Machine

/-- NOP (R260). -/
def execNop (s : State) : Host.Outcome State Fault Refusal := runCommand .nop s (.ok s)

/-- HALT (R261). -/
def execHalt (s : State) : Host.Outcome State Fault Refusal := runCommand .halt s (.ok { s with halted := true })

/-- CLEAR (R262, R286). -/
def execClear (s : State) : Host.Outcome State Fault Refusal := runCommand .clear s (.ok (discardRun s))

/-- LDI `xd, imm` (R263): zero-extended. -/
def execLdi (rd : XReg) (imm : BitVec 16) (s : State) : Host.Outcome State Fault Refusal :=
  runCommand (.ldi rd imm) s (.ok (writeX s rd (imm.setWidth 32)))

/-- MOV `xd, xs` (R264): all 32 bits, no range check. -/
def execMov (rd rs1 : XReg) (s : State) : Host.Outcome State Fault Refusal :=
  runCommand (.mov rd rs1) s (.ok (writeX s rd (readX s rs1)))

/-- LDB `xd, SPACE, xa` (R265). -/
def execLdb (rd : XReg) (sp : Space) (rs1 : XReg) (s : State) : Host.Outcome State Fault Refusal :=
  runCommand (.ldb rd sp rs1) s do
    let v ← memRead s sp (readX s rs1).toNat
    .ok (writeX s rd v.zext)

/-- STB `SPACE, xa, xv` (R266): the address is checked first, then the value. -/
def execStb (sp : Space) (rs1 rs2 : XReg) (s : State) : Host.Outcome State Fault Refusal :=
  runCommand (.stb sp rs1 rs2) s do
    let limit ← ramLimit sp
    let a := (readX s rs1).toNat
    require (a < limit) .rangeError
    let v ← fieldElement s rs2
    memWrite s sp a v

/-- CSRR `xd, CSR` (R267): the value before this command's own count. -/
def execCsrr (rd : XReg) (csr : Csr) (s : State) : Host.Outcome State Fault Refusal :=
  runCommand (.csrr rd csr) s (.ok (writeX s rd (csrRead s csr)))

/-- The effect of `CSRW csr` with the value `v` (R268); every other CSR is illegal at decode (R90). -/
def csrWrite (s : State) (csr : Csr) (v : Nat) : Except ErrCode State :=
  match csr with
  | .ver => do
    require (writeWindow s) .sequenceError
    require (1 ≤ v ∧ v ≤ 40) .invalidOption
    .ok { s with ver := BitVec.ofNat 6 v }
  | .ecl => do
    require (writeWindow s) .sequenceError
    require (v ≤ 3) .invalidOption
    .ok { s with ecl := BitVec.ofNat 2 v }
  | .dlen => do
    require (v ≤ 4096) .rangeError
    .ok { s with dlen := BitVec.ofNat 13 v }
  | .flen => do
    require (v ≤ 4096) .rangeError
    .ok { s with flen := BitVec.ofNat 13 v }
  | .status | .errcmd | .cmdcnt | .size | .phase | .mask | .bblen | .totbits | .pen | .bstage | .penv _ | .fmt
  | .vinf | .plen _ | .datacw | .totcw | .nblk | .eccpb => .error .illegalCommand

/-- CSRW `CSR, xs` (R268, R269): the whole 32-bit value is tested. -/
def execCsrw (csr : Csr) (rs1 : XReg) (s : State) : Host.Outcome State Fault Refusal :=
  runCommand (.csrw csr rs1) s (csrWrite s csr (readX s rs1).toNat)

end Sys2Proof.Machine
end

