-- ==== Sys2Proof/Machine/Dispatch.lean ====
section
/-! DEFINITION. One arm per command: the meaning of each (the files of Machine/ by unit). -/

namespace Sys2Proof.Machine

/-- What a command does to the state, once decoded and not dropped. -/
def exec (i : Instr) (s : State) : Host.Outcome State Fault Refusal :=
  match i with
  -- GF unit
  | .gfadd rd rs1 rs2 => Sys2Proof.Machine.execGfadd rd rs1 rs2 s
  | .gfmul rd rs1 rs2 => Sys2Proof.Machine.execGfmul rd rs1 rs2 s
  | .gfdiv rd rs1 rs2 => Sys2Proof.Machine.execGfdiv rd rs1 rs2 s
  | .gfpow rd rs1 rs2 => Sys2Proof.Machine.execGfpow rd rs1 rs2 s
  | .gfexp rd rs1 => Sys2Proof.Machine.execGfexp rd rs1 s
  | .gflog rd rs1 => Sys2Proof.Machine.execGflog rd rs1 s
  -- polynomial unit
  | .pld pd sp rs1 rs2 => Sys2Proof.Machine.execPld pd sp rs1 rs2 s
  | .pst pa sp rs1 => Sys2Proof.Machine.execPst pa sp rs1 s
  | .pmov pd pa => Sys2Proof.Machine.execPmov pd pa s
  | .pdeg rd pa => Sys2Proof.Machine.execPdeg rd pa s
  | .padd pd pa pb => Sys2Proof.Machine.execPadd pd pa pb s
  | .pmul pd pa pb => Sys2Proof.Machine.execPmul pd pa pb s
  | .pscl pd pa rs1 => Sys2Proof.Machine.execPscl pd pa rs1 s
  | .peval rd pa rs1 => Sys2Proof.Machine.execPeval rd pa rs1 s
  -- Reed-Solomon unit
  | .rsgen pd rs1 => Sys2Proof.Machine.execRsgen pd rs1 s
  | .rsrem pd pa pb => Sys2Proof.Machine.execRsrem pd pa pb s
  | .rsenc => Sys2Proof.Machine.execRsenc s
  | .rssyn rd pd pa rs1 => Sys2Proof.Machine.execRssyn rd pd pa rs1 s
  -- bitstream packer
  | .bapp rs1 rs2 => Sys2Proof.Machine.execBapp rs1 rs2 s
  | .bseg mode rs1 rs2 => Sys2Proof.Machine.execBseg mode rs1 rs2 s
  | .bterm => Sys2Proof.Machine.execBterm s
  | .balign => Sys2Proof.Machine.execBalign s
  | .bpad => Sys2Proof.Machine.execBpad s
  | .bflush => Sys2Proof.Machine.execBflush s
  -- matrix engine
  | .minit => Sys2Proof.Machine.execMinit s
  | .mfind => Sys2Proof.Machine.execMfind s
  | .mtime => Sys2Proof.Machine.execMtime s
  | .malign => Sys2Proof.Machine.execMalign s
  | .mrsv => Sys2Proof.Machine.execMrsv s
  | .mdata => Sys2Proof.Machine.execMdata s
  | .mmask rs1 => Sys2Proof.Machine.execMmask rs1 s
  | .mpen rd => Sys2Proof.Machine.execMpen rd s
  | .msel => Sys2Proof.Machine.execMsel s
  -- information placer
  | .ifmt => Sys2Proof.Machine.execIfmt s
  | .iver => Sys2Proof.Machine.execIver s
  | .bchf rd rs1 => Sys2Proof.Machine.execBchf rd rs1 s
  | .bchv rd rs1 => Sys2Proof.Machine.execBchv rd rs1 s
  -- system
  | .nop => Sys2Proof.Machine.execNop s
  | .halt => Sys2Proof.Machine.execHalt s
  | .clear => Sys2Proof.Machine.execClear s
  | .ldi rd imm => Sys2Proof.Machine.execLdi rd imm s
  | .mov rd rs1 => Sys2Proof.Machine.execMov rd rs1 s
  | .ldb rd sp rs1 => Sys2Proof.Machine.execLdb rd sp rs1 s
  | .stb sp rs1 rs2 => Sys2Proof.Machine.execStb sp rs1 rs2 s
  | .csrr rd csr => Sys2Proof.Machine.execCsrr rd csr s
  | .csrw csr rs1 => Sys2Proof.Machine.execCsrw csr rs1 s

end Sys2Proof.Machine
end

