-- ==== Sys2Proof/Machine/Port.lean ====
section
/-! DEFINITION. The boundary of QRE (47_host_orchestration.md R240): the four transactions of the host, the drop rule of
the FAULT and HALTED states (60_exceptions.md R288) and the host port's permissions (R251). -/

namespace Sys2Proof.Machine

/-- The command word of CLEAR, matched before decode while the engine is stopped (R288). -/
def clearWord : Word := 0x02000000

/-- `Command(cw)` (R240): dropped or CLEAR while stopped (R288), else decoded and executed, or IllegalCommand (R90). -/
def command (cw : Word) (s : State) : Host.Outcome State Fault Refusal :=
  if stopped s then
    if cw = clearWord then exec .clear s else .next s
  else
    match decode cw with
    | .ok i => exec i s
    | .error _ => .next (enterFault .illegalCommand cw s)

/-- What the host reads at `addr` of space number `sp` (R251): MAT only while the result is valid, the other spaces
always; a reserved space or an address outside its space is refused. -/
def hostRead (s : State) (sp addr : Nat) : HostReply :=
  match Space.ofNumber sp with
  | none => .refused
  | some space =>
    if space = .mat ∧ resultValid s = false then .refused
    else match memRead s space addr with
      | .ok v => .value v.zext
      | .error _ => .refused

/-- `HostWrite(sp, addr, v)` (R251): IN, DCW, FCW only, in range, and not while FAULT or HALTED. -/
def hostWrite (s : State) (sp addr : Nat) (v : Byte) : State :=
  match Space.ofRamNumber sp with
  | none => { s with reply := .refused }
  | some space =>
    if stopped s then { s with reply := .refused }
    else match memWrite s space addr v with
      | .ok t => { t with reply := .done }
      | .error _ => { s with reply := .refused }

/-- `HostCsr(n)` (R240). -/
def hostCsr (s : State) (n : Nat) : HostReply :=
  match Csr.ofNumber n with
  | some c => .value (csrRead s c)
  | none => .refused

/-- The reset pin (70_reset_and_hazards.md R310): everything at its reset value. The host's own list of transactions is
not QRE's state (R47). -/
def resetPin (s : State) : State := { State.reset with pending := s.pending }

/-- One transaction (R240). -/
def transact (t : HostTx) (s : State) : Host.Outcome State Fault Refusal :=
  match t with
  | .reset => .next (resetPin s)
  | .command cw => command cw { s with reply := .noData }
  | .read sp addr => .next { s with reply := hostRead s sp addr }
  | .write sp addr v => .next (hostWrite s sp addr v)
  | .csr n => .next { s with reply := hostCsr s n }

/-- The host's next transaction; with none left the engine rests as it is (R318 c; log 1). -/
def nextTransaction (s : State) : Host.Outcome State Fault Refusal :=
  match s.pending with
  | [] => .next s
  | t :: rest => transact t { s with pending := rest }

/-- The state with the transaction `t` presented next. -/
def present (t : HostTx) (s : State) : State := { s with pending := t :: s.pending }

end Sys2Proof.Machine
end

