-- ==== Sys2Proof/Machine/Step.lean ====
section
/-! DEFINITION. One step of the model: the host's next transaction (47_host_orchestration.md R240, R250, R252). QRE has no
program counter and fetches nothing (10_state.md R22), so the next command is the one the host presents next. -/

namespace Sys2Proof.Machine

/-- One step: the next transaction of `pending`. -/
def step (s : State) : Host.Outcome State Fault Refusal := nextTransaction s

/-- The state in which the command word `w` is the host's next transaction (R80: one 32-bit value). -/
def State.withFetchWord (s : State) (nbits w : Nat) : State :=
  present (.command (BitVec.ofNat 32 (w % 2 ^ nbits))) s

end Sys2Proof.Machine
end

