-- ==== Sys2Proof/Machine/HostSoftware.lean ====
section
/-! DEFINITION. The host software contract (47_host_orchestration.md, part 2): the functions of the host, outside QRE
(00_scope.md R2), from the text and the options of one `generate` call to its transactions, their run on QRE and the
result or the error kind. It defines no state and no command; the renderers (R6) are left out (log 16). -/

namespace Sys2Proof.Machine

/-! ### Text to bytes (R242) -/

/-- The UTF-8 bytes of one character (R242; the layout of UTF-8 is PRESUMED, log 22). -/
def utf8Char (ch : Char) : List Byte :=
  let n := ch.toNat
  let tail (k : Nat) : Nat := 0x80 + n / 64 ^ k % 64
  (if n < 0x80 then [n]
    else if n < 0x800 then [0xC0 + n / 64, tail 0]
    else if n < 0x10000 then [0xE0 + n / 64 ^ 2, tail 1, tail 0]
    else [0xF0 + n / 64 ^ 3, tail 2, tail 1, tail 0]).map (BitVec.ofNat 8)

/-- The `data` argument of a call: a string, as its characters, or something else (R241). -/
inductive HostInput
  | text (chars : List Char)
  | nonString
  deriving DecidableEq, Repr

/-- `encode_text` (R242): the bytes of the text, none where `data` is no string. -/
def HostInput.bytes : HostInput → List Byte
  | .text chars => chars.flatMap utf8Char
  | .nonString => []

/-! ### Segments and versions (R243, R244) -/

/-- A segment: its mode, the index of its first byte and its length in bytes (R243). -/
structure Segment where
  mode : Mode
  start : Nat
  len : Nat
  deriving DecidableEq, Repr

/-- `mode_of(b)`: the narrowest mode that carries the byte (R243). -/
def modeOf (b : Byte) : Mode :=
  if carries .numeric b then .numeric else if carries .alphanumeric b then .alphanumeric else .byte

/-- The segments of the bytes from index `i` on, the first of them joined to a run of `n` bytes of mode `m` that ends
before `i` (R243). -/
def segmentFrom (m : Mode) (n i : Nat) : List Byte → List Segment
  | [] => [⟨m, i - n, n⟩]
  | b :: bs => if modeOf b = m then segmentFrom m (n + 1) (i + 1) bs else ⟨m, i - n, n⟩ :: segmentFrom (modeOf b) 1 (i + 1) bs

/-- `segmentInput`: greedy per character, neighbours of one mode merged, in input order (R243). -/
def segmentInput : List Byte → List Segment
  | [] => []
  | b :: bs => segmentFrom (modeOf b) 1 1 bs

/-- `need(segs, v)`: the content bits of the segments at version `v` (R244). -/
def need (segs : List Segment) (v : Nat) : Nat :=
  (segs.map fun g => 4 + ccBits g.mode v + payloadBits g.mode g.len).sum

/-- The segments fit version `v` at level `lv`: every count its indicator, and the total the capacity (R244). -/
def fitsVersion (segs : List Segment) (lv : Level) (v : Nat) : Bool :=
  segs.all (fun g => g.len < 2 ^ ccBits g.mode v) && need segs v ≤ 8 * dataCw v lv

/-- `find_min_version(segs, l)`: the smallest version that fits, none where CapacityExceeded is raised (R244). -/
def findMinVersion (segs : List Segment) (lv : Level) : Option Nat :=
  ((List.range 40).map (· + 1)).find? (fitsVersion segs lv)

/-- The version of a call (R242, R244): the pinned one or the smallest that fits; none is CapacityExceeded. The model's
choice where R244 leaves it open: the host itself tests that a pinned version fits, and issues no command where it does
not (DESIGN CHOICE, log 20). A text that IN cannot hold fits no version. -/
def chosenVersion (byteCount : Nat) (segs : List Segment) (lv : Level) (pinned : Option Nat) : Option Nat :=
  if byteCount ≤ Config.inSize then
    match pinned with
    | some v => if fitsVersion segs lv v then some v else none
    | none => findMinVersion segs lv
  else none

/-! ### Options and their checks (R241, R249) -/

/-- The `eccLevel` option: absent (default M), a level, or any other value (R241). -/
inductive LevelOption
  | absent
  | level (lv : Level)
  | foreign
  deriving DecidableEq, Repr

/-- The `version` and `maskPattern` options: absent or `"auto"` (the default), an integer, or any other value (R241). -/
inductive NumberOption
  | absent
  | auto
  | number (n : Int)
  | foreign
  deriving DecidableEq, Repr

/-- The recognised options of `generate` (R241). -/
structure GenerateOptions where
  eccLevel : LevelOption := .absent
  version : NumberOption := .absent
  maskPattern : NumberOption := .absent
  /-- For the renderer only: not validated, never sent to QRE. -/
  quietZone : Int := 4
  deriving DecidableEq, Repr

/-- The level asked for, M where none is (R241). -/
def LevelOption.resolve : LevelOption → Level
  | .level lv => lv
  | .absent | .foreign => .m

/-- The option is absent, `"auto"` or an integer `lo..hi` (R241). -/
def NumberOption.within (lo hi : Int) : NumberOption → Bool
  | .absent | .auto => true
  | .number n => lo ≤ n && n ≤ hi
  | .foreign => false

/-- The pinned value, none for `"auto"` (R241). -/
def NumberOption.pinned : NumberOption → Option Nat
  | .number n => some n.toNat
  | .absent | .auto | .foreign => none

/-- The constraints of R241 and R244 that a call can break. -/
inductive Violation
  | dataEmptyOrNoString
  | levelForeign
  | versionOutside
  | maskOutside
  | capacity
  deriving DecidableEq, Repr

/-- The source's error kind of a violation (R241, R244, R254). -/
def Violation.kind : Violation → ErrCode
  | .dataEmptyOrNoString => .invalidInput
  | .levelForeign | .versionOutside | .maskOutside => .invalidOption
  | .capacity => .capacityExceeded

/-- The human-readable form of a violation (R249); its wording is the model's choice (DESIGN CHOICE, log 21). -/
def Violation.message : Violation → String
  | .dataEmptyOrNoString => "data is empty or not a string"
  | .levelForeign => "ECC level is not one of L, M, Q, H"
  | .versionOutside => "version is outside 1 to 40"
  | .maskOutside => "mask is outside 0 to 7"
  | .capacity => "data does not fit the version asked for, or any version, at the ECC level"

/-- The failing checks of R241. Their order, data, level, version, mask, is the model's choice: R241 says that the source
does not give it, and the model takes the order of R241's table (DESIGN CHOICE, log 19). -/
def optionViolations (input : HostInput) (o : GenerateOptions) : List Violation :=
  (if input.bytes = [] then [.dataEmptyOrNoString] else [])
    ++ (if o.eccLevel = .foreign then [.levelForeign] else [])
    ++ (if o.version.within 1 40 then [] else [.versionOutside])
    ++ (if o.maskPattern.within 0 7 then [] else [.maskOutside])

/-- What the host resolves before it issues a command (R245): `bytes`, `segs`, `v`, `l` and the pinned mask `k`. -/
structure GeneratePlan where
  bytes : List Byte
  segments : List Segment
  version : Nat
  level : Level
  mask : Option Nat
  deriving DecidableEq, Repr

/-- The validation, conversion, segmentation and version selection of one `generate` call (R241 to R245): the first
violation is raised and nothing is issued (R241, R254). -/
def generatePlan (input : HostInput) (o : GenerateOptions) : Except Violation GeneratePlan :=
  match optionViolations input o with
  | v :: _ => .error v
  | [] =>
    let bytes := input.bytes
    let segs := segmentInput bytes
    let lv := o.eccLevel.resolve
    match chosenVersion bytes.length segs lv o.version.pinned with
    | some v => .ok ⟨bytes, segs, v, lv, o.maskPattern.pinned⟩
    | none => .error .capacity

/-- The violations `validateInput` reports (R249): those of R241, and, where there is none, the optional capacity test of
R244. That the test is made, and made last, is the model's choice (DESIGN CHOICE, log 21). -/
def violations (input : HostInput) (o : GenerateOptions) : List Violation :=
  match optionViolations input o, generatePlan input o with
  | [], .error v => [v]
  | [], .ok _ => []
  | vs, _ => vs

/-- `validateInput(data, options)` (R249): the list of human-readable violations; it issues no command. -/
def validateInput (input : HostInput) (o : GenerateOptions) : List String := (violations input o).map Violation.message

/-- The next lower level of the retry order H, Q, M, L (R248); the retry is the caller's. -/
def lowerLevel : Level → Option Level
  | .h => some .q | .q => some .m | .m => some .l | .l => none

/-! ### The canonical command list (R245, R246) -/

/-- A command as a transaction. -/
def issue (i : Instr) : HostTx := .command (encode i)

/-- `LDI xd, n` with a 16-bit constant; every constant of the list fits it (R245, `generatePlan_bounds`). -/
def issueLdi (rd : XReg) (n : Nat) : HostTx := issue (.ldi rd (BitVec.ofNat 16 n))

/-- The writes of the text into IN (R242, R245). -/
def writeText (bytes : List Byte) : List HostTx := bytes.mapIdx fun i b => .write 0 i b

/-- The three commands of one segment (R245). -/
def segmentCommands (g : Segment) : List HostTx :=
  [issueLdi 1 g.start, issueLdi 2 g.len, issue (.bseg g.mode 1 2)]

/-- The command list of one `generate` call, mask pinned or auto, up to IVER (R245, R246). The model's choices where R245
leaves them open: it begins with CLEAR, not Reset, and the matrix commands stand where R245 lists them (DESIGN CHOICE,
log 23). -/
def canonicalList (plan : GeneratePlan) : List HostTx :=
  [issue .clear] ++ writeText plan.bytes
    ++ [issueLdi 1 plan.version, issue (.csrw .ver 1), issueLdi 1 (levelCode plan.level).toNat, issue (.csrw .ecl 1)]
    ++ plan.segments.flatMap segmentCommands
    ++ [issue .bterm, issue .balign, issue .bpad, issue .bflush, issue .rsenc,
        issue .minit, issue .mfind, issue .mtime, issue .malign, issue .mrsv, issue .mdata]
    ++ (match plan.mask with | some k => [issueLdi 3 k, issue (.mmask 3)] | none => [issue .msel])
    ++ [issue .ifmt, issue .iver]

/-! ### Running a call on QRE (R245, R247) -/

/-- The state after one transaction; QRE answers each with a next state (log 10). -/
def serve (s : State) (tx : HostTx) : State :=
  match transact tx s with
  | .next t => t
  | .fault _ | .refused _ => s

/-- The state after the transactions, in order. -/
def serveAll (s : State) (txs : List HostTx) : State := txs.foldl serve s

/-- The value the host gets from an access, 0 where it is refused. -/
def answerTo (s : State) (tx : HostTx) : Word :=
  match (serve s tx).reply with
  | .value v => v
  | .noData | .done | .refused => 0

/-- `HostCsr` of a CSR. -/
def askCsr (s : State) (c : Csr) : Word := answerTo s (.csr c.number)

/-- The result of a `generate` call (R247). -/
structure GenerateResult where
  matrix : List (List Bool)
  version : Nat
  eccLevel : Level
  maskPattern : Nat
  segments : List Segment
  totalBits : Nat
  totalCodewords : Nat
  deriving DecidableEq, Repr

/-- The host's reading of the result, each field through the host port (R247); `segs` is the host's own list. -/
def readResult (segs : List Segment) (s : State) : GenerateResult :=
  let side := (askCsr s .size).toNat
  { matrix := (List.range side).map fun r => (List.range side).map fun c =>
      (answerTo s (.read Space.mat.number (r * side + c))).getLsbD 0
    version := (askCsr s .ver).toNat
    eccLevel := levelOf ((askCsr s .ecl).setWidth 2)
    maskPattern := (askCsr s .mask).toNat % 8
    segments := segs
    totalBits := (askCsr s .totbits).toNat
    totalCodewords := (askCsr s .totcw).toNat }

/-- The fault code of a number in `STATUS.ERR`, none for a number that is no code (R281). -/
def ErrCode.ofCode : Nat → Option ErrCode
  | 1 => some .invalidInput
  | 2 => some .capacityExceeded
  | 3 => some .invalidOption
  | 4 => some .arithmeticError
  | 5 => some .illegalCommand
  | 6 => some .sequenceError
  | 7 => some .rangeError
  | _ => none

/-- How a `generate` call ends for the caller (R245, R247, R254). -/
inductive GenerateOutcome
  | result (r : GenerateResult)
  | error (kind : ErrCode)
  /-- No result and `ERR = 0`: the command list ended in some other phase without a fault. -/
  | unfinished
  deriving DecidableEq, Repr

/-- The closing host steps of R245: `s = HostCsr(STATUS)`; the result while `RESULT_VALID`, else the error kind of
`STATUS.ERR` and CLEAR. `STATUS` is read once, at the end of the list (DESIGN CHOICE, log 23); the host's accesses change
nothing of QRE (R251, R252). -/
def concludeRun (segs : List Segment) (s : State) : State × GenerateOutcome :=
  let status := askCsr s .status
  if status.getLsbD 2 then (s, .result (readResult segs s))
  else
    (serve s (issue .clear),
      match ErrCode.ofCode (status.toNat / 16) with
      | some e => .error e
      | none => .unfinished)

/-- One `generate` call on a QRE in state `s` (R241 to R247): a violation is raised before any command. -/
def generate (input : HostInput) (o : GenerateOptions) (s : State) : State × GenerateOutcome :=
  match generatePlan input o with
  | .error v => (s, .error v.kind)
  | .ok plan => concludeRun plan.segments (serveAll s (canonicalList plan))

end Sys2Proof.Machine
end

