-- ==== Sys2Proof/Safety.lean ====
section
/-! DEFINITION. What a safe state of QRE is: the relations between the pieces of state that the spec gives and that every
step keeps, and the notions the statements are written in. -/

namespace Sys2Proof.Machine

/-! ### The invariant -/

/-- The engine executes commands: neither FAULT nor HALTED (60_exceptions.md R288). -/
def Running (s : State) : Prop := s.fault = none ∧ s.halted = false

/-- A byte memory in canonical form, all of whose addresses are below `n`. -/
def MemoryOk (m : Memory) (n : Nat) : Prop := m.wf ∧ ∀ c ∈ m, c.1 < n

/-- IN, DCW and FCW are byte memories of 8192, 4096 and 4096 bytes (R43, R44). -/
def MemoriesOk (s : State) : Prop :=
  MemoryOk s.inp Config.inSize ∧ MemoryOk s.dcw Config.cwSize ∧ MemoryOk s.fcw Config.cwSize

/-- Every polynomial register holds 1 to 4096 coefficients (R41). -/
def PolysOk (s : State) : Prop := ∀ k : PReg, 1 ≤ pLen s k ∧ pLen s k ≤ Config.pMax

/-- FAULT and HALTED are never both 1, and `ERRCMD` is 0 while `FAULT = 0` (R25, R26, R287). -/
def StatusOk (s : State) : Prop := (s.fault ≠ none → s.halted = false) ∧ (s.fault = none → s.errcmd = 0)

/-- `VER` is 0 or a version, `DLEN` and `FLEN` are 0..4096 (R28, R31). -/
def ConfigOk (s : State) : Prop := s.ver.toNat ≤ 40 ∧ s.dlen.toNat ≤ 4096 ∧ s.flen.toNat ≤ 4096

/-- `PHASE` is 0..9; `SIZE` is 0 in phase 0 and `4*VER+17`, with a version set, from phase 1 on; `MASK` is 0 until phase
7 and valid from then on (R30). -/
def PhaseOk (s : State) : Prop :=
  s.phase.toNat ≤ 9 ∧
  (s.phase = 0 → s.size = 0) ∧
  (s.phase ≠ 0 → s.ver ≠ 0 ∧ s.size.toNat = sideOf s.ver.toNat) ∧
  (s.phase.toNat < 7 → s.mask = 0) ∧
  (7 ≤ s.phase.toNat → 8 ≤ s.mask.toNat)

/-- The matrix is `SIZE` rows of `SIZE` cells (R45). -/
def GridOk (g : Grid) (S : Nat) : Prop := g.length = S ∧ ∀ row ∈ g, row.length = S

/-- The bit buffer holds at most `BBMAX` bits; from stage 1 on a version is set and the content is within the capacity,
from stage 2 on it is whole bytes, and in stage 3 it fills the capacity (R42, R166 to R168, R171, R172). -/
def BufferOk (s : State) : Prop :=
  bbLen s ≤ Config.bbMax ∧
  (s.bstage ≠ 0 → s.ver ≠ 0 ∧ 1 ≤ bbLen s ∧ bbLen s ≤ capBits s) ∧
  (2 ≤ s.bstage.toNat → bbLen s % 8 = 0) ∧
  (s.bstage = 3 → bbLen s = capBits s)

/-- The invariant of QRE: what holds in every state a run reaches. -/
def EngineInv (s : State) : Prop :=
  MemoriesOk s ∧ PolysOk s ∧ StatusOk s ∧ ConfigOk s ∧ PhaseOk s ∧ GridOk s.mat s.size.toNat ∧ BufferOk s

/-! ### The tables of the spec that statements compare with -/

/-- The value of every piece of state in R50's table, `CMDCNT` being `c`. -/
def Fresh (t : State) (c : Word) : Prop :=
  (∀ r, readX t r = 0) ∧ (∀ k, readP t k = [0]) ∧
  t.fault = none ∧ t.halted = false ∧ t.errcmd = 0 ∧ t.cmdcnt = c ∧ t.ver = 0 ∧ t.ecl = 0 ∧
  t.size = 0 ∧ t.phase = 0 ∧ t.mask = 0 ∧ t.totbits = 0 ∧ t.bstage = 0 ∧ t.dlen = 0 ∧ t.flen = 0 ∧
  t.pen = 0 ∧ (∀ k : Fin 8, t.penv[k.val] = 0) ∧ t.fmt = 0 ∧ t.vinf = 0 ∧ t.bb = [] ∧
  (∀ a, t.inp.read a = 0 ∧ t.dcw.read a = 0 ∧ t.fcw.read a = 0) ∧ t.mat = []

/-- The number of addresses of a space PLD, PST and STB accept: 8192 for IN, 4096 for DCW and FCW (R120, R121, R266). -/
def RamSize (sp : Space) (n : Nat) : Prop := (sp = .inp ∧ n = 8192) ∨ ((sp = .dcw ∨ sp = .fcw) ∧ n = 4096)

/-- The faults a command can raise once it is decoded: its row of R282 without `I`. -/
def mayRaise : Instr → List ErrCode
  | .nop | .halt | .clear | .ldi .. | .mov .. | .csrr .. | .pmov .. | .pdeg .. | .padd .. | .bflush => []
  | .ldb .. => [.arithmeticError, .rangeError]
  | .stb .. => [.rangeError]
  | .csrw csr _ => if csr = .ver ∨ csr = .ecl then [.sequenceError, .invalidOption] else [.rangeError]
  | .gfadd .. | .gfmul .. | .gfpow .. | .gfexp .. => [.rangeError]
  | .gfdiv .. | .gflog .. => [.rangeError, .arithmeticError]
  | .pld .. | .pst .. | .pmul .. | .pscl .. | .peval .. => [.rangeError]
  | .rsgen .. | .rssyn .. => [.rangeError]
  | .rsrem .. => [.rangeError, .arithmeticError]
  | .rsenc => [.sequenceError]
  | .bapp .. => [.sequenceError, .rangeError, .capacityExceeded]
  | .bseg .. => [.sequenceError, .invalidOption, .invalidInput, .rangeError, .capacityExceeded]
  | .bterm => [.sequenceError, .invalidInput, .capacityExceeded]
  | .balign | .bpad => [.sequenceError]
  | .minit | .mfind | .mtime | .malign | .mrsv | .mdata | .mpen .. | .msel => [.sequenceError]
  | .mmask .. => [.sequenceError, .invalidOption]
  | .ifmt | .iver => [.sequenceError]
  | .bchf .. | .bchv .. => [.rangeError]

/-- The scalar register a command writes: its `rd` (R21, R109, R173, R188). -/
def destX : Instr → Option XReg
  | .gfadd rd .. | .gfmul rd .. | .gfdiv rd .. | .gfpow rd .. | .gfexp rd _ | .gflog rd _ => some rd
  | .pdeg rd _ | .peval rd .. | .rssyn rd .. => some rd
  | .mpen rd | .bchf rd _ | .bchv rd _ => some rd
  | .ldi rd _ | .mov rd _ | .ldb rd .. | .csrr rd _ => some rd
  | .pld .. | .pst .. | .pmov .. | .padd .. | .pmul .. | .pscl .. | .rsgen .. | .rsrem .. | .rsenc => none
  | .bapp .. | .bseg .. | .bterm | .balign | .bpad | .bflush => none
  | .minit | .mfind | .mtime | .malign | .mrsv | .mdata | .mmask .. | .msel | .ifmt | .iver => none
  | .nop | .halt | .clear | .stb .. | .csrw .. => none

/-- The polynomial register a command writes: its `pd` (R130, R148). -/
def destP : Instr → Option PReg
  | .pld pd .. | .pmov pd _ | .padd pd .. | .pmul pd .. | .pscl pd .. => some pd
  | .rsgen pd _ | .rsrem pd .. | .rssyn _ pd .. => some pd
  | .gfadd .. | .gfmul .. | .gfdiv .. | .gfpow .. | .gfexp .. | .gflog .. => none
  | .pst .. | .pdeg .. | .peval .. | .rsenc => none
  | .bapp .. | .bseg .. | .bterm | .balign | .bpad | .bflush => none
  | .minit | .mfind | .mtime | .malign | .mrsv | .mdata | .mmask .. | .mpen .. | .msel => none
  | .ifmt | .iver | .bchf .. | .bchv .. => none
  | .nop | .halt | .clear | .ldi .. | .mov .. | .ldb .. | .stb .. | .csrr .. | .csrw .. => none

/-- The commands that write space MAT (R61). -/
def writesMat : Instr → Bool
  | .minit | .mfind | .mtime | .malign | .mrsv | .mdata | .mmask .. | .msel | .ifmt | .iver | .clear => true
  | .gfadd .. | .gfmul .. | .gfdiv .. | .gfpow .. | .gfexp .. | .gflog .. => false
  | .pld .. | .pst .. | .pmov .. | .pdeg .. | .padd .. | .pmul .. | .pscl .. | .peval .. => false
  | .rsgen .. | .rsrem .. | .rsenc | .rssyn .. => false
  | .bapp .. | .bseg .. | .bterm | .balign | .bpad | .bflush | .mpen .. | .bchf .. | .bchv .. => false
  | .nop | .halt | .ldi .. | .mov .. | .ldb .. | .stb .. | .csrr .. | .csrw .. => false

/-- The commands that append to the bit buffer (R61). -/
def appendsBits : Instr → Bool
  | .bapp .. | .bseg .. | .bterm | .balign | .bpad => true
  | .gfadd .. | .gfmul .. | .gfdiv .. | .gfpow .. | .gfexp .. | .gflog .. => false
  | .pld .. | .pst .. | .pmov .. | .pdeg .. | .padd .. | .pmul .. | .pscl .. | .peval .. => false
  | .rsgen .. | .rsrem .. | .rsenc | .rssyn .. | .bflush => false
  | .minit | .mfind | .mtime | .malign | .mrsv | .mdata | .mmask .. | .mpen .. | .msel => false
  | .ifmt | .iver | .bchf .. | .bchv .. | .nop | .halt | .clear => false
  | .ldi .. | .mov .. | .ldb .. | .stb .. | .csrr .. | .csrw .. => false

/-! ### Independent readings of what the model computes by tables or loops -/

/-- The field element times `x^n`, by doubling and reduction by 0x11D (R7, R33). -/
def timesX : Nat → Byte → Byte
  | 0, a => a
  | n + 1, a => timesX n ((a <<< 1) ^^^ (if a.getLsbD 7 then 0x1D else 0))

/-- The field sum of `f 0`, …, `f (n - 1)`. -/
def gfSum (n : Nat) (f : Nat → Byte) : Byte := (List.range n).foldl (fun acc i => acc ^^^ f i) 0

/-- The matrix of version `v` after MINIT, MFIND, MTIME, MALIGN and MRSV (R180 to R185). -/
def functionPattern (v : Nat) : Grid :=
  let S := sideOf v
  let g := (((emptyGrid S).setfAll (finderCells S)).setfAll (timingCells S)).setfAll (alignmentCells S v)
  ((g.reserveAll (formatCells S)).setf (S - 8, 8) .dark).reserveAll (versionCells S v)

/-- The number of cells that are not reserved. -/
def unreservedCount (g : Grid) : Nat := (g.map fun row => row.countP fun m => !m.reserved).sum

/-- The character of a cell in R190's pictures: `#` Dark, `.` Light, `f` Unset and reserved, `?` Unset and not reserved. -/
def MatCell.char (m : MatCell) : Char :=
  match m.colour with
  | .dark => '#'
  | .light => '.'
  | .unset => if m.reserved then 'f' else '?'

/-- The picture of a matrix, row by row (R190). -/
def picture (g : Grid) : List (List Char) := g.map fun row => row.map MatCell.char

/-- The place of cell `(r, c)` in the zigzag of R201 over a matrix of side `S`, among all cells, data or not: first the strip,
counted from the right with column 6 left out; in it the row, from the bottom in the strips 0, 2, 4, … that are swept
upward and from the top in the others; in the row the right cell before the left. -/
def zigzagRank (S : Nat) (rc : Nat × Nat) : Nat :=
  let fromRight := S - 1 - rc.2 - (if rc.2 < 6 then 1 else 0)
  let strip := fromRight / 2
  let row := if strip % 2 = 0 then S - 1 - rc.1 else rc.1
  2 * (strip * S + row) + fromRight % 2

/-- `g[r][c]` of a grid of bits. -/
def bitAt (rows : List (List Bool)) (r c : Nat) : Bool := (rows.getD r []).getD c false

/-- Cell `(r, c)` scores as dark: it is Dark, neither Light nor Unset (R205). -/
def isDark (g : Grid) (r c : Nat) : Bool := (g.cell r c).colour = .dark

/-- The `S` rows of a matrix, read left to right (R205). -/
def rowLines (S : Nat) (g : Grid) : List (List Bool) :=
  (List.range S).map fun r => (List.range S).map fun c => isDark g r c

/-- The `S` columns of a matrix, read top to bottom (R205). -/
def columnLines (S : Nat) (g : Grid) : List (List Bool) :=
  (List.range S).map fun c => (List.range S).map fun r => isDark g r c

/-- The number of dark cells of a matrix (R211). -/
def darkCount (S : Nat) (g : Grid) : Nat :=
  ((List.range S).map fun r => (List.range S).countP fun c => isDark g r c).sum

/-- Module `k` of a line, none past its end. -/
def moduleAt (line : List Bool) (k : Nat) : Option Bool := (line.drop k).head?

/-- The maximal run of `n` equal values that starts at index `i` of a line (R206). -/
def isMaximalRun (line : List Bool) (i n : Nat) : Bool :=
  1 ≤ n && i + n ≤ line.length && (List.range n).all (fun j => moduleAt line (i + j) = moduleAt line i)
    && (i = 0 || moduleAt line (i - 1) ≠ moduleAt line i) && moduleAt line (i + n) ≠ moduleAt line i

end Sys2Proof.Machine
end

