-- ==== Sys2Proof/Certificates/Slice0/Obligations.lean ====
section
/-! DEFINITION. The statements about the model, each from the numbered rules of spec/ its docstring cites. -/

open Sys2Proof Sys2Proof.Machine

/-! ### Encoding (30_encoding.md) -/

/-- One word of each unit, from the worked examples of the spec, decodes to its command, and one word of each of the four
kinds of illegal word is rejected for its own reason (R90, R91). -/
def Obligations.SampleWordsDecode : Prop :=
  decode 0x11312000 = .ok (.gfmul 3 1 2) ∧
  decode 0x20012001 = .ok (.pld 0 .dcw 1 2) ∧
  decode 0x33210400 = .ok (.rssyn 2 1 0 1) ∧
  decode 0x41012002 = .ok (.bseg .alphanumeric 1 2) ∧
  decode 0x56010000 = .ok (.mmask 1) ∧
  decode 0x62210000 = .ok (.bchf 2 1) ∧
  decode 0x08010003 = .ok (.csrw .ver 1) ∧
  decode 0xFF000000 = .error .opcode ∧
  decode 0x02000001 = .error .mustBeZero ∧
  decode 0x06012003 = .error .selector ∧
  decode 0x08010005 = .error .csr

/-- Decoding the word of a well-formed command gives the command back, at every value of every operand (R81 to R91). -/
def Obligations.DecodeOfEncode : Prop := ∀ i : Instr, i.wellFormed = true → decode (encode i) = .ok i

/-- Each word has one meaning: the command a word decodes to is well-formed, and that word is its encoding (R81, R90). -/
def Obligations.EncodeOfDecode : Prop :=
  ∀ (cw : Word) (i : Instr), decode cw = .ok i → i.wellFormed = true ∧ encode i = cw

/-! ### The boundary (47_host_orchestration.md, part 1; 60_exceptions.md) -/

/-- A command word that the running engine decodes is executed: `step` is `exec` of the command, on the state whose
transaction list has moved on and whose last answer is none (R74, R240). The word placed by `withFetchWord` is the next. -/
def Obligations.StepRunsDecodedCommand : Prop :=
  (∀ (s : State) (cw : Word) (rest : List HostTx) (i : Instr),
    s.pending = .command cw :: rest → Running s → decode cw = .ok i →
    step s = exec i { s with pending := rest, reply := .noData }) ∧
  (∀ (s : State) (w : Nat) (i : Instr), Running s → decodeTableWord 32 w = some i →
    step (s.withFetchWord 32 w) = exec i { s with reply := .noData })

/-- An illegal word faults IllegalCommand with `ERRCMD` that word and nothing else changed; every word whose opcode byte
is unassigned is illegal, and so is the word of a command term whose space or CSR its command does not accept (R86, R87,
R90, R91; that `exec` of such a term is the same fault is the model's choice, log 11). -/
def Obligations.IllegalWordFaults : Prop :=
  (∀ (s : State) (cw : Word) (rest : List HostTx) (why : Illegal),
    s.pending = .command cw :: rest → Running s → decode cw = .error why →
    step s = .next
      { s with pending := rest, reply := .noData, fault := some .illegalCommand, errcmd := cw }) ∧
  (∀ cw : Word, decode cw = .error .opcode ↔
    bits cw 31 24 ∉
      [0x00, 0x01, 0x02, 0x03, 0x04, 0x05, 0x06, 0x07, 0x08, 0x10, 0x11, 0x12, 0x13, 0x14, 0x15, 0x20, 0x21, 0x22,
       0x23, 0x24, 0x25, 0x26, 0x27, 0x30, 0x31, 0x32, 0x33, 0x40, 0x41, 0x42, 0x43, 0x44, 0x45, 0x50, 0x51, 0x52,
       0x53, 0x54, 0x55, 0x56, 0x57, 0x58, 0x60, 0x61, 0x62, 0x63]) ∧
  (∀ (i : Instr) (s : State), i.wellFormed = false →
    (decode (encode i) = .error .selector ∨ decode (encode i) = .error .csr) ∧
    exec i s = .next { s with fault := some .illegalCommand, errcmd := encode i })

/-- While FAULT or HALTED, the word 0x02000000 executes CLEAR and every other word is dropped: no state changes (R288). -/
def Obligations.StoppedEngineDropsWords : Prop :=
  ∀ (s : State) (cw : Word) (rest : List HostTx),
    s.pending = .command cw :: rest → (s.fault ≠ none ∨ s.halted = true) →
    (cw = 0x02000000 → step s = exec .clear { s with pending := rest, reply := .noData }) ∧
    (cw ≠ 0x02000000 → step s = .next { s with pending := rest, reply := .noData })

/-- After the reset pin, and after CLEAR, every piece of state has its value of R50's table: `CMDCNT` is 0 after reset and
one more than before after CLEAR, in every state (R50, R262, R311). -/
def Obligations.ResetAndClearValues : Prop :=
  (∀ (s : State) (rest : List HostTx), s.pending = .reset :: rest → ∃ t, step s = .next t ∧ Fresh t 0) ∧
  (∀ s : State, ∃ t, exec .clear s = .next t ∧ Fresh t (s.cmdcnt + 1)) ∧
  Fresh State.reset 0

/-- What a host reads straight after reset (R313): every CSR is 0 except `PLEN0..3`, which are 1; IN, DCW and FCW are 0 at
every valid address; `EXP[0] = 1`, `LOG[1] = 0`; every MAT and BB address is refused. -/
def Obligations.ReadsAfterReset : Prop :=
  (∀ c : Csr, hostCsr State.reset c.number = .value (match c with | .plen _ => 1 | _ => 0)) ∧
  (∀ a, a ≤ 8191 → hostRead State.reset 0 a = .value 0) ∧
  (∀ a, a ≤ 4095 → hostRead State.reset 1 a = .value 0 ∧ hostRead State.reset 2 a = .value 0) ∧
  hostRead State.reset 3 0 = .value 1 ∧ hostRead State.reset 4 1 = .value 0 ∧
  (∀ a, hostRead State.reset 5 a = .refused ∧ hostRead State.reset 6 a = .refused)

/-- `HostRead` answers the addressed byte or bit under the permissions of R251 and changes nothing: MAT only while the
result is valid, the other spaces always; outside a space, and for spaces 7 and up, it is refused (R251, R252).
`HostCsr(n)` answers the CSR's value, or refuses a number that is no CSR, and changes nothing (R24, R240). -/
def Obligations.HostReadsAnswer : Prop :=
  (∀ (s : State) (rest : List HostTx) (sp addr : Nat), s.pending = .read sp addr :: rest →
    step s = .next { s with
      pending := rest
      reply :=
        if sp = 0 then (if addr ≤ 8191 then .value (s.inp.read addr).zext else .refused)
        else if sp = 1 then (if addr ≤ 4095 then .value (s.dcw.read addr).zext else .refused)
        else if sp = 2 then (if addr ≤ 4095 then .value (s.fcw.read addr).zext else .refused)
        else if sp = 3 then (if addr ≤ 254 then .value (romExp addr).zext else .refused)
        else if sp = 4 then
          (if 1 ≤ addr ∧ addr ≤ 255 then .value (BitVec.ofNat 32 ((romLog (BitVec.ofNat 8 addr)).getD 0))
           else .refused)
        else if sp = 5 then
          (if s.phase = 9 ∧ s.fault = none ∧ addr < s.size.toNat * s.size.toNat
           then .value (s.mat.cell (addr / s.size.toNat) (addr % s.size.toNat)).byte.zext else .refused)
        else if sp = 6 then
          (if addr < s.bb.length then .value (if s.bb.getD addr false then 1 else 0) else .refused)
        else .refused }) ∧
  (∀ (s : State) (rest : List HostTx) (c : Csr), s.pending = .csr c.number :: rest →
    step s = .next { s with pending := rest, reply := .value (csrRead s c) }) ∧
  (∀ (s : State) (rest : List HostTx) (n : Nat), s.pending = .csr n :: rest →
    (n = 0x0E ∨ n = 0x0F ∨ 0x22 ≤ n) → step s = .next { s with pending := rest, reply := .refused })

/-- `HostWrite` changes exactly the addressed byte of IN, DCW or FCW, while neither FAULT nor HALTED; every other write is
refused and changes nothing (R251). The memories are in canonical form (the invariant `StepKeepsInvariant`). -/
def Obligations.HostWriteStoresOneByte : Prop :=
  (∀ (s : State) (rest : List HostTx) (sp addr : Nat) (v : Byte), MemoriesOk s →
    s.pending = .write sp addr v :: rest → Running s →
    ((sp = 0 ∧ addr ≤ 8191) ∨ (sp = 1 ∧ addr ≤ 4095) ∨ (sp = 2 ∧ addr ≤ 4095)) →
    ∃ t, step s = .next t ∧ t.reply = .done ∧ t.pending = rest ∧
      (∀ b, t.inp.read b = if sp = 0 ∧ b = addr then v else s.inp.read b) ∧
      (∀ b, t.dcw.read b = if sp = 1 ∧ b = addr then v else s.dcw.read b) ∧
      (∀ b, t.fcw.read b = if sp = 2 ∧ b = addr then v else s.fcw.read b) ∧
      { t with inp := s.inp, dcw := s.dcw, fcw := s.fcw, pending := s.pending, reply := s.reply } = s) ∧
  (∀ (s : State) (rest : List HostTx) (sp addr : Nat) (v : Byte),
    s.pending = .write sp addr v :: rest →
    (¬Running s ∨ 3 ≤ sp ∨ (sp = 0 ∧ 8191 < addr) ∨ (sp = 1 ∧ 4095 < addr) ∨ (sp = 2 ∧ 4095 < addr)) →
    step s = .next { s with pending := rest, reply := .refused })

/-- A command word ends a step of the running engine in exactly one of two ways: it completes, with no fault, or it faults
and then only `STATUS` and `ERRCMD` have changed, `ERRCMD` being the word itself (R284, R285, R327). -/
def Obligations.FaultsArePrecise : Prop :=
  ∀ (s : State) (cw : Word) (rest : List HostTx), s.pending = .command cw :: rest → Running s →
    ∃ t, step s = .next t ∧
      ∀ e, t.fault = some e →
        t = { s with pending := rest, reply := .noData, fault := some e, errcmd := cw }

/-- `CMDCNT` counts the commands that completed since the reset pin: one more for every completing command, CLEAR, NOP and
HALT included; unchanged by a fault, by a dropped word and by every host access; 0 after reset (R27). -/
def Obligations.CmdcntCountsCompletions : Prop :=
  ∀ (s t : State) (tx : HostTx) (rest : List HostTx), s.pending = tx :: rest → step s = .next t →
    match tx with
    | .reset => t.cmdcnt = 0
    | .command cw =>
      ((Running s ∨ cw = 0x02000000) ∧ t.fault = none → t.cmdcnt = s.cmdcnt + 1) ∧
      (¬(Running s ∨ cw = 0x02000000) ∨ t.fault ≠ none → t.cmdcnt = s.cmdcnt)
    | .read _ _ | .write _ _ _ | .csr _ => t.cmdcnt = s.cmdcnt

/-- A command raises no fault that is not in its row of R282; the commands of R296 raise none once decoded. -/
def Obligations.OnlyListedFaults : Prop :=
  ∀ (s t : State) (i : Instr) (e : ErrCode), Running s → i.wellFormed = true → exec i s = .next t →
    t.fault = some e → e ∈ mayRaise i

/-! ### Control and status registers, tables (10_state.md) -/

/-- The fields of `STATUS`: bit 0 FAULT, bit 1 HALTED, bit 2 RESULT_VALID = (PHASE = 9) and (FAULT = 0), bit 3 zero, bits
[7:4] the fault code, 0 when `FAULT = 0`, and zero above (R24, R25, R281). -/
def Obligations.StatusFields : Prop :=
  ∀ s : State,
    (csrRead s .status).getLsbD 0 = s.fault.isSome ∧
    (csrRead s .status).getLsbD 1 = s.halted ∧
    (csrRead s .status).getLsbD 2 = (decide (s.phase = 9) && s.fault.isNone) ∧
    (csrRead s .status).getLsbD 3 = false ∧
    (csrRead s .status).toNat / 16 =
      match s.fault with
      | none => 0
      | some .invalidInput => 1
      | some .capacityExceeded => 2
      | some .invalidOption => 3
      | some .arithmeticError => 4
      | some .illegalCommand => 5
      | some .sequenceError => 6
      | some .rangeError => 7

/-- What every CSR but `STATUS` reads as, zero-extended (R24): the register of its name; `BBLEN` the number of bits in the
buffer and `PLENk` the length of `p[k]` (R31, R41); `DATACW`, `TOTCW`, `NBLK` and `ECCPB` the table entries of the
configured version and level, and 0 while `VER = 0` (R32). -/
def Obligations.CsrValues : Prop :=
  ∀ s : State, EngineInv s →
    csrRead s .errcmd = s.errcmd ∧ csrRead s .cmdcnt = s.cmdcnt ∧ csrRead s .pen = s.pen ∧
    (∀ k : Fin 8, csrRead s (.penv k) = s.penv[k.val]) ∧
    (csrRead s .ver).toNat = s.ver.toNat ∧ (csrRead s .ecl).toNat = s.ecl.toNat ∧
    (csrRead s .size).toNat = s.size.toNat ∧ (csrRead s .phase).toNat = s.phase.toNat ∧
    (csrRead s .mask).toNat = s.mask.toNat ∧ (csrRead s .totbits).toNat = s.totbits.toNat ∧
    (csrRead s .dlen).toNat = s.dlen.toNat ∧ (csrRead s .flen).toNat = s.flen.toNat ∧
    (csrRead s .bstage).toNat = s.bstage.toNat ∧ (csrRead s .fmt).toNat = s.fmt.toNat ∧
    (csrRead s .vinf).toNat = s.vinf.toNat ∧
    (csrRead s .bblen).toNat = s.bb.length ∧
    (∀ k : PReg, (csrRead s (.plen k)).toNat = (readP s k).length) ∧
    (csrRead s .datacw).toNat = (if s.ver = 0 then 0 else dataCw s.ver.toNat (levelOf s.ecl)) ∧
    (csrRead s .totcw).toNat = (if s.ver = 0 then 0 else totalCw s.ver.toNat) ∧
    (csrRead s .nblk).toNat = (if s.ver = 0 then 0 else nblk s.ver.toNat (levelOf s.ecl)) ∧
    (csrRead s .eccpb).toNat = (if s.ver = 0 then 0 else eccPerBlock s.ver.toNat (levelOf s.ecl))

/-- What the source requires of the capacity tables, for every version and level (R40 a to e, R36, R172), and the largest
values the buffers are sized for. -/
def Obligations.CapacityTables : Prop :=
  dataCw 1 .m = 16 ∧ 74 ≤ 8 * dataCw 1 .q ∧
  ∀ (v : Nat) (lv : Level), 1 ≤ v → v ≤ 40 →
    1 ≤ dataCw v lv ∧ 1 ≤ eccPerBlock v lv ∧ 1 ≤ nblk v lv ∧
    dataCw v lv + eccPerBlock v lv * nblk v lv = totalCw v ∧
    8 * totalCw v + remBits v = dataCells v ∧
    8 * dataCw v lv ≤ 23648 ∧ totalCw v ≤ 3706 ∧ totalCw v / nblk v lv + 1 ≤ 255

/-- `EXP` is repeated doubling from 1 with reduction by 0x11D (R33); `LOG` is its inverse, defined exactly on 1..255, and
`LOG[0]` has no value (R34). -/
def Obligations.ExpAndLogTables : Prop :=
  romExp 0 = 1 ∧
  (∀ i, 1 ≤ i → i ≤ 254 →
    (romExp i).toNat =
      if 2 * (romExp (i - 1)).toNat < 256 then 2 * (romExp (i - 1)).toNat
      else (2 * (romExp (i - 1)).toNat) ^^^ 0x11D) ∧
  (∀ i, i ≤ 254 → romLog (romExp i) = some i) ∧
  (∀ a : Byte, a ≠ 0 → ∃ i, i ≤ 254 ∧ romLog a = some i ∧ romExp i = a) ∧
  romLog 0 = none

/-! ### GF unit (40_gf256.md) -/

/-- The field laws of R108 hold of `gf_add`, `gf_mul`, `gf_div`, `gf_pow`, for all elements. -/
def Obligations.FieldLaws : Prop :=
  (∀ a b c : Byte,
    gfAdd a b = gfAdd b a ∧ gfAdd (gfAdd a b) c = gfAdd a (gfAdd b c) ∧ gfAdd a 0 = a ∧ gfAdd a a = 0 ∧
    gfMul a b = gfMul b a ∧ gfMul (gfMul a b) c = gfMul a (gfMul b c) ∧ gfMul a 1 = a ∧ gfMul a 0 = 0 ∧
    gfMul a (gfAdd b c) = gfAdd (gfMul a b) (gfMul a c)) ∧
  (∀ a b : Byte, b ≠ 0 → gfDiv (gfMul a b) b = .ok a) ∧
  (∀ a : Byte, a ≠ 0 → (∃ q, gfDiv 1 a = .ok q ∧ gfMul a q = 1) ∧ gfPow a 255 = 1) ∧
  (∀ a : Byte, gfPow a 1 = a) ∧
  (∀ i : Nat, gfPow 2 i = romExp (i % 255))

/-- `gf_mul` through the tables is the multiplication of the field of 0x11D: the sum of the first operand times `x^i` over
the bits `i` of the second (R7, R106). -/
def Obligations.GfMulIsFieldMultiplication : Prop :=
  ∀ a b : Byte, gfMul a b = gfSum 8 fun i => if b.getLsbD i then timesX i a else 0

/-- GFADD, GFMUL, GFDIV, GFPOW, GFEXP, GFLOG on operands in range: the destination register is written, nothing else but
`CMDCNT` changes (R100 to R105, R109). -/
def Obligations.GfCommandsComplete : Prop :=
  ∀ (s : State) (rd rs1 rs2 : XReg),
    ((readX s rs1).toNat ≤ 255 → (readX s rs2).toNat ≤ 255 →
      exec (.gfadd rd rs1 rs2) s =
        .next { writeX s rd (readX s rs1 ^^^ readX s rs2) with cmdcnt := s.cmdcnt + 1 } ∧
      exec (.gfmul rd rs1 rs2) s =
        .next { writeX s rd (gfMul ((readX s rs1).setWidth 8) ((readX s rs2).setWidth 8)).zext with
          cmdcnt := s.cmdcnt + 1 }) ∧
    ((readX s rs1).toNat ≤ 255 → 1 ≤ (readX s rs2).toNat → (readX s rs2).toNat ≤ 255 →
      ∃ q : Byte, gfMul q ((readX s rs2).setWidth 8) = (readX s rs1).setWidth 8 ∧
        exec (.gfdiv rd rs1 rs2) s = .next { writeX s rd q.zext with cmdcnt := s.cmdcnt + 1 }) ∧
    ((readX s rs1).toNat ≤ 255 →
      exec (.gfpow rd rs1 rs2) s =
        .next { writeX s rd (gfPow ((readX s rs1).setWidth 8) (readX s rs2).toNat).zext with
          cmdcnt := s.cmdcnt + 1 }) ∧
    ((readX s rs1).toNat ≤ 254 →
      exec (.gfexp rd rs1) s =
        .next { writeX s rd (romExp (readX s rs1).toNat).zext with cmdcnt := s.cmdcnt + 1 }) ∧
    (1 ≤ (readX s rs1).toNat → (readX s rs1).toNat ≤ 255 →
      ∃ i, i ≤ 254 ∧ (romExp i).zext = readX s rs1 ∧
        exec (.gflog rd rs1) s = .next { writeX s rd (BitVec.ofNat 32 i) with cmdcnt := s.cmdcnt + 1 })

/-- The GF commands outside the field: RangeError for an operand above 255 (above 254 for GFEXP), ArithmeticError for a
division by 0, whatever the dividend, and for the logarithm of 0 (R102, R105, R107). -/
def Obligations.GfCommandsFault : Prop :=
  ∀ (s : State) (rd rs1 rs2 : XReg),
    (255 < (readX s rs1).toNat ∨ 255 < (readX s rs2).toNat →
      exec (.gfadd rd rs1 rs2) s =
        .next { s with fault := some .rangeError, errcmd := encode (.gfadd rd rs1 rs2) } ∧
      exec (.gfmul rd rs1 rs2) s =
        .next { s with fault := some .rangeError, errcmd := encode (.gfmul rd rs1 rs2) } ∧
      exec (.gfdiv rd rs1 rs2) s =
        .next { s with fault := some .rangeError, errcmd := encode (.gfdiv rd rs1 rs2) }) ∧
    (255 < (readX s rs1).toNat →
      exec (.gfpow rd rs1 rs2) s =
        .next { s with fault := some .rangeError, errcmd := encode (.gfpow rd rs1 rs2) } ∧
      exec (.gflog rd rs1) s = .next { s with fault := some .rangeError, errcmd := encode (.gflog rd rs1) }) ∧
    (254 < (readX s rs1).toNat →
      exec (.gfexp rd rs1) s = .next { s with fault := some .rangeError, errcmd := encode (.gfexp rd rs1) }) ∧
    ((readX s rs1).toNat ≤ 255 → readX s rs2 = 0 →
      exec (.gfdiv rd rs1 rs2) s =
        .next { s with fault := some .arithmeticError, errcmd := encode (.gfdiv rd rs1 rs2) }) ∧
    (readX s rs1 = 0 →
      exec (.gflog rd rs1) s = .next { s with fault := some .arithmeticError, errcmd := encode (.gflog rd rs1) })

/-! ### Polynomial unit (41_polynomial.md) -/

/-- PLD loads the run of bytes, the lowest address first, and PST stores every coefficient at consecutive addresses and
no other byte (R120, R121; the run lies in the space, R65; the memories in canonical form). -/
def Obligations.PolyMemoryCommandsComplete : Prop :=
  ∀ (s : State) (sp : Space) (limit : Nat) (k : PReg) (rs1 rs2 : XReg), RamSize sp limit →
    (1 ≤ (readX s rs2).toNat → (readX s rs2).toNat ≤ 4096 →
      (readX s rs1).toNat + (readX s rs2).toNat ≤ limit →
      exec (.pld k sp rs1 rs2) s =
        .next { writeP s k
            ((List.range (readX s rs2).toNat).map fun i => (ram s sp).read ((readX s rs1).toNat + i)) with
          cmdcnt := s.cmdcnt + 1 }) ∧
    (MemoriesOk s → (readX s rs1).toNat + (readP s k).length ≤ limit →
      ∃ m, exec (.pst k sp rs1) s = .next { setRam s sp m with cmdcnt := s.cmdcnt + 1 } ∧
        ∀ b, m.read b =
          if (readX s rs1).toNat ≤ b ∧ b < (readX s rs1).toNat + (readP s k).length
          then (readP s k).getD (b - (readX s rs1).toNat) 0 else (ram s sp).read b)

/-- PMOV, PDEG, PADD, PMUL, PSCL, PEVAL: only the destination register and `CMDCNT` change (R122 to R127, R130). -/
def Obligations.PolyRegisterCommandsComplete : Prop :=
  ∀ (s : State) (rd rs1 : XReg) (pd pa pb : PReg),
    exec (.pmov pd pa) s = .next { writeP s pd (readP s pa) with cmdcnt := s.cmdcnt + 1 } ∧
    exec (.pdeg rd pa) s =
      .next { writeX s rd (BitVec.ofNat 32 ((readP s pa).length - 1)) with cmdcnt := s.cmdcnt + 1 } ∧
    exec (.padd pd pa pb) s =
      .next { writeP s pd (polyAdd (readP s pa) (readP s pb)) with cmdcnt := s.cmdcnt + 1 } ∧
    ((readP s pa).length + (readP s pb).length - 1 ≤ 4096 →
      exec (.pmul pd pa pb) s =
        .next { writeP s pd (polyMul (readP s pa) (readP s pb)) with cmdcnt := s.cmdcnt + 1 }) ∧
    ((readX s rs1).toNat ≤ 255 →
      exec (.pscl pd pa rs1) s =
        .next { writeP s pd ((readP s pa).map fun c => gfMul c ((readX s rs1).setWidth 8)) with
          cmdcnt := s.cmdcnt + 1 } ∧
      exec (.peval rd pa rs1) s =
        .next { writeX s rd (polyEval (readP s pa) ((readX s rs1).setWidth 8)).zext with
          cmdcnt := s.cmdcnt + 1 })

/-- The coefficients of the pure functions of R128, highest degree first and never normalised (R129): a sum aligns its
operands at the constant term, a product is the convolution, an evaluation is the sum of coefficient times power. -/
def Obligations.PolyFunctionsByCoefficient : Prop :=
  ∀ a b : List Byte, 1 ≤ a.length → 1 ≤ b.length →
    (polyAdd a b).length = max a.length b.length ∧
    (∀ k, (polyAdd a b).reverse.getD k 0 = a.reverse.getD k 0 ^^^ b.reverse.getD k 0) ∧
    (polyMul a b).length = a.length + b.length - 1 ∧
    (∀ k, k < a.length + b.length - 1 →
      (polyMul a b).getD k 0 =
        gfSum a.length fun i => if i ≤ k then gfMul (a.getD i 0) (b.getD (k - i) 0) else 0) ∧
    (∀ t : Byte, polyEval a t = gfSum a.length fun i => gfMul (a.getD i 0) (gfPow t (a.length - 1 - i)))

/-- The polynomial commands out of range: RangeError and nothing written (R120, R121, R125 to R127). -/
def Obligations.PolyCommandsFault : Prop :=
  ∀ (s : State) (sp : Space) (limit : Nat) (rd rs1 rs2 : XReg) (pd pa pb : PReg),
    (RamSize sp limit →
      (readX s rs2 = 0 ∨ 4096 < (readX s rs2).toNat ∨ limit < (readX s rs1).toNat + (readX s rs2).toNat) →
      exec (.pld pd sp rs1 rs2) s =
        .next { s with fault := some .rangeError, errcmd := encode (.pld pd sp rs1 rs2) }) ∧
    (RamSize sp limit → limit < (readX s rs1).toNat + (readP s pa).length →
      exec (.pst pa sp rs1) s = .next { s with fault := some .rangeError, errcmd := encode (.pst pa sp rs1) }) ∧
    (4096 < (readP s pa).length + (readP s pb).length - 1 →
      exec (.pmul pd pa pb) s = .next { s with fault := some .rangeError, errcmd := encode (.pmul pd pa pb) }) ∧
    (255 < (readX s rs1).toNat →
      exec (.pscl pd pa rs1) s = .next { s with fault := some .rangeError, errcmd := encode (.pscl pd pa rs1) } ∧
      exec (.peval rd pa rs1) s = .next { s with fault := some .rangeError, errcmd := encode (.peval rd pa rs1) })

/-! ### Reed-Solomon unit (42_reed_solomon.md) -/

/-- `rs_gen(n)` is monic of degree `n` and is 0 at each of its roots `2^0` .. `2^(n-1)` (R144). -/
def Obligations.GeneratorHasItsRoots : Prop :=
  ∀ n, 1 ≤ n → n ≤ 255 →
    (rsGen n).length = n + 1 ∧ (rsGen n).getD 0 0 = 1 ∧ ∀ i, i < n → polyEval (rsGen n) (romExp i) = 0

/-- The remainder by a generator has exactly its degree's length, and data followed by it is 0 at every root: the
syndrome check (R145). -/
def Obligations.RemainderPassesSyndromeCheck : Prop :=
  ∀ (d : List Byte) (n : Nat), 1 ≤ d.length → 1 ≤ n → n ≤ 255 →
    ∃ e, rsRem d (rsGen n) = .ok e ∧ e.length = n ∧ ∀ i, i < n → polyEval (d ++ e) (romExp i) = 0

/-- RSGEN, RSREM and RSSYN on operands in range: only the destinations and `CMDCNT` change; RSREM's remainder has the
length of the divisor less one (R140, R141, R143, R148). -/
def Obligations.RsRegisterCommandsComplete : Prop :=
  ∀ (s : State) (rd rs1 : XReg) (pd pa pb : PReg),
    (1 ≤ (readX s rs1).toNat → (readX s rs1).toNat ≤ 255 →
      exec (.rsgen pd rs1) s =
        .next { writeP s pd (rsGen (readX s rs1).toNat) with cmdcnt := s.cmdcnt + 1 } ∧
      exec (.rssyn rd pd pa rs1) s =
        .next { writeX
            (writeP s pd ((List.range (readX s rs1).toNat).map fun i => polyEval (readP s pa) (romExp i))) rd
            (BitVec.ofNat 32
              ((List.range (readX s rs1).toNat).countP fun i => polyEval (readP s pa) (romExp i) ≠ 0)) with
          cmdcnt := s.cmdcnt + 1 }) ∧
    (2 ≤ (readP s pb).length → (readP s pa).length + (readP s pb).length - 1 ≤ 4096 →
      (readP s pb).getD 0 0 ≠ 0 →
      ∃ e, rsRem (readP s pa) (readP s pb) = .ok e ∧ e.length = (readP s pb).length - 1 ∧
        exec (.rsrem pd pa pb) s = .next { writeP s pd e with cmdcnt := s.cmdcnt + 1 })

/-- RSENC, with a version set and `DLEN = DATA_CW(VER, ECL)`: `FCW[0..T-1]` holds the interleaved stream of the data
codewords `DCW[0..DLEN-1]`, every other byte is unchanged, `FLEN = T = TOTAL_CW(VER)` (R142). -/
def Obligations.RsencComplete : Prop :=
  ∀ s : State, EngineInv s → s.ver ≠ 0 → s.dlen.toNat = dataCw s.ver.toNat (levelOf s.ecl) →
    ∃ (out : List Byte) (m : Memory),
      interleaved ((List.range s.dlen.toNat).map fun i => s.dcw.read i) (nblk s.ver.toNat (levelOf s.ecl))
        (eccPerBlock s.ver.toNat (levelOf s.ecl)) = .ok out ∧
      out.length = totalCw s.ver.toNat ∧
      exec .rsenc s =
        .next { s with fcw := m, flen := BitVec.ofNat 13 (totalCw s.ver.toNat), cmdcnt := s.cmdcnt + 1 } ∧
      ∀ b, m.read b = if b < totalCw s.ver.toNat then out.getD b 0 else s.fcw.read b

/-- Where block splitting and interleaving put every codeword (R146, R147): with `q = D div B` and `r = D mod B`, data
codeword `i < q` of block `b` is at `i*B + b`, the last one of a long block at `q*B + (b - (B - r))`, and ECC codeword `i`
of block `b` at `D + i*B + b`. -/
def Obligations.InterleavingPositions : Prop :=
  ∀ (data out : List Byte) (B E : Nat), 1 ≤ B → interleaved data B E = .ok out →
    out.length = data.length + B * E ∧
    ∀ b, b < B →
      (∀ i, i < data.length / B →
        out.getD (i * B + b) 0 =
          data.getD (b * (data.length / B) + (b - (B - data.length % B)) + i) 0) ∧
      (B - data.length % B ≤ b →
        out.getD (data.length / B * B + (b - (B - data.length % B))) 0 =
          data.getD (b * (data.length / B) + (b - (B - data.length % B)) + data.length / B) 0) ∧
      ∃ e, rsRem ((data.drop (b * (data.length / B) + (b - (B - data.length % B)))).take
          (data.length / B + if B - data.length % B ≤ b then 1 else 0)) (rsGen E) = .ok e ∧
        ∀ i, i < E → out.getD (data.length + i * B + b) 0 = e.getD i 0

/-- The Reed-Solomon commands' faults in the order tested (R140 to R143). -/
def Obligations.RsCommandsFault : Prop :=
  ∀ (s : State) (rd rs1 : XReg) (pd pa pb : PReg),
    (readX s rs1 = 0 ∨ 255 < (readX s rs1).toNat →
      exec (.rsgen pd rs1) s = .next { s with fault := some .rangeError, errcmd := encode (.rsgen pd rs1) } ∧
      exec (.rssyn rd pd pa rs1) s =
        .next { s with fault := some .rangeError, errcmd := encode (.rssyn rd pd pa rs1) }) ∧
    ((readP s pb).length < 2 ∨ 4096 < (readP s pa).length + (readP s pb).length - 1 →
      exec (.rsrem pd pa pb) s = .next { s with fault := some .rangeError, errcmd := encode (.rsrem pd pa pb) }) ∧
    (2 ≤ (readP s pb).length → (readP s pa).length + (readP s pb).length - 1 ≤ 4096 →
      (readP s pb).getD 0 0 = 0 →
      exec (.rsrem pd pa pb) s =
        .next { s with fault := some .arithmeticError, errcmd := encode (.rsrem pd pa pb) }) ∧
    (s.ver = 0 ∨ s.dlen.toNat ≠ dataCw s.ver.toNat (levelOf s.ecl) →
      exec .rsenc s = .next { s with fault := some .sequenceError, errcmd := encode .rsenc })

/-! ### Bitstream packer (43_bitstream.md) -/

/-- The number of bits of each payload is `payload_bits` of its mode and length (R162 to R165). -/
def Obligations.PayloadLengths : Prop :=
  ∀ ch : List Byte,
    (numericPayload ch).length =
      10 * (ch.length / 3) + (if ch.length % 3 = 0 then 0 else if ch.length % 3 = 1 then 4 else 7) ∧
    (alnumPayload ch).length = 11 * (ch.length / 2) + 6 * (ch.length % 2) ∧
    (bytePayload ch).length = 8 * ch.length

/-- BAPP and BSEG in stage 0, with room and with what the mode can carry: exactly the bits of the rule are appended, most
significant first; nothing else but `CMDCNT` changes (R160, R161, R170, R173). What the payloads hold: three digits in 10
bits as their decimal reading, the last two in 7 or the last one in 4 (R162); two symbols of the 45-symbol table as
`45*v1 + v2` in 11 bits, the last one in 6 (R35, R163); every byte verbatim (R164). -/
def Obligations.SegmentCommandsComplete : Prop :=
  (∀ (s : State) (m : Mode) (rs1 rs2 : XReg), s.bstage = 0 →
    ((readX s rs2).toNat ≤ 32 → (readX s rs1).toNat < 2 ^ (readX s rs2).toNat →
      s.bb.length + (readX s rs2).toNat ≤ 23648 →
      exec (.bapp rs1 rs2) s =
        .next { s with
          bb := s.bb ++ (List.range (readX s rs2).toNat).map fun k =>
            (readX s rs1).getLsbD ((readX s rs2).toNat - 1 - k)
          cmdcnt := s.cmdcnt + 1 }) ∧
    (∀ ch : List Byte,
      ch = (List.range (readX s rs2).toNat).map (fun i => s.inp.read ((readX s rs1).toNat + i)) →
      s.ver ≠ 0 → m ≠ .kanji → 1 ≤ (readX s rs2).toNat →
      (readX s rs1).toNat + (readX s rs2).toNat ≤ 8192 →
      (readX s rs2).toNat < 2 ^ ccBits m s.ver.toNat →
      (m = .numeric → ∀ c ∈ ch, 0x30 ≤ c.toNat ∧ c.toNat ≤ 0x39) →
      (m = .alphanumeric → ∀ c ∈ ch, c.toNat ∈ alnumTable) →
      s.bb.length + (4 + ccBits m s.ver.toNat + payloadBits m (readX s rs2).toNat) ≤ 23648 →
      exec (.bseg m rs1 rs2) s =
        .next { s with
          bb := s.bb ++ (bitsOf m.number 4 ++ bitsOf (readX s rs2).toNat (ccBits m s.ver.toNat) ++
            (match m with
             | .numeric => numericPayload ch
             | .alphanumeric => alnumPayload ch
             | .byte => bytePayload ch
             | .kanji => []))
          cmdcnt := s.cmdcnt + 1 })) ∧
  (∀ (ch : List Byte) (d : Nat → Nat), (∀ i, d i = (ch.getD i 0).toNat - 0x30) →
    (∀ c ∈ ch, 0x30 ≤ c.toNat ∧ c.toNat ≤ 0x39) →
    (∀ k j, 3 * k + 2 < ch.length → j < 10 →
      (numericPayload ch).getD (10 * k + j) false =
        Nat.testBit (100 * d (3 * k) + 10 * d (3 * k + 1) + d (3 * k + 2)) (9 - j)) ∧
    (∀ k j, ch.length = 3 * k + 2 → j < 7 →
      (numericPayload ch).getD (10 * k + j) false = Nat.testBit (10 * d (3 * k) + d (3 * k + 1)) (6 - j)) ∧
    (∀ k j, ch.length = 3 * k + 1 → j < 4 →
      (numericPayload ch).getD (10 * k + j) false = Nat.testBit (d (3 * k)) (3 - j))) ∧
  alnumTable = "0123456789ABCDEFGHIJKLMNOPQRSTUVWXYZ $%*+-./:".toList.map Char.toNat ∧
  (∀ (ch : List Byte) (a : Nat → Nat), (∀ i, a i = alnumTable.idxOf (ch.getD i 0).toNat) →
    (∀ c ∈ ch, c.toNat ∈ alnumTable) →
    (∀ k j, 2 * k + 1 < ch.length → j < 11 →
      (alnumPayload ch).getD (11 * k + j) false = Nat.testBit (45 * a (2 * k) + a (2 * k + 1)) (10 - j)) ∧
    (∀ k j, ch.length = 2 * k + 1 → j < 6 →
      (alnumPayload ch).getD (11 * k + j) false = Nat.testBit (a (2 * k)) (5 - j))) ∧
  (∀ (ch : List Byte) (k j : Nat), k < ch.length → j < 8 →
    (bytePayload ch).getD (8 * k + j) false = Nat.testBit (ch.getD k 0).toNat (7 - j))

/-- BTERM, BALIGN, BPAD in their stages: the terminator of up to 4 zero bits bounded by the capacity, the zero bits to the
byte boundary, the alternating pad codewords up to `DATA_CW`; the stage moves on (R166, R167, R168, R171). -/
def Obligations.ClosingCommandsComplete : Prop :=
  ∀ s : State,
    (s.ver ≠ 0 → s.bstage = 0 → 1 ≤ s.bb.length → s.bb.length ≤ 8 * dataCw s.ver.toNat (levelOf s.ecl) →
      exec .bterm s =
        .next { s with
          bb := s.bb ++ List.replicate (min 4 (8 * dataCw s.ver.toNat (levelOf s.ecl) - s.bb.length)) false
          totbits := BitVec.ofNat 15 s.bb.length
          bstage := 1
          cmdcnt := s.cmdcnt + 1 }) ∧
    (s.bstage = 1 →
      exec .balign s =
        .next { s with
          bb := s.bb ++ List.replicate ((8 - s.bb.length % 8) % 8) false
          bstage := 2
          cmdcnt := s.cmdcnt + 1 }) ∧
    (s.bstage = 2 → EngineInv s →
      ∃ pad : List Bool,
        exec .bpad s = .next { s with bb := s.bb ++ pad, bstage := 3, cmdcnt := s.cmdcnt + 1 } ∧
        s.bb.length + pad.length = 8 * dataCw s.ver.toNat (levelOf s.ecl) ∧
        ∀ k j, j < 8 → 8 * k + j < pad.length →
          pad.getD (8 * k + j) false = Nat.testBit (if k % 2 = 0 then 0xEC else 0x11) (7 - j))

/-- BFLUSH in every stage: `DCW[k]` gets bits `8k` .. `8k+7` of the buffer, bit `8k` as its bit 7, zero-padded on the final
partial byte; the other bytes of DCW and the buffer are unchanged; `DLEN` is the number of bytes (R169). -/
def Obligations.BflushStoresCodewords : Prop :=
  ∀ s : State, EngineInv s →
    ∃ m : Memory,
      exec .bflush s =
        .next { s with dcw := m, dlen := BitVec.ofNat 13 ((s.bb.length + 7) / 8), cmdcnt := s.cmdcnt + 1 } ∧
      (∀ k j, k < (s.bb.length + 7) / 8 → j < 8 → (m.read k).getLsbD (7 - j) = s.bb.getD (8 * k + j) false) ∧
      (∀ b, (s.bb.length + 7) / 8 ≤ b → m.read b = s.dcw.read b)

/-- The packer's faults in the order tested: the version, the stage, then the operands (R160, R161, R166 to R168, R171). -/
def Obligations.PackerCommandsFault : Prop :=
  ∀ (s : State) (m : Mode) (rs1 rs2 : XReg),
    (s.bstage ≠ 0 →
      exec (.bapp rs1 rs2) s = .next { s with fault := some .sequenceError, errcmd := encode (.bapp rs1 rs2) }) ∧
    (s.bstage = 0 → 32 < (readX s rs2).toNat ∨ 2 ^ (readX s rs2).toNat ≤ (readX s rs1).toNat →
      exec (.bapp rs1 rs2) s = .next { s with fault := some .rangeError, errcmd := encode (.bapp rs1 rs2) }) ∧
    (s.bstage = 0 → (readX s rs2).toNat ≤ 32 → (readX s rs1).toNat < 2 ^ (readX s rs2).toNat →
      23648 < s.bb.length + (readX s rs2).toNat →
      exec (.bapp rs1 rs2) s =
        .next { s with fault := some .capacityExceeded, errcmd := encode (.bapp rs1 rs2) }) ∧
    (∃ t, exec (.bseg m rs1 rs2) s = .next t ∧
      let n := (readX s rs2).toNat
      let a := (readX s rs1).toNat
      let ch := (List.range n).map fun i => s.inp.read (a + i)
      let failed : Option ErrCode :=
        if s.ver = 0 ∨ s.bstage ≠ 0 then some .sequenceError
        else if m = .kanji then some .invalidOption
        else if n = 0 then some .invalidInput
        else if 8192 < a + n then some .rangeError
        else if 2 ^ ccBits m s.ver.toNat ≤ n then some .capacityExceeded
        else if (m = .numeric ∧ ∃ c ∈ ch, c.toNat < 0x30 ∨ 0x39 < c.toNat)
          ∨ (m = .alphanumeric ∧ ∃ c ∈ ch, c.toNat ∉ alnumTable) then some .invalidInput
        else if 23648 < s.bb.length + (4 + ccBits m s.ver.toNat + payloadBits m n) then some .capacityExceeded
        else none
      ∀ e, failed = some e → t = { s with fault := some e, errcmd := encode (.bseg m rs1 rs2) }) ∧
    (s.ver = 0 ∨ s.bstage ≠ 0 →
      exec .bterm s = .next { s with fault := some .sequenceError, errcmd := encode .bterm }) ∧
    (s.ver ≠ 0 → s.bstage = 0 → s.bb = [] →
      exec .bterm s = .next { s with fault := some .invalidInput, errcmd := encode .bterm }) ∧
    (s.ver ≠ 0 → s.bstage = 0 → s.bb ≠ [] → 8 * dataCw s.ver.toNat (levelOf s.ecl) < s.bb.length →
      exec .bterm s = .next { s with fault := some .capacityExceeded, errcmd := encode .bterm }) ∧
    (s.bstage ≠ 1 → exec .balign s = .next { s with fault := some .sequenceError, errcmd := encode .balign }) ∧
    (s.bstage ≠ 2 → exec .bpad s = .next { s with fault := some .sequenceError, errcmd := encode .bpad })

/-- The bit buffer is append-only: no command but CLEAR removes or changes a bit, and only BAPP, BSEG, BTERM, BALIGN and
BPAD append (R42, R61). -/
def Obligations.BufferIsAppendOnly : Prop :=
  ∀ (s t : State) (i : Instr), exec i s = .next t → i ≠ .clear →
    ∃ bs, t.bb = s.bb ++ bs ∧ (appendsBits i = false → bs = [])

/-! ### Matrix engine (44_matrix_patterns.md, 45_matrix_data_mask.md) -/

/-- MINIT, MFIND, MTIME, MALIGN, MRSV in their phases; run in order from phase 0 they make the function pattern of
the version 1..40 that is set (R180 to R185, R188). -/
def Obligations.PatternCommandsComplete : Prop :=
  (∀ s : State, s.ver ≠ 0 → s.ver.toNat ≤ 40 → s.phase = 0 →
    ∃ t1 t2 t3 t4 t5,
      exec .minit s = .next t1 ∧ exec .mfind t1 = .next t2 ∧ exec .mtime t2 = .next t3 ∧
      exec .malign t3 = .next t4 ∧ exec .mrsv t4 = .next t5 ∧
      t5.mat = functionPattern s.ver.toNat ∧ t5.size.toNat = 4 * s.ver.toNat + 17 ∧ t5.phase = 5) ∧
  ∀ s : State,
    (s.ver ≠ 0 → s.phase = 0 →
      exec .minit s =
        .next { s with
          size := BitVec.ofNat 8 (4 * s.ver.toNat + 17)
          mat := emptyGrid (4 * s.ver.toNat + 17)
          mask := 0
          phase := 1
          cmdcnt := s.cmdcnt + 1 }) ∧
    (s.phase = 1 →
      exec .mfind s =
        .next { s with mat := s.mat.setfAll (finderCells s.size.toNat), phase := 2, cmdcnt := s.cmdcnt + 1 }) ∧
    (s.phase = 2 →
      exec .mtime s =
        .next { s with mat := s.mat.setfAll (timingCells s.size.toNat), phase := 3, cmdcnt := s.cmdcnt + 1 }) ∧
    (s.phase = 3 →
      exec .malign s =
        .next { s with
          mat := s.mat.setfAll (alignmentCells s.size.toNat s.ver.toNat), phase := 4, cmdcnt := s.cmdcnt + 1 }) ∧
    (s.phase = 4 →
      exec .mrsv s =
        .next { s with
          mat := ((s.mat.reserveAll (formatCells s.size.toNat)).setf (s.size.toNat - 8, 8) .dark).reserveAll
            (versionCells s.size.toNat s.ver.toNat)
          phase := 5
          cmdcnt := s.cmdcnt + 1 })

/-- The function-pattern map of version 1 after MRSV is R190's picture. -/
def Obligations.Version1FunctionMap : Prop :=
  picture (functionPattern 1) =
    ["#######.f????.#######".toList,
     "#.....#.f????.#.....#".toList,
     "#.###.#.f????.#.###.#".toList,
     "#.###.#.f????.#.###.#".toList,
     "#.###.#.f????.#.###.#".toList,
     "#.....#.f????.#.....#".toList,
     "#######.#.#.#.#######".toList,
     "........f????........".toList,
     "ffffff#ff????ffffffff".toList,
     "??????.??????????????".toList,
     "??????#??????????????".toList,
     "??????.??????????????".toList,
     "??????#??????????????".toList,
     "........#????????????".toList,
     "#######.f????????????".toList,
     "#.....#.f????????????".toList,
     "#.###.#.f????????????".toList,
     "#.###.#.f????????????".toList,
     "#.###.#.f????????????".toList,
     "#.....#.f????????????".toList,
     "#######.f????????????".toList]

/-- After MRSV the number of unreserved cells is R186's `N(v)`, which is 8 times `TOTAL_CW` plus `REM_BITS` (R36): the two
formulas agree at every version, and the cells of the function pattern are counted at versions 1, 2, 7 and 14, which have
0, 2, 3 and 4 alignment coordinates and lie on both sides of the version blocks. -/
def Obligations.UnreservedCellCount : Prop :=
  (∀ v, 1 ≤ v → v ≤ 40 →
    8 * totalCw v + remBits v =
      16 * v * v + 128 * v + 64 - (if v = 1 then 0 else 25 * (v / 7 + 2) * (v / 7 + 2) - 10 * (v / 7 + 2) - 55)
        - (if 7 ≤ v then 36 else 0)) ∧
  ∀ v ∈ [1, 2, 7, 14], unreservedCount (functionPattern v) = 8 * totalCw v + remBits v

/-- The scan visits every unreserved cell outside column 6 exactly once and no other cell, in the order of R201: strips of
two columns from the right, the first swept upward, the next downward and so on, the right cell of a row before the left
(`zigzagRank`). -/
def Obligations.ScanVisitsUnreservedCells : Prop :=
  ∀ (g : Grid) (v : Nat), 1 ≤ v → v ≤ 40 → GridOk g (sideOf v) →
    (scanOrder g (sideOf v)).Nodup ∧
    (∀ r c, (r, c) ∈ scanOrder g (sideOf v) ↔
      r < sideOf v ∧ c < sideOf v ∧ c ≠ 6 ∧ (g.cell r c).reserved = false) ∧
    (scanOrder g (sideOf v)).Pairwise fun a b => zigzagRank (sideOf v) a < zigzagRank (sideOf v) b

/-- MDATA in phase 5 with `FLEN = TOTAL_CW(VER)`: cell `k` of the scan gets bit `k` of the codeword stream (codeword 0
first, bit 7 of each first; 1 is Dark) and Light past the stream; no other cell, no reservation and no other state but
`PHASE` and `CMDCNT` changes (R200, R201). -/
def Obligations.MdataPlacesStream : Prop :=
  ∀ s : State, GridOk s.mat s.size.toNat → s.phase = 5 → s.flen.toNat = totalCw s.ver.toNat →
    ∃ g : Grid,
      exec .mdata s = .next { s with mat := g, phase := 6, cmdcnt := s.cmdcnt + 1 } ∧
      (∀ k r c, (scanOrder s.mat s.size.toNat)[k]? = some (r, c) →
        g.cell r c =
          ⟨if k < 8 * s.flen.toNat ∧ (s.fcw.read (k / 8)).getLsbD (7 - k % 8) = true then .dark else .light,
           false⟩) ∧
      (∀ r c, (r, c) ∉ scanOrder s.mat s.size.toNat → g.cell r c = s.mat.cell r c)

/-- MMASK in phase 6 with a mask id 0..7: exactly the unreserved cells where the condition holds are inverted (Dark to
Light, else to Dark), `MASK` and `PHASE` are set; a mask applied twice restores a matrix whose unreserved cells are
all set (R202, R203); the eight conditions are those of R204's table. -/
def Obligations.MmaskInvertsCells : Prop :=
  (∀ (s : State) (rs1 : XReg), s.phase = 6 → (readX s rs1).toNat ≤ 7 →
    ∃ g : Grid,
      exec (.mmask rs1) s =
        .next { s with
          mat := g, mask := BitVec.ofNat 4 (8 + (readX s rs1).toNat), phase := 7, cmdcnt := s.cmdcnt + 1 } ∧
      g = applyMask s.mat (readX s rs1).toNat ∧
      (GridOk s.mat s.size.toNat → ∀ r c, r < s.size.toNat → c < s.size.toNat →
        g.cell r c =
          if (s.mat.cell r c).reserved = false ∧ maskCond (readX s rs1).toNat r c = true
          then ⟨if (s.mat.cell r c).colour = .dark then .light else .dark, false⟩
          else s.mat.cell r c)) ∧
  (∀ (g : Grid) (k : Nat), (∀ row ∈ g, ∀ m ∈ row, m.reserved = false → m.colour ≠ .unset) →
    applyMask (applyMask g k) k = g) ∧
  (∀ r c : Nat,
    (maskCond 0 r c = true ↔ (r + c) % 2 = 0) ∧ (maskCond 1 r c = true ↔ r % 2 = 0) ∧
    (maskCond 2 r c = true ↔ c % 3 = 0) ∧ (maskCond 3 r c = true ↔ (r + c) % 3 = 0) ∧
    (maskCond 4 r c = true ↔ (r / 2 + c / 3) % 2 = 0) ∧ (maskCond 5 r c = true ↔ r * c % 2 + r * c % 3 = 0) ∧
    (maskCond 6 r c = true ↔ (r * c % 2 + r * c % 3) % 2 = 0) ∧
    (maskCond 7 r c = true ↔ ((r + c) % 2 + r * c % 3) % 2 = 0))

/-- MPEN in phase 6 or later: the register and `PEN` get the penalty of the matrix as it stands, nothing else but `CMDCNT`
changes (R209). The penalty of a matrix is the sum of the four rules over its rows read left to right and its columns read
top to bottom, a cell dark where it is Dark and light where it is Light or Unset (R205), the fourth rule being
`10 * (|20*dark - 10*total| div total)` (R211); it fits 32 bits on every matrix of a version's side. -/
def Obligations.MpenScoresMatrix : Prop :=
  (∀ (s : State) (rd : XReg), 6 ≤ s.phase.toNat →
    exec (.mpen rd) s =
      .next { writeX s rd (BitVec.ofNat 32 (penalty s.size.toNat s.mat)) with
        pen := BitVec.ofNat 32 (penalty s.size.toNat s.mat), cmdcnt := s.cmdcnt + 1 }) ∧
  (∀ (g : Grid) (S : Nat), GridOk g S →
    penalty S g =
      penaltyA (rowLines S g ++ columnLines S g) + penaltyB (rowLines S g) +
        penaltyC (rowLines S g ++ columnLines S g) +
        10 * ((20 * (darkCount S g : Int) - 10 * (S * S : Int)).natAbs / (S * S))) ∧
  (∀ (g : Grid) (S : Nat), GridOk g S → 21 ≤ S → S ≤ 177 → penalty S g < 2 ^ 32)

/-- The penalty terms by position: the 2 by 2 blocks of equal modules at every `(r, c)`, 3 each (R207); the windows of 7
modules dark, light, dark, dark, dark, light, dark of a line, 40 each (R208). -/
def Obligations.PenaltyCountsPositions : Prop :=
  (∀ (rows : List (List Bool)) (S : Nat), rows.length = S → (∀ row ∈ rows, row.length = S) →
    penaltyB rows =
      3 * ((List.range (S - 1)).map fun r => (List.range (S - 1)).countP fun c =>
        bitAt rows r c = bitAt rows r (c + 1) ∧ bitAt rows r c = bitAt rows (r + 1) c ∧
          bitAt rows r c = bitAt rows (r + 1) (c + 1)).sum) ∧
  (∀ ls : List (List Bool),
    penaltyC ls =
      40 * (ls.map fun line => (List.range (line.length - 6)).countP fun i =>
        (line.drop i).take 7 = [true, false, true, true, true, false, true]).sum)

/-- The penalty of runs: every maximal run of `L >= 5` equal modules of a line adds `L - 2`, once (R206). -/
def Obligations.PenaltyOfMaximalRuns : Prop :=
  ∀ ls : List (List Bool),
    penaltyA ls =
      (ls.map fun line => ((List.range line.length).map fun i => ((List.range (line.length + 1)).map fun n =>
        if 5 ≤ n ∧ isMaximalRun line i n = true then n - 2 else 0).sum).sum).sum

/-- MSEL in phase 6: `PENV0..7` are the penalties of the eight masked copies of the matrix, the mask applied is the
smallest id with the least of them, `PEN` is its penalty (R210). -/
def Obligations.MselTakesLeastPenalty : Prop :=
  ∀ s : State, s.phase = 6 →
    ∃ best : Nat, best ≤ 7 ∧
      (∀ k, k ≤ 7 → penalty s.size.toNat (applyMask s.mat best) ≤ penalty s.size.toNat (applyMask s.mat k)) ∧
      (∀ k, k < best → penalty s.size.toNat (applyMask s.mat best) < penalty s.size.toNat (applyMask s.mat k)) ∧
      exec .msel s =
        .next { s with
          penv := Vector.ofFn fun k : Fin 8 => BitVec.ofNat 32 (penalty s.size.toNat (applyMask s.mat k.val))
          pen := BitVec.ofNat 32 (penalty s.size.toNat (applyMask s.mat best))
          mat := applyMask s.mat best
          mask := BitVec.ofNat 4 (8 + best)
          phase := 7
          cmdcnt := s.cmdcnt + 1 }

/-- Each matrix command and each command of the information placer faults SequenceError outside its phase, MINIT without a
version, MDATA on a stream that is not the version's length; MMASK refuses a mask id above 7 (R30, R188, R314). -/
def Obligations.MatrixCommandsFault : Prop :=
  ∀ (s : State) (rd rs1 : XReg),
    (s.ver = 0 ∨ s.phase ≠ 0 →
      exec .minit s = .next { s with fault := some .sequenceError, errcmd := encode .minit }) ∧
    (s.phase ≠ 1 → exec .mfind s = .next { s with fault := some .sequenceError, errcmd := encode .mfind }) ∧
    (s.phase ≠ 2 → exec .mtime s = .next { s with fault := some .sequenceError, errcmd := encode .mtime }) ∧
    (s.phase ≠ 3 → exec .malign s = .next { s with fault := some .sequenceError, errcmd := encode .malign }) ∧
    (s.phase ≠ 4 → exec .mrsv s = .next { s with fault := some .sequenceError, errcmd := encode .mrsv }) ∧
    (s.phase ≠ 5 ∨ s.flen.toNat ≠ totalCw s.ver.toNat →
      exec .mdata s = .next { s with fault := some .sequenceError, errcmd := encode .mdata }) ∧
    (s.phase ≠ 6 →
      exec (.mmask rs1) s = .next { s with fault := some .sequenceError, errcmd := encode (.mmask rs1) } ∧
      exec .msel s = .next { s with fault := some .sequenceError, errcmd := encode .msel }) ∧
    (s.phase = 6 → 7 < (readX s rs1).toNat →
      exec (.mmask rs1) s = .next { s with fault := some .invalidOption, errcmd := encode (.mmask rs1) }) ∧
    (s.phase.toNat < 6 →
      exec (.mpen rd) s = .next { s with fault := some .sequenceError, errcmd := encode (.mpen rd) }) ∧
    (s.phase ≠ 7 → exec .ifmt s = .next { s with fault := some .sequenceError, errcmd := encode .ifmt }) ∧
    (s.phase ≠ 8 → exec .iver s = .next { s with fault := some .sequenceError, errcmd := encode .iver })

/-- The matrix is built in order: no command but CLEAR moves `PHASE` back, and a command moves it on by one at most, only
where it writes the matrix; in phase 9 no command but CLEAR changes the matrix, `SIZE`, `MASK` or `PHASE` (R30, R45). -/
def Obligations.MatrixPhasesAreOrdered : Prop :=
  ∀ (s t : State) (i : Instr), exec i s = .next t → i ≠ .clear →
    (t.phase = s.phase ∨ (t.phase = s.phase + 1 ∧ writesMat i = true)) ∧
    (t.phase = s.phase → t.mat = s.mat ∧ t.size = s.size ∧ t.mask = s.mask) ∧
    (s.phase = 9 → t.phase = 9 ∧ t.mat = s.mat ∧ t.size = s.size ∧ t.mask = s.mask)

/-! ### Information placer (46_information.md) -/

/-- IFMT in phase 7: bit `i` of the format word is at both its cells, every other cell and every reservation is as before,
`FMT` is the word, `PHASE` 8 (R222, R223). IVER in phase 8: the same of the version word from version 7 on; below it no
cell changes and `VINF` is 0; `PHASE` 9 (R224, R225). -/
def Obligations.InformationIsPlaced : Prop :=
  ∀ s : State, EngineInv s →
    (s.phase = 7 →
      ∃ g : Grid,
        exec .ifmt s =
          .next { s with
            mat := g
            fmt := BitVec.ofNat 15 (bchFmt (8 * s.ecl.toNat + s.mask.toNat % 8))
            phase := 8
            cmdcnt := s.cmdcnt + 1 } ∧
        (∀ i, i ≤ 14 → ∀ rc, rc = fmt1 i ∨ rc = fmt2 s.size.toNat i →
          g.cell rc.1 rc.2 =
            { s.mat.cell rc.1 rc.2 with
              colour := if (bchFmt (8 * s.ecl.toNat + s.mask.toNat % 8)).testBit i then .dark else .light }) ∧
        (∀ r c, (∀ i, i ≤ 14 → (r, c) ≠ fmt1 i ∧ (r, c) ≠ fmt2 s.size.toNat i) →
          g.cell r c = s.mat.cell r c)) ∧
    (s.phase = 8 → 7 ≤ s.ver.toNat →
      ∃ g : Grid,
        exec .iver s =
          .next { s with
            mat := g, vinf := BitVec.ofNat 18 (bchVer s.ver.toNat), phase := 9, cmdcnt := s.cmdcnt + 1 } ∧
        (∀ i, i ≤ 17 → ∀ rc, rc = verTr s.size.toNat i ∨ rc = verBl s.size.toNat i →
          g.cell rc.1 rc.2 =
            { s.mat.cell rc.1 rc.2 with
              colour := if (bchVer s.ver.toNat).testBit i then .dark else .light }) ∧
        (∀ r c, (∀ i, i ≤ 17 → (r, c) ≠ verTr s.size.toNat i ∧ (r, c) ≠ verBl s.size.toNat i) →
          g.cell r c = s.mat.cell r c)) ∧
    (s.phase = 8 → s.ver.toNat < 7 →
      exec .iver s = .next { s with vinf := 0, phase := 9, cmdcnt := s.cmdcnt + 1 })

/-- BCHF of 0..31 and BCHV of 0..63 write the format and the version word; any larger operand is RangeError (R220, R221).
The 32 format words, and the version words of versions 7 to 40, are those of the tables of R226 and R227. -/
def Obligations.BchCommands : Prop :=
  (∀ (s : State) (rd rs1 : XReg),
    ((readX s rs1).toNat ≤ 31 →
      exec (.bchf rd rs1) s =
        .next { writeX s rd (BitVec.ofNat 32 (bchFmt (readX s rs1).toNat)) with cmdcnt := s.cmdcnt + 1 }) ∧
    (31 < (readX s rs1).toNat →
      exec (.bchf rd rs1) s = .next { s with fault := some .rangeError, errcmd := encode (.bchf rd rs1) }) ∧
    ((readX s rs1).toNat ≤ 63 →
      exec (.bchv rd rs1) s =
        .next { writeX s rd (BitVec.ofNat 32 (bchVer (readX s rs1).toNat)) with cmdcnt := s.cmdcnt + 1 }) ∧
    (63 < (readX s rs1).toNat →
      exec (.bchv rd rs1) s = .next { s with fault := some .rangeError, errcmd := encode (.bchv rd rs1) })) ∧
  (List.range 32).map bchFmt =
    [0x5412, 0x5125, 0x5E7C, 0x5B4B, 0x45F9, 0x40CE, 0x4F97, 0x4AA0, 0x77C4, 0x72F3, 0x7DAA, 0x789D, 0x662F, 0x6318,
     0x6C41, 0x6976, 0x1689, 0x13BE, 0x1CE7, 0x19D0, 0x0762, 0x0255, 0x0D0C, 0x083B, 0x355F, 0x3068, 0x3F31, 0x3A06,
     0x24B4, 0x2183, 0x2EDA, 0x2BED] ∧
  (List.range 34).map (fun k => bchVer (k + 7)) =
    [0x07C94, 0x085BC, 0x09A99, 0x0A4D3, 0x0BBF6, 0x0C762, 0x0D847, 0x0E60D, 0x0F928, 0x10B78, 0x1145D, 0x12A17,
     0x13532, 0x149A6, 0x15683, 0x168C9, 0x177EC, 0x18EC4, 0x191E1, 0x1AFAB, 0x1B08E, 0x1CC1A, 0x1D33F, 0x1ED75,
     0x1F250, 0x209D5, 0x216F0, 0x228BA, 0x2379F, 0x24B0B, 0x2542E, 0x26A64, 0x27541, 0x28C69]

/-! ### System commands (48_system_commands.md) -/

/-- NOP, HALT, LDI, MOV and CSRR complete in every state the engine runs them in; CSRR reads the value before its own
count (R260, R261, R263, R264, R267). CSRW of VER and ECL completes inside the write window, of DLEN and FLEN at any time:
the whole register value is tested, and only that CSR and `CMDCNT` change (R268, R269). -/
def Obligations.SystemCommandsComplete : Prop :=
  ∀ (s : State) (rd rs1 : XReg) (imm : BitVec 16) (csr : Csr),
    exec .nop s = .next { s with cmdcnt := s.cmdcnt + 1 } ∧
    exec .halt s = .next { s with halted := true, cmdcnt := s.cmdcnt + 1 } ∧
    exec (.ldi rd imm) s = .next { writeX s rd (imm.setWidth 32) with cmdcnt := s.cmdcnt + 1 } ∧
    exec (.mov rd rs1) s = .next { writeX s rd (readX s rs1) with cmdcnt := s.cmdcnt + 1 } ∧
    exec (.csrr rd csr) s = .next { writeX s rd (csrRead s csr) with cmdcnt := s.cmdcnt + 1 } ∧
    (s.phase = 0 → s.bb = [] → s.flen = 0 →
      (1 ≤ (readX s rs1).toNat → (readX s rs1).toNat ≤ 40 →
        exec (.csrw .ver rs1) s = .next { s with ver := (readX s rs1).setWidth 6, cmdcnt := s.cmdcnt + 1 }) ∧
      ((readX s rs1).toNat ≤ 3 →
        exec (.csrw .ecl rs1) s = .next { s with ecl := (readX s rs1).setWidth 2, cmdcnt := s.cmdcnt + 1 })) ∧
    ((readX s rs1).toNat ≤ 4096 →
      exec (.csrw .dlen rs1) s = .next { s with dlen := (readX s rs1).setWidth 13, cmdcnt := s.cmdcnt + 1 } ∧
      exec (.csrw .flen rs1) s = .next { s with flen := (readX s rs1).setWidth 13, cmdcnt := s.cmdcnt + 1 })

/-- LDB from each of the seven spaces, at every address of the space: the byte or bit, zero-extended (R66, R265). -/
def Obligations.LdbReadsEverySpace : Prop :=
  ∀ (s : State) (rd rs1 : XReg) (a : Nat), a = (readX s rs1).toNat →
    (a ≤ 8191 →
      exec (.ldb rd .inp rs1) s = .next { writeX s rd (s.inp.read a).zext with cmdcnt := s.cmdcnt + 1 }) ∧
    (a ≤ 4095 →
      exec (.ldb rd .dcw rs1) s = .next { writeX s rd (s.dcw.read a).zext with cmdcnt := s.cmdcnt + 1 } ∧
      exec (.ldb rd .fcw rs1) s = .next { writeX s rd (s.fcw.read a).zext with cmdcnt := s.cmdcnt + 1 }) ∧
    (a ≤ 254 →
      exec (.ldb rd .exp rs1) s = .next { writeX s rd (romExp a).zext with cmdcnt := s.cmdcnt + 1 }) ∧
    (1 ≤ a → a ≤ 255 →
      ∃ i, i ≤ 254 ∧ (romExp i).toNat = a ∧
        exec (.ldb rd .log rs1) s = .next { writeX s rd (BitVec.ofNat 32 i) with cmdcnt := s.cmdcnt + 1 }) ∧
    (a < s.size.toNat * s.size.toNat →
      exec (.ldb rd .mat rs1) s =
        .next { writeX s rd (s.mat.cell (a / s.size.toNat) (a % s.size.toNat)).byte.zext with
          cmdcnt := s.cmdcnt + 1 }) ∧
    (∀ h : a < s.bb.length,
      exec (.ldb rd .bb rs1) s =
        .next { writeX s rd (if s.bb[a] then 1 else 0) with cmdcnt := s.cmdcnt + 1 })

/-- STB of a byte at an address of IN, DCW or FCW: that one byte changes, no other byte and nothing else but `CMDCNT`
(R62, R67, R266; the memories in canonical form). -/
def Obligations.StbStoresOneByte : Prop :=
  ∀ (s : State) (sp : Space) (limit : Nat) (rs1 rs2 : XReg), RamSize sp limit → MemoriesOk s →
    (readX s rs1).toNat < limit → (readX s rs2).toNat ≤ 255 →
    ∃ m, exec (.stb sp rs1 rs2) s = .next { setRam s sp m with cmdcnt := s.cmdcnt + 1 } ∧
      ∀ b, m.read b = if b = (readX s rs1).toNat then (readX s rs2).setWidth 8 else (ram s sp).read b

/-- The faults of LDB, STB and CSRW, in the order tested (R64, R265, R266, R268). -/
def Obligations.SystemCommandsFault : Prop :=
  ∀ (s : State) (rd rs1 rs2 : XReg) (sp : Space) (limit : Nat),
    (RamSize sp limit → limit ≤ (readX s rs1).toNat →
      exec (.ldb rd sp rs1) s = .next { s with fault := some .rangeError, errcmd := encode (.ldb rd sp rs1) }) ∧
    (254 < (readX s rs1).toNat →
      exec (.ldb rd .exp rs1) s =
        .next { s with fault := some .rangeError, errcmd := encode (.ldb rd .exp rs1) }) ∧
    (255 < (readX s rs1).toNat →
      exec (.ldb rd .log rs1) s =
        .next { s with fault := some .rangeError, errcmd := encode (.ldb rd .log rs1) }) ∧
    (readX s rs1 = 0 →
      exec (.ldb rd .log rs1) s =
        .next { s with fault := some .arithmeticError, errcmd := encode (.ldb rd .log rs1) }) ∧
    (s.size.toNat * s.size.toNat ≤ (readX s rs1).toNat →
      exec (.ldb rd .mat rs1) s =
        .next { s with fault := some .rangeError, errcmd := encode (.ldb rd .mat rs1) }) ∧
    (s.bb.length ≤ (readX s rs1).toNat →
      exec (.ldb rd .bb rs1) s =
        .next { s with fault := some .rangeError, errcmd := encode (.ldb rd .bb rs1) }) ∧
    (RamSize sp limit → (limit ≤ (readX s rs1).toNat ∨ 255 < (readX s rs2).toNat) →
      exec (.stb sp rs1 rs2) s = .next { s with fault := some .rangeError, errcmd := encode (.stb sp rs1 rs2) }) ∧
    (s.phase ≠ 0 ∨ s.bb ≠ [] ∨ s.flen ≠ 0 →
      exec (.csrw .ver rs1) s =
        .next { s with fault := some .sequenceError, errcmd := encode (.csrw .ver rs1) } ∧
      exec (.csrw .ecl rs1) s =
        .next { s with fault := some .sequenceError, errcmd := encode (.csrw .ecl rs1) }) ∧
    (s.phase = 0 → s.bb = [] → s.flen = 0 →
      (readX s rs1 = 0 ∨ 40 < (readX s rs1).toNat →
        exec (.csrw .ver rs1) s =
          .next { s with fault := some .invalidOption, errcmd := encode (.csrw .ver rs1) }) ∧
      (3 < (readX s rs1).toNat →
        exec (.csrw .ecl rs1) s =
          .next { s with fault := some .invalidOption, errcmd := encode (.csrw .ecl rs1) })) ∧
    (4096 < (readX s rs1).toNat →
      exec (.csrw .dlen rs1) s =
        .next { s with fault := some .rangeError, errcmd := encode (.csrw .dlen rs1) } ∧
      exec (.csrw .flen rs1) s =
        .next { s with fault := some .rangeError, errcmd := encode (.csrw .flen rs1) })

/-! ### Whole-machine rules -/

/-- Outside the write window no command but CLEAR changes `VER` or `ECL`, so the capacity is constant from the first append
to CLEAR (R172, R269). -/
def Obligations.VersionFrozenOutsideWindow : Prop :=
  ∀ (s t : State) (i : Instr), exec i s = .next t → i ≠ .clear →
    (s.phase ≠ 0 ∨ s.bb ≠ [] ∨ s.flen ≠ 0) →
    t.ver = s.ver ∧ t.ecl = s.ecl ∧ capBits t = capBits s

/-- The frame of the registers: no command but CLEAR changes a scalar register other than its `rd`, a polynomial register
other than its `pd`, or a CSR its rule does not name (R21, R27 to R32, R109, R130, R173, R188). `PHASE` changes only with
a command that writes the matrix, `BBLEN` (the length of the buffer) only with one that appends; a command counts in
`CMDCNT` and leaves `STATUS` and `ERRCMD`, or faults, writes both and does not count; only HALT sets HALTED. -/
def Obligations.RegisterFrame : Prop :=
  ∀ (s t : State) (i : Instr), exec i s = .next t → i ≠ .clear →
    (∀ r, destX i ≠ some r → readX t r = readX s r) ∧
    (∀ k, destP i ≠ some k → readP t k = readP s k) ∧
    (i ≠ .halt → t.halted = s.halted) ∧
    ((∀ r, i ≠ .csrw .ver r) → t.ver = s.ver) ∧
    ((∀ r, i ≠ .csrw .ecl r) → t.ecl = s.ecl) ∧
    (t.cmdcnt = s.cmdcnt + 1 ∧ t.fault = s.fault ∧ t.errcmd = s.errcmd ∨
      t.cmdcnt = s.cmdcnt ∧ t.fault ≠ none ∧ t.errcmd = encode i) ∧
    (writesMat i = false → t.phase = s.phase) ∧
    (appendsBits i = false → t.bb = s.bb) ∧
    (i ≠ .minit → t.size = s.size) ∧
    (i ≠ .minit → (∀ r, i ≠ .mmask r) → i ≠ .msel → t.mask = s.mask) ∧
    (i ≠ .bterm → t.totbits = s.totbits) ∧
    ((∀ r, i ≠ .csrw .dlen r) → i ≠ .bflush → t.dlen = s.dlen) ∧
    ((∀ r, i ≠ .csrw .flen r) → i ≠ .rsenc → t.flen = s.flen) ∧
    ((∀ r, i ≠ .mpen r) → i ≠ .msel → t.pen = s.pen) ∧
    (i ≠ .msel → t.penv = s.penv) ∧
    (i ≠ .bterm → i ≠ .balign → i ≠ .bpad → t.bstage = s.bstage) ∧
    (i ≠ .ifmt → t.fmt = s.fmt) ∧
    (i ≠ .iver → t.vinf = s.vinf) ∧
    t.pending = s.pending ∧ t.reply = s.reply

/-- The frame of the memories: IN is written by STB and PST to IN only, DCW by those and BFLUSH, FCW by those and RSENC,
the matrix by the commands of R61 only; every other command leaves every byte and cell as it was (R61, R71). -/
def Obligations.MemoryFrame : Prop :=
  ∀ (s t : State) (i : Instr), exec i s = .next t → i ≠ .clear →
    ((∀ r r', i ≠ .stb .inp r r') → (∀ k r, i ≠ .pst k .inp r) → ∀ a, t.inp.read a = s.inp.read a) ∧
    ((∀ r r', i ≠ .stb .dcw r r') → (∀ k r, i ≠ .pst k .dcw r) → i ≠ .bflush →
      ∀ a, t.dcw.read a = s.dcw.read a) ∧
    ((∀ r r', i ≠ .stb .fcw r r') → (∀ k r, i ≠ .pst k .fcw r) → i ≠ .rsenc →
      ∀ a, t.fcw.read a = s.fcw.read a) ∧
    (writesMat i = false → t.mat = s.mat)

/-- The invariant holds in the reset state (R50). -/
def Obligations.ResetMeetsInvariant : Prop := EngineInv State.reset

/-- Every step keeps the invariant, whatever the host's next transaction: the memories are byte memories of their sizes in
canonical form (R43, R44), every polynomial register holds 1 to 4096 coefficients (R41), FAULT and HALTED are never both
set and `ERRCMD` is 0 without a fault (R25, R26), `VER`, `DLEN`, `FLEN` stay in range (R28, R31), `PHASE`, `SIZE` and `MASK`
agree and the matrix is `SIZE` by `SIZE` (R30, R45), the bit buffer fits and agrees with `BSTAGE` (R42, R171, R172). -/
def Obligations.StepKeepsInvariant : Prop := ∀ s t : State, EngineInv s → step s = .next t → EngineInv t
end

