-- ==== Sys2Proof/Laws/Decode.lean ====
section
/-! SUPPORT. The numbers of spaces, modes and CSRs read back, and the fields of a packed word. -/

namespace Sys2Proof

@[simp] theorem Space.ofNumber_number (sp : Space) : Space.ofNumber sp.number = some sp := by cases sp <;> rfl

theorem Space.number_of_ofNumber {n : Nat} {sp : Space} (h : Space.ofNumber n = some sp) : sp.number = n := by
  unfold Space.ofNumber at h
  split at h <;> first | (cases h; rfl) | cases h

theorem Space.number_le (sp : Space) : sp.number ≤ 6 := by cases sp <;> decide

@[simp] theorem Mode.ofNumber_number (m : Mode) : Mode.ofNumber m.number = some m := by cases m <;> rfl

theorem Mode.number_of_ofNumber {n : Nat} {m : Mode} (h : Mode.ofNumber n = some m) : m.number = n := by
  unfold Mode.ofNumber at h
  split at h <;> first | (cases h; rfl) | cases h

theorem Mode.number_le (m : Mode) : m.number ≤ 8 := by cases m <;> decide

theorem Csr.number_lt (c : Csr) : c.number < 256 := by
  cases c <;> simp only [Csr.number] <;> omega

@[simp] theorem Csr.ofNumber_number (c : Csr) : Csr.ofNumber c.number = some c := by
  cases c with
  | penv k => revert k; decide
  | plen k => revert k; decide
  | _ => rfl

theorem Csr.number_of_ofNumber {n : Nat} {c : Csr} (h : Csr.ofNumber n = some c) : c.number = n := by
  unfold Csr.ofNumber at h
  split at h
  · cases h; simp only [Csr.number]; omega
  · split at h
    · cases h; simp only [Csr.number]; omega
    · split at h <;> first | (cases h; rfl) | cases h

/-- The number of a packed word, where its fields are in range. -/
theorem toNat_pack {op rd rs1 low : Nat} (h0 : op < 256) (h1 : rd < 16) (h2 : rs1 < 16) (h3 : low < 2 ^ 16) :
    (pack op rd rs1 low).toNat = op * 2 ^ 24 + rd * 2 ^ 20 + rs1 * 2 ^ 16 + low := by
  simp only [pack, BitVec.toNat_ofNat]
  omega

/-- `cw[15:0]` fits 16 bits where its fields are in range. -/
theorem packLow_lt {rs2 pd pa pb sel : Nat} (h0 : rs2 < 16) (h1 : pd < 4) (h2 : pa < 4) (h3 : pb < 4) (h4 : sel < 64) :
    packLow rs2 pd pa pb sel < 2 ^ 16 := by
  simp only [packLow]
  omega

/-- `cw[31:24]` of a packed word is its opcode. -/
theorem bits_op_pack {op rd rs1 low : Nat} (h0 : op < 256) (h1 : rd < 16) (h2 : rs1 < 16) (h3 : low < 2 ^ 16) :
    bits (pack op rd rs1 low) 31 24 = op := by
  simp only [bits, toNat_pack h0 h1 h2 h3]
  omega

end Sys2Proof
end

