-- ==== Sys2Proof/Laws/State.lean ====
section
/-! SUPPORT. One lemma per field per named update of the state, true by unfolding, so that no later proof unfolds a record
update. -/

namespace Sys2Proof.Machine

/-! ### writeX -/

@[simp] theorem writeX_x (s : State) (r : XReg) (v : Word) : (writeX s r v).x = s.x.set r.val v := rfl
@[simp] theorem writeX_p (s : State) (r : XReg) (v : Word) : (writeX s r v).p = s.p := rfl
@[simp] theorem writeX_fault (s : State) (r : XReg) (v : Word) : (writeX s r v).fault = s.fault := rfl
@[simp] theorem writeX_halted (s : State) (r : XReg) (v : Word) : (writeX s r v).halted = s.halted := rfl
@[simp] theorem writeX_errcmd (s : State) (r : XReg) (v : Word) : (writeX s r v).errcmd = s.errcmd := rfl
@[simp] theorem writeX_cmdcnt (s : State) (r : XReg) (v : Word) : (writeX s r v).cmdcnt = s.cmdcnt := rfl
@[simp] theorem writeX_ver (s : State) (r : XReg) (v : Word) : (writeX s r v).ver = s.ver := rfl
@[simp] theorem writeX_ecl (s : State) (r : XReg) (v : Word) : (writeX s r v).ecl = s.ecl := rfl
@[simp] theorem writeX_size (s : State) (r : XReg) (v : Word) : (writeX s r v).size = s.size := rfl
@[simp] theorem writeX_phase (s : State) (r : XReg) (v : Word) : (writeX s r v).phase = s.phase := rfl
@[simp] theorem writeX_mask (s : State) (r : XReg) (v : Word) : (writeX s r v).mask = s.mask := rfl
@[simp] theorem writeX_bb (s : State) (r : XReg) (v : Word) : (writeX s r v).bb = s.bb := rfl
@[simp] theorem writeX_totbits (s : State) (r : XReg) (v : Word) : (writeX s r v).totbits = s.totbits := rfl
@[simp] theorem writeX_dlen (s : State) (r : XReg) (v : Word) : (writeX s r v).dlen = s.dlen := rfl
@[simp] theorem writeX_flen (s : State) (r : XReg) (v : Word) : (writeX s r v).flen = s.flen := rfl
@[simp] theorem writeX_pen (s : State) (r : XReg) (v : Word) : (writeX s r v).pen = s.pen := rfl
@[simp] theorem writeX_bstage (s : State) (r : XReg) (v : Word) : (writeX s r v).bstage = s.bstage := rfl
@[simp] theorem writeX_penv (s : State) (r : XReg) (v : Word) : (writeX s r v).penv = s.penv := rfl
@[simp] theorem writeX_fmt (s : State) (r : XReg) (v : Word) : (writeX s r v).fmt = s.fmt := rfl
@[simp] theorem writeX_vinf (s : State) (r : XReg) (v : Word) : (writeX s r v).vinf = s.vinf := rfl
@[simp] theorem writeX_inp (s : State) (r : XReg) (v : Word) : (writeX s r v).inp = s.inp := rfl
@[simp] theorem writeX_dcw (s : State) (r : XReg) (v : Word) : (writeX s r v).dcw = s.dcw := rfl
@[simp] theorem writeX_fcw (s : State) (r : XReg) (v : Word) : (writeX s r v).fcw = s.fcw := rfl
@[simp] theorem writeX_mat (s : State) (r : XReg) (v : Word) : (writeX s r v).mat = s.mat := rfl
@[simp] theorem writeX_pending (s : State) (r : XReg) (v : Word) : (writeX s r v).pending = s.pending := rfl
@[simp] theorem writeX_reply (s : State) (r : XReg) (v : Word) : (writeX s r v).reply = s.reply := rfl

/-! ### writeP -/

@[simp] theorem writeP_x (s : State) (k : PReg) (v : List Byte) : (writeP s k v).x = s.x := rfl
@[simp] theorem writeP_p (s : State) (k : PReg) (v : List Byte) : (writeP s k v).p = s.p.set k.val v := rfl
@[simp] theorem writeP_fault (s : State) (k : PReg) (v : List Byte) : (writeP s k v).fault = s.fault := rfl
@[simp] theorem writeP_halted (s : State) (k : PReg) (v : List Byte) : (writeP s k v).halted = s.halted := rfl
@[simp] theorem writeP_errcmd (s : State) (k : PReg) (v : List Byte) : (writeP s k v).errcmd = s.errcmd := rfl
@[simp] theorem writeP_cmdcnt (s : State) (k : PReg) (v : List Byte) : (writeP s k v).cmdcnt = s.cmdcnt := rfl
@[simp] theorem writeP_ver (s : State) (k : PReg) (v : List Byte) : (writeP s k v).ver = s.ver := rfl
@[simp] theorem writeP_ecl (s : State) (k : PReg) (v : List Byte) : (writeP s k v).ecl = s.ecl := rfl
@[simp] theorem writeP_size (s : State) (k : PReg) (v : List Byte) : (writeP s k v).size = s.size := rfl
@[simp] theorem writeP_phase (s : State) (k : PReg) (v : List Byte) : (writeP s k v).phase = s.phase := rfl
@[simp] theorem writeP_mask (s : State) (k : PReg) (v : List Byte) : (writeP s k v).mask = s.mask := rfl
@[simp] theorem writeP_bb (s : State) (k : PReg) (v : List Byte) : (writeP s k v).bb = s.bb := rfl
@[simp] theorem writeP_totbits (s : State) (k : PReg) (v : List Byte) : (writeP s k v).totbits = s.totbits := rfl
@[simp] theorem writeP_dlen (s : State) (k : PReg) (v : List Byte) : (writeP s k v).dlen = s.dlen := rfl
@[simp] theorem writeP_flen (s : State) (k : PReg) (v : List Byte) : (writeP s k v).flen = s.flen := rfl
@[simp] theorem writeP_pen (s : State) (k : PReg) (v : List Byte) : (writeP s k v).pen = s.pen := rfl
@[simp] theorem writeP_bstage (s : State) (k : PReg) (v : List Byte) : (writeP s k v).bstage = s.bstage := rfl
@[simp] theorem writeP_penv (s : State) (k : PReg) (v : List Byte) : (writeP s k v).penv = s.penv := rfl
@[simp] theorem writeP_fmt (s : State) (k : PReg) (v : List Byte) : (writeP s k v).fmt = s.fmt := rfl
@[simp] theorem writeP_vinf (s : State) (k : PReg) (v : List Byte) : (writeP s k v).vinf = s.vinf := rfl
@[simp] theorem writeP_inp (s : State) (k : PReg) (v : List Byte) : (writeP s k v).inp = s.inp := rfl
@[simp] theorem writeP_dcw (s : State) (k : PReg) (v : List Byte) : (writeP s k v).dcw = s.dcw := rfl
@[simp] theorem writeP_fcw (s : State) (k : PReg) (v : List Byte) : (writeP s k v).fcw = s.fcw := rfl
@[simp] theorem writeP_mat (s : State) (k : PReg) (v : List Byte) : (writeP s k v).mat = s.mat := rfl
@[simp] theorem writeP_pending (s : State) (k : PReg) (v : List Byte) : (writeP s k v).pending = s.pending := rfl
@[simp] theorem writeP_reply (s : State) (k : PReg) (v : List Byte) : (writeP s k v).reply = s.reply := rfl

/-! ### appendBits -/

@[simp] theorem appendBits_x (s : State) (bs : List Bool) : (appendBits s bs).x = s.x := rfl
@[simp] theorem appendBits_p (s : State) (bs : List Bool) : (appendBits s bs).p = s.p := rfl
@[simp] theorem appendBits_fault (s : State) (bs : List Bool) : (appendBits s bs).fault = s.fault := rfl
@[simp] theorem appendBits_halted (s : State) (bs : List Bool) : (appendBits s bs).halted = s.halted := rfl
@[simp] theorem appendBits_errcmd (s : State) (bs : List Bool) : (appendBits s bs).errcmd = s.errcmd := rfl
@[simp] theorem appendBits_cmdcnt (s : State) (bs : List Bool) : (appendBits s bs).cmdcnt = s.cmdcnt := rfl
@[simp] theorem appendBits_ver (s : State) (bs : List Bool) : (appendBits s bs).ver = s.ver := rfl
@[simp] theorem appendBits_ecl (s : State) (bs : List Bool) : (appendBits s bs).ecl = s.ecl := rfl
@[simp] theorem appendBits_size (s : State) (bs : List Bool) : (appendBits s bs).size = s.size := rfl
@[simp] theorem appendBits_phase (s : State) (bs : List Bool) : (appendBits s bs).phase = s.phase := rfl
@[simp] theorem appendBits_mask (s : State) (bs : List Bool) : (appendBits s bs).mask = s.mask := rfl
@[simp] theorem appendBits_bb (s : State) (bs : List Bool) : (appendBits s bs).bb = s.bb ++ bs := rfl
@[simp] theorem appendBits_totbits (s : State) (bs : List Bool) : (appendBits s bs).totbits = s.totbits := rfl
@[simp] theorem appendBits_dlen (s : State) (bs : List Bool) : (appendBits s bs).dlen = s.dlen := rfl
@[simp] theorem appendBits_flen (s : State) (bs : List Bool) : (appendBits s bs).flen = s.flen := rfl
@[simp] theorem appendBits_pen (s : State) (bs : List Bool) : (appendBits s bs).pen = s.pen := rfl
@[simp] theorem appendBits_bstage (s : State) (bs : List Bool) : (appendBits s bs).bstage = s.bstage := rfl
@[simp] theorem appendBits_penv (s : State) (bs : List Bool) : (appendBits s bs).penv = s.penv := rfl
@[simp] theorem appendBits_fmt (s : State) (bs : List Bool) : (appendBits s bs).fmt = s.fmt := rfl
@[simp] theorem appendBits_vinf (s : State) (bs : List Bool) : (appendBits s bs).vinf = s.vinf := rfl
@[simp] theorem appendBits_inp (s : State) (bs : List Bool) : (appendBits s bs).inp = s.inp := rfl
@[simp] theorem appendBits_dcw (s : State) (bs : List Bool) : (appendBits s bs).dcw = s.dcw := rfl
@[simp] theorem appendBits_fcw (s : State) (bs : List Bool) : (appendBits s bs).fcw = s.fcw := rfl
@[simp] theorem appendBits_mat (s : State) (bs : List Bool) : (appendBits s bs).mat = s.mat := rfl
@[simp] theorem appendBits_pending (s : State) (bs : List Bool) : (appendBits s bs).pending = s.pending := rfl
@[simp] theorem appendBits_reply (s : State) (bs : List Bool) : (appendBits s bs).reply = s.reply := rfl

/-! ### enterFault (R284) -/

@[simp] theorem enterFault_x (e : ErrCode) (cw : Word) (s : State) : (enterFault e cw s).x = s.x := rfl
@[simp] theorem enterFault_p (e : ErrCode) (cw : Word) (s : State) : (enterFault e cw s).p = s.p := rfl
@[simp] theorem enterFault_fault (e : ErrCode) (cw : Word) (s : State) : (enterFault e cw s).fault = some e := rfl
@[simp] theorem enterFault_halted (e : ErrCode) (cw : Word) (s : State) : (enterFault e cw s).halted = s.halted := rfl
@[simp] theorem enterFault_errcmd (e : ErrCode) (cw : Word) (s : State) : (enterFault e cw s).errcmd = cw := rfl
@[simp] theorem enterFault_cmdcnt (e : ErrCode) (cw : Word) (s : State) : (enterFault e cw s).cmdcnt = s.cmdcnt := rfl
@[simp] theorem enterFault_ver (e : ErrCode) (cw : Word) (s : State) : (enterFault e cw s).ver = s.ver := rfl
@[simp] theorem enterFault_ecl (e : ErrCode) (cw : Word) (s : State) : (enterFault e cw s).ecl = s.ecl := rfl
@[simp] theorem enterFault_size (e : ErrCode) (cw : Word) (s : State) : (enterFault e cw s).size = s.size := rfl
@[simp] theorem enterFault_phase (e : ErrCode) (cw : Word) (s : State) : (enterFault e cw s).phase = s.phase := rfl
@[simp] theorem enterFault_mask (e : ErrCode) (cw : Word) (s : State) : (enterFault e cw s).mask = s.mask := rfl
@[simp] theorem enterFault_bb (e : ErrCode) (cw : Word) (s : State) : (enterFault e cw s).bb = s.bb := rfl
@[simp] theorem enterFault_totbits (e : ErrCode) (cw : Word) (s : State) : (enterFault e cw s).totbits = s.totbits := rfl
@[simp] theorem enterFault_dlen (e : ErrCode) (cw : Word) (s : State) : (enterFault e cw s).dlen = s.dlen := rfl
@[simp] theorem enterFault_flen (e : ErrCode) (cw : Word) (s : State) : (enterFault e cw s).flen = s.flen := rfl
@[simp] theorem enterFault_pen (e : ErrCode) (cw : Word) (s : State) : (enterFault e cw s).pen = s.pen := rfl
@[simp] theorem enterFault_bstage (e : ErrCode) (cw : Word) (s : State) : (enterFault e cw s).bstage = s.bstage := rfl
@[simp] theorem enterFault_penv (e : ErrCode) (cw : Word) (s : State) : (enterFault e cw s).penv = s.penv := rfl
@[simp] theorem enterFault_fmt (e : ErrCode) (cw : Word) (s : State) : (enterFault e cw s).fmt = s.fmt := rfl
@[simp] theorem enterFault_vinf (e : ErrCode) (cw : Word) (s : State) : (enterFault e cw s).vinf = s.vinf := rfl
@[simp] theorem enterFault_inp (e : ErrCode) (cw : Word) (s : State) : (enterFault e cw s).inp = s.inp := rfl
@[simp] theorem enterFault_dcw (e : ErrCode) (cw : Word) (s : State) : (enterFault e cw s).dcw = s.dcw := rfl
@[simp] theorem enterFault_fcw (e : ErrCode) (cw : Word) (s : State) : (enterFault e cw s).fcw = s.fcw := rfl
@[simp] theorem enterFault_mat (e : ErrCode) (cw : Word) (s : State) : (enterFault e cw s).mat = s.mat := rfl
@[simp] theorem enterFault_pending (e : ErrCode) (cw : Word) (s : State) : (enterFault e cw s).pending = s.pending := rfl
@[simp] theorem enterFault_reply (e : ErrCode) (cw : Word) (s : State) : (enterFault e cw s).reply = s.reply := rfl

/-! ### complete (R27) -/

@[simp] theorem complete_x (s : State) : (complete s).x = s.x := rfl
@[simp] theorem complete_p (s : State) : (complete s).p = s.p := rfl
@[simp] theorem complete_fault (s : State) : (complete s).fault = s.fault := rfl
@[simp] theorem complete_halted (s : State) : (complete s).halted = s.halted := rfl
@[simp] theorem complete_errcmd (s : State) : (complete s).errcmd = s.errcmd := rfl
@[simp] theorem complete_cmdcnt (s : State) : (complete s).cmdcnt = s.cmdcnt + 1 := rfl
@[simp] theorem complete_ver (s : State) : (complete s).ver = s.ver := rfl
@[simp] theorem complete_ecl (s : State) : (complete s).ecl = s.ecl := rfl
@[simp] theorem complete_size (s : State) : (complete s).size = s.size := rfl
@[simp] theorem complete_phase (s : State) : (complete s).phase = s.phase := rfl
@[simp] theorem complete_mask (s : State) : (complete s).mask = s.mask := rfl
@[simp] theorem complete_bb (s : State) : (complete s).bb = s.bb := rfl
@[simp] theorem complete_totbits (s : State) : (complete s).totbits = s.totbits := rfl
@[simp] theorem complete_dlen (s : State) : (complete s).dlen = s.dlen := rfl
@[simp] theorem complete_flen (s : State) : (complete s).flen = s.flen := rfl
@[simp] theorem complete_pen (s : State) : (complete s).pen = s.pen := rfl
@[simp] theorem complete_bstage (s : State) : (complete s).bstage = s.bstage := rfl
@[simp] theorem complete_penv (s : State) : (complete s).penv = s.penv := rfl
@[simp] theorem complete_fmt (s : State) : (complete s).fmt = s.fmt := rfl
@[simp] theorem complete_vinf (s : State) : (complete s).vinf = s.vinf := rfl
@[simp] theorem complete_inp (s : State) : (complete s).inp = s.inp := rfl
@[simp] theorem complete_dcw (s : State) : (complete s).dcw = s.dcw := rfl
@[simp] theorem complete_fcw (s : State) : (complete s).fcw = s.fcw := rfl
@[simp] theorem complete_mat (s : State) : (complete s).mat = s.mat := rfl
@[simp] theorem complete_pending (s : State) : (complete s).pending = s.pending := rfl
@[simp] theorem complete_reply (s : State) : (complete s).reply = s.reply := rfl

/-! ### present -/

@[simp] theorem present_x (t : HostTx) (s : State) : (present t s).x = s.x := rfl
@[simp] theorem present_p (t : HostTx) (s : State) : (present t s).p = s.p := rfl
@[simp] theorem present_fault (t : HostTx) (s : State) : (present t s).fault = s.fault := rfl
@[simp] theorem present_halted (t : HostTx) (s : State) : (present t s).halted = s.halted := rfl
@[simp] theorem present_errcmd (t : HostTx) (s : State) : (present t s).errcmd = s.errcmd := rfl
@[simp] theorem present_cmdcnt (t : HostTx) (s : State) : (present t s).cmdcnt = s.cmdcnt := rfl
@[simp] theorem present_ver (t : HostTx) (s : State) : (present t s).ver = s.ver := rfl
@[simp] theorem present_ecl (t : HostTx) (s : State) : (present t s).ecl = s.ecl := rfl
@[simp] theorem present_size (t : HostTx) (s : State) : (present t s).size = s.size := rfl
@[simp] theorem present_phase (t : HostTx) (s : State) : (present t s).phase = s.phase := rfl
@[simp] theorem present_mask (t : HostTx) (s : State) : (present t s).mask = s.mask := rfl
@[simp] theorem present_bb (t : HostTx) (s : State) : (present t s).bb = s.bb := rfl
@[simp] theorem present_totbits (t : HostTx) (s : State) : (present t s).totbits = s.totbits := rfl
@[simp] theorem present_dlen (t : HostTx) (s : State) : (present t s).dlen = s.dlen := rfl
@[simp] theorem present_flen (t : HostTx) (s : State) : (present t s).flen = s.flen := rfl
@[simp] theorem present_pen (t : HostTx) (s : State) : (present t s).pen = s.pen := rfl
@[simp] theorem present_bstage (t : HostTx) (s : State) : (present t s).bstage = s.bstage := rfl
@[simp] theorem present_penv (t : HostTx) (s : State) : (present t s).penv = s.penv := rfl
@[simp] theorem present_fmt (t : HostTx) (s : State) : (present t s).fmt = s.fmt := rfl
@[simp] theorem present_vinf (t : HostTx) (s : State) : (present t s).vinf = s.vinf := rfl
@[simp] theorem present_inp (t : HostTx) (s : State) : (present t s).inp = s.inp := rfl
@[simp] theorem present_dcw (t : HostTx) (s : State) : (present t s).dcw = s.dcw := rfl
@[simp] theorem present_fcw (t : HostTx) (s : State) : (present t s).fcw = s.fcw := rfl
@[simp] theorem present_mat (t : HostTx) (s : State) : (present t s).mat = s.mat := rfl
@[simp] theorem present_pending (t : HostTx) (s : State) : (present t s).pending = t :: s.pending := rfl
@[simp] theorem present_reply (t : HostTx) (s : State) : (present t s).reply = s.reply := rfl

/-! ### setRam -/

@[simp] theorem setRam_x (s : State) (sp : Space) (m : Memory) : (setRam s sp m).x = s.x := by cases sp <;> rfl
@[simp] theorem setRam_p (s : State) (sp : Space) (m : Memory) : (setRam s sp m).p = s.p := by cases sp <;> rfl
@[simp] theorem setRam_fault (s : State) (sp : Space) (m : Memory) : (setRam s sp m).fault = s.fault := by cases sp <;> rfl
@[simp] theorem setRam_halted (s : State) (sp : Space) (m : Memory) : (setRam s sp m).halted = s.halted := by cases sp <;> rfl
@[simp] theorem setRam_errcmd (s : State) (sp : Space) (m : Memory) : (setRam s sp m).errcmd = s.errcmd := by cases sp <;> rfl
@[simp] theorem setRam_cmdcnt (s : State) (sp : Space) (m : Memory) : (setRam s sp m).cmdcnt = s.cmdcnt := by cases sp <;> rfl
@[simp] theorem setRam_ver (s : State) (sp : Space) (m : Memory) : (setRam s sp m).ver = s.ver := by cases sp <;> rfl
@[simp] theorem setRam_ecl (s : State) (sp : Space) (m : Memory) : (setRam s sp m).ecl = s.ecl := by cases sp <;> rfl
@[simp] theorem setRam_size (s : State) (sp : Space) (m : Memory) : (setRam s sp m).size = s.size := by cases sp <;> rfl
@[simp] theorem setRam_phase (s : State) (sp : Space) (m : Memory) : (setRam s sp m).phase = s.phase := by cases sp <;> rfl
@[simp] theorem setRam_mask (s : State) (sp : Space) (m : Memory) : (setRam s sp m).mask = s.mask := by cases sp <;> rfl
@[simp] theorem setRam_bb (s : State) (sp : Space) (m : Memory) : (setRam s sp m).bb = s.bb := by cases sp <;> rfl
@[simp] theorem setRam_totbits (s : State) (sp : Space) (m : Memory) : (setRam s sp m).totbits = s.totbits := by cases sp <;> rfl
@[simp] theorem setRam_dlen (s : State) (sp : Space) (m : Memory) : (setRam s sp m).dlen = s.dlen := by cases sp <;> rfl
@[simp] theorem setRam_flen (s : State) (sp : Space) (m : Memory) : (setRam s sp m).flen = s.flen := by cases sp <;> rfl
@[simp] theorem setRam_pen (s : State) (sp : Space) (m : Memory) : (setRam s sp m).pen = s.pen := by cases sp <;> rfl
@[simp] theorem setRam_bstage (s : State) (sp : Space) (m : Memory) : (setRam s sp m).bstage = s.bstage := by cases sp <;> rfl
@[simp] theorem setRam_penv (s : State) (sp : Space) (m : Memory) : (setRam s sp m).penv = s.penv := by cases sp <;> rfl
@[simp] theorem setRam_fmt (s : State) (sp : Space) (m : Memory) : (setRam s sp m).fmt = s.fmt := by cases sp <;> rfl
@[simp] theorem setRam_vinf (s : State) (sp : Space) (m : Memory) : (setRam s sp m).vinf = s.vinf := by cases sp <;> rfl
@[simp] theorem setRam_inp (s : State) (sp : Space) (m : Memory) : (setRam s sp m).inp = if sp = .inp then m else s.inp := by cases sp <;> rfl
@[simp] theorem setRam_dcw (s : State) (sp : Space) (m : Memory) : (setRam s sp m).dcw = if sp = .dcw then m else s.dcw := by cases sp <;> rfl
@[simp] theorem setRam_fcw (s : State) (sp : Space) (m : Memory) : (setRam s sp m).fcw = if sp = .fcw then m else s.fcw := by cases sp <;> rfl
@[simp] theorem setRam_mat (s : State) (sp : Space) (m : Memory) : (setRam s sp m).mat = s.mat := by cases sp <;> rfl
@[simp] theorem setRam_pending (s : State) (sp : Space) (m : Memory) : (setRam s sp m).pending = s.pending := by cases sp <;> rfl
@[simp] theorem setRam_reply (s : State) (sp : Space) (m : Memory) : (setRam s sp m).reply = s.reply := by cases sp <;> rfl

/-! ### discardRun (R262): all at reset but CMDCNT and the host port's fields -/

@[simp] theorem discardRun_x (s : State) : (discardRun s).x = State.reset.x := rfl
@[simp] theorem discardRun_p (s : State) : (discardRun s).p = State.reset.p := rfl
@[simp] theorem discardRun_fault (s : State) : (discardRun s).fault = State.reset.fault := rfl
@[simp] theorem discardRun_halted (s : State) : (discardRun s).halted = State.reset.halted := rfl
@[simp] theorem discardRun_errcmd (s : State) : (discardRun s).errcmd = State.reset.errcmd := rfl
@[simp] theorem discardRun_cmdcnt (s : State) : (discardRun s).cmdcnt = s.cmdcnt := rfl
@[simp] theorem discardRun_ver (s : State) : (discardRun s).ver = State.reset.ver := rfl
@[simp] theorem discardRun_ecl (s : State) : (discardRun s).ecl = State.reset.ecl := rfl
@[simp] theorem discardRun_size (s : State) : (discardRun s).size = State.reset.size := rfl
@[simp] theorem discardRun_phase (s : State) : (discardRun s).phase = State.reset.phase := rfl
@[simp] theorem discardRun_mask (s : State) : (discardRun s).mask = State.reset.mask := rfl
@[simp] theorem discardRun_bb (s : State) : (discardRun s).bb = State.reset.bb := rfl
@[simp] theorem discardRun_totbits (s : State) : (discardRun s).totbits = State.reset.totbits := rfl
@[simp] theorem discardRun_dlen (s : State) : (discardRun s).dlen = State.reset.dlen := rfl
@[simp] theorem discardRun_flen (s : State) : (discardRun s).flen = State.reset.flen := rfl
@[simp] theorem discardRun_pen (s : State) : (discardRun s).pen = State.reset.pen := rfl
@[simp] theorem discardRun_bstage (s : State) : (discardRun s).bstage = State.reset.bstage := rfl
@[simp] theorem discardRun_penv (s : State) : (discardRun s).penv = State.reset.penv := rfl
@[simp] theorem discardRun_fmt (s : State) : (discardRun s).fmt = State.reset.fmt := rfl
@[simp] theorem discardRun_vinf (s : State) : (discardRun s).vinf = State.reset.vinf := rfl
@[simp] theorem discardRun_inp (s : State) : (discardRun s).inp = State.reset.inp := rfl
@[simp] theorem discardRun_dcw (s : State) : (discardRun s).dcw = State.reset.dcw := rfl
@[simp] theorem discardRun_fcw (s : State) : (discardRun s).fcw = State.reset.fcw := rfl
@[simp] theorem discardRun_mat (s : State) : (discardRun s).mat = State.reset.mat := rfl
@[simp] theorem discardRun_pending (s : State) : (discardRun s).pending = s.pending := rfl
@[simp] theorem discardRun_reply (s : State) : (discardRun s).reply = s.reply := rfl

/-! ### Reading back -/

@[simp] theorem readX_writeX_same (s : State) (r : XReg) (v : Word) : readX (writeX s r v) r = v := by
  simp [readX]

theorem readX_writeX_other (s : State) (r q : XReg) (v : Word) (h : q ≠ r) : readX (writeX s r v) q = readX s q := by
  have : r.val ≠ q.val := fun e => h (Fin.ext e.symm)
  simp [readX, this]

@[simp] theorem readP_writeP_same (s : State) (k : PReg) (v : List Byte) : readP (writeP s k v) k = v := by
  simp [readP]

theorem readP_writeP_other (s : State) (k q : PReg) (v : List Byte) (h : q ≠ k) :
    readP (writeP s k v) q = readP s q := by
  have : k.val ≠ q.val := fun e => h (Fin.ext e.symm)
  simp [readP, this]

@[simp] theorem readX_writeP (s : State) (k : PReg) (v : List Byte) (r : XReg) : readX (writeP s k v) r = readX s r := rfl
@[simp] theorem readP_writeX (s : State) (r : XReg) (v : Word) (k : PReg) : readP (writeX s r v) k = readP s k := rfl
@[simp] theorem readX_complete (s : State) (r : XReg) : readX (complete s) r = readX s r := rfl
@[simp] theorem readP_complete (s : State) (k : PReg) : readP (complete s) k = readP s k := rfl
@[simp] theorem readX_enterFault (e : ErrCode) (cw : Word) (s : State) (r : XReg) :
    readX (enterFault e cw s) r = readX s r := rfl
@[simp] theorem readP_enterFault (e : ErrCode) (cw : Word) (s : State) (k : PReg) :
    readP (enterFault e cw s) k = readP s k := rfl

@[simp] theorem bbLen_appendBits (s : State) (bs : List Bool) : bbLen (appendBits s bs) = bbLen s + bs.length := by
  simp [bbLen]

@[simp] theorem ram_setRam_same (s : State) (sp : Space) (m : Memory) (h : sp.isRam = true) : ram (setRam s sp m) sp = m := by
  cases sp <;> first | rfl | simp [Space.isRam] at h

end Sys2Proof.Machine
end

