-- ==== Sys2Proof/Laws/Memory.lean ====
section
/-! SUPPORT. The byte memories: reading back a write, the bytes a write leaves alone, and the canonical form, which every
memory operation keeps (and State.reset has). -/

namespace Sys2Proof.Machine

/-- A byte that no entry lists reads as the unlisted value. -/
theorem Memory.read_of_not_listed (m : Memory) (a : Nat) (h : ∀ c ∈ m, c.1 ≠ a) : m.read a = Memory.unlisted := by
  induction m with
  | nil => rfl
  | cons c m ih =>
    obtain ⟨k, w⟩ := c
    have hk : k ≠ a := h (k, w) (by simp)
    simp only [Memory.read, if_neg hk]
    exact ih fun c hc => h c (List.mem_cons_of_mem _ hc)

/-- What every entry of a write is: the byte written, or an entry of the memory before at another address. -/
theorem Memory.mem_write {m : Memory} (hm : m.wf) {a : Nat} {v : Byte} {c : Host.Cell} (hc : c ∈ m.write a v) :
    (c = (a, v) ∧ v ≠ Memory.unlisted) ∨ (c ∈ m ∧ c.1 ≠ a) := by
  induction m with
  | nil =>
    simp only [Memory.write] at hc
    split at hc
    · simp at hc
    · exact .inl ⟨by simpa using hc, ‹_›⟩
  | cons d m ih =>
    obtain ⟨k, w⟩ := d
    obtain ⟨hp, hn⟩ := hm
    have hrest : ∀ d ∈ m, k < d.1 := (List.pairwise_cons.1 hp).1
    have hwf : Memory.wf m := ⟨(List.pairwise_cons.1 hp).2, fun c hc => hn c (List.mem_cons_of_mem _ hc)⟩
    simp only [Memory.write] at hc
    split at hc
    · rename_i hlt
      have old : c ∈ (k, w) :: m → (c = (a, v) ∧ v ≠ Memory.unlisted) ∨ (c ∈ (k, w) :: m ∧ c.1 ≠ a) := by
        intro h
        refine .inr ⟨h, ?_⟩
        rcases List.mem_cons.1 h with rfl | h'
        · simp only; omega
        · have := hrest c h'; omega
      split at hc
      · exact old hc
      · rcases List.mem_cons.1 hc with rfl | h'
        · exact .inl ⟨rfl, ‹_›⟩
        · exact old h'
    · split at hc
      · rename_i _ heq
        have old : c ∈ m → (c = (a, v) ∧ v ≠ Memory.unlisted) ∨ (c ∈ (k, w) :: m ∧ c.1 ≠ a) := by
          intro h
          have := hrest c h
          exact .inr ⟨List.mem_cons_of_mem _ h, by omega⟩
        split at hc
        · exact old hc
        · rcases List.mem_cons.1 hc with rfl | h'
          · exact .inl ⟨rfl, ‹_›⟩
          · exact old h'
      · rcases List.mem_cons.1 hc with rfl | h'
        · exact .inr ⟨by simp, by simp only; omega⟩
        · rcases ih hwf h' with h | ⟨h, hne⟩
          · exact .inl h
          · exact .inr ⟨List.mem_cons_of_mem _ h, hne⟩

/-- A write keeps the canonical form. -/
theorem Memory.write_wf {m : Memory} (hm : m.wf) (a : Nat) (v : Byte) : (m.write a v).wf := by
  refine ⟨?_, ?_⟩
  · induction m with
    | nil => simp only [Memory.write]; split <;> simp
    | cons d m ih =>
      obtain ⟨k, w⟩ := d
      obtain ⟨hp, hn⟩ := hm
      have hrest : ∀ d ∈ m, k < d.1 := (List.pairwise_cons.1 hp).1
      have hwf : Memory.wf m := ⟨(List.pairwise_cons.1 hp).2, fun c hc => hn c (List.mem_cons_of_mem _ hc)⟩
      simp only [Memory.write]
      split
      · rename_i hlt
        split
        · exact hp
        · refine List.pairwise_cons.2 ⟨fun d hd => ?_, hp⟩
          rcases List.mem_cons.1 hd with rfl | h'
          · exact hlt
          · have := hrest d h'; simp only; omega
      · split
        · rename_i _ heq
          split
          · exact hwf.1
          · refine List.pairwise_cons.2 ⟨fun d hd => ?_, hwf.1⟩
            have := hrest d hd; simp only; omega
        · refine List.pairwise_cons.2 ⟨fun d hd => ?_, ih hwf⟩
          rcases Memory.mem_write hwf hd with ⟨rfl, _⟩ | ⟨h, _⟩
          · simp only; omega
          · exact hrest d h
  · intro c hc
    rcases Memory.mem_write hm hc with ⟨rfl, h⟩ | ⟨h, _⟩
    · exact h
    · exact hm.2 c h

/-- A read after a write gives the byte written at its address and leaves every other address alone. -/
theorem Memory.read_write {m : Memory} (hm : m.wf) (a : Nat) (v : Byte) (b : Nat) :
    (m.write a v).read b = if b = a then v else m.read b := by
  induction m with
  | nil =>
    simp only [Memory.write]
    by_cases hv : v = Memory.unlisted
    · simp [hv, Memory.read]
    · simp only [if_neg hv, Memory.read]
      by_cases hb : a = b
      · simp [hb]
      · simp [hb, Ne.symm hb]
  | cons d m ih =>
    obtain ⟨k, w⟩ := d
    obtain ⟨hp, hn⟩ := hm
    have hrest : ∀ d ∈ m, k < d.1 := (List.pairwise_cons.1 hp).1
    have hwf : Memory.wf m := ⟨(List.pairwise_cons.1 hp).2, fun c hc => hn c (List.mem_cons_of_mem _ hc)⟩
    have unl : ∀ b, b ≤ k → Memory.read m b = Memory.unlisted := fun b hb =>
      Memory.read_of_not_listed m b fun c hc => by have := hrest c hc; omega
    simp only [Memory.write]
    by_cases h1 : a < k
    · simp only [if_pos h1]
      by_cases hv : v = Memory.unlisted
      · simp only [if_pos hv, Memory.read]
        by_cases hb : b = a
        · rw [if_pos hb, if_neg (by omega), unl b (by omega), hv]
        · rw [if_neg hb]
      · simp only [if_neg hv]
        by_cases hb : b = a
        · simp [Memory.read, hb]
        · simp [Memory.read, hb, Ne.symm hb]
    · simp only [if_neg h1]
      by_cases h2 : a = k
      · simp only [if_pos h2]
        by_cases hv : v = Memory.unlisted
        · simp only [if_pos hv, Memory.read]
          by_cases hb : b = a
          · rw [if_pos hb, unl b (by omega), hv]
          · rw [if_neg hb, if_neg (by omega)]
        · simp only [if_neg hv, Memory.read]
          by_cases hb : b = a
          · simp [hb]
          · rw [if_neg (by omega), if_neg hb, if_neg (by omega)]
      · simp only [if_neg h2, Memory.read]
        by_cases hk : k = b
        · rw [if_pos hk, if_neg (by omega), if_pos hk]
        · rw [if_neg hk, if_neg hk, ih hwf]

/-- A run of writes keeps the canonical form. -/
theorem Memory.writeAll_wf {m : Memory} (hm : m.wf) (a : Nat) (vs : List Byte) : (m.writeAll a vs).wf := by
  induction vs generalizing m a with
  | nil => exact hm
  | cons v vs ih => exact ih (Memory.write_wf hm a v) (a + 1)

/-- A read after a run of writes: the byte written within the run, and every other address as before. -/
theorem Memory.read_writeAll {m : Memory} (hm : m.wf) (a : Nat) (vs : List Byte) (b : Nat) :
    (m.writeAll a vs).read b = if a ≤ b ∧ b < a + vs.length then vs.getD (b - a) 0 else m.read b := by
  induction vs generalizing m a with
  | nil =>
    rw [if_neg (fun h => by have := h.2; simp only [List.length_nil] at this; omega)]
    rfl
  | cons v vs ih =>
    simp only [Memory.writeAll, ih (Memory.write_wf hm a v), Memory.read_write hm, List.length_cons]
    by_cases h1 : a + 1 ≤ b ∧ b < a + 1 + vs.length
    · rw [if_pos h1, if_pos (by omega)]
      obtain ⟨n, rfl⟩ : ∃ n, b = a + 1 + n := ⟨b - (a + 1), by omega⟩
      have e1 : a + 1 + n - (a + 1) = n := by omega
      have e2 : a + 1 + n - a = n + 1 := by omega
      rw [e1, e2, List.getD_cons_succ]
    · rw [if_neg h1]
      by_cases h2 : b = a
      · subst h2; simp
      · rw [if_neg h2, if_neg (by omega)]

/-- Every entry of a memory after a run of writes is an old one or lies in the run. -/
theorem Memory.mem_writeAll {m : Memory} (hm : m.wf) {a : Nat} {vs : List Byte} {c : Host.Cell}
    (hc : c ∈ m.writeAll a vs) : c ∈ m ∨ (a ≤ c.1 ∧ c.1 < a + vs.length) := by
  induction vs generalizing m a with
  | nil => exact .inl hc
  | cons v vs ih =>
    simp only [List.length_cons]
    rcases ih (Memory.write_wf hm a v) hc with h | h
    · rcases Memory.mem_write hm h with ⟨rfl, _⟩ | ⟨h, _⟩
      · exact .inr (by simp)
      · exact .inl h
    · exact .inr (by omega)

/-- A byte memory of `n` bytes stays one under a write below `n`. -/
theorem MemoryOk.write {m : Memory} {n : Nat} (h : MemoryOk m n) {a : Nat} (ha : a < n) (v : Byte) :
    MemoryOk (m.write a v) n :=
  ⟨Memory.write_wf h.1 a v, fun c hc => by
    rcases Memory.mem_write h.1 hc with ⟨rfl, _⟩ | ⟨h', _⟩
    · exact ha
    · exact h.2 c h'⟩

/-- A byte memory of `n` bytes stays one under a run of writes below `n`. -/
theorem MemoryOk.writeAll {m : Memory} {n : Nat} (h : MemoryOk m n) {a : Nat} {vs : List Byte} (ha : a + vs.length ≤ n) :
    MemoryOk (m.writeAll a vs) n :=
  ⟨Memory.writeAll_wf h.1 a vs, fun c hc => by
    rcases Memory.mem_writeAll h.1 hc with h' | h'
    · exact h.2 c h'
    · omega⟩

/-- The memories of the reset state are canonical. -/
theorem reset_memory_wf : Memory.wf State.reset.inp ∧ Memory.wf State.reset.dcw ∧ Memory.wf State.reset.fcw := by
  refine ⟨⟨?_, ?_⟩, ⟨?_, ?_⟩, ⟨?_, ?_⟩⟩ <;> simp [State.reset]

@[simp] theorem Memory.length_readAll (m : Memory) (a n : Nat) : (m.readAll a n).length = n := by
  simp [Memory.readAll]

end Sys2Proof.Machine
end

