-- ==== Sys2Proof/Laws/Ops.lean ====
section
/-! SUPPORT. For each shared operation of Machine/Ops.lean and Machine/Operands.lean, what it can do, once. -/

namespace Sys2Proof.Machine

/-! ### Checks -/

@[simp] theorem require_pos {c : Prop} [Decidable c] (h : c) (e : ErrCode) : require c e = .ok () := by
  simp [require, h]

@[simp] theorem require_neg {c : Prop} [Decidable c] (h : ¬c) (e : ErrCode) : require c e = .error e := by
  simp [require, h]

/-- A check passes exactly when its condition holds. -/
theorem require_eq_ok {c : Prop} [Decidable c] {e : ErrCode} {u : Unit} : require c e = .ok u ↔ c := by
  by_cases h : c <;> simp [require, h]

/-- A check fails with its own fault, exactly when its condition does not hold. -/
theorem require_eq_error {c : Prop} [Decidable c] {e e' : ErrCode} : require c e = .error e' ↔ ¬c ∧ e = e' := by
  by_cases h : c <;> simp [require, h]

/-- The computation after a check: reached where the condition holds. -/
theorem require_bind {c : Prop} [Decidable c] {α : Type} (e : ErrCode) (k : Unit → Except ErrCode α) :
    (require c e >>= k) = if c then k () else .error e := by
  by_cases h : c <;> simp [require, h, bind, Except.bind]

/-- A sequence of two computations answers a value where both do. -/
theorem bind_eq_ok {α β : Type} {r : Except ErrCode α} {k : α → Except ErrCode β} {b : β} :
    (r >>= k) = .ok b ↔ ∃ a, r = .ok a ∧ k a = .ok b := by
  cases r <;> simp [bind, Except.bind]

/-- A sequence of two computations faults where the first does, or the second after it. -/
theorem bind_eq_error {α β : Type} {r : Except ErrCode α} {k : α → Except ErrCode β} {e : ErrCode} :
    (r >>= k) = .error e ↔ r = .error e ∨ ∃ a, r = .ok a ∧ k a = .error e := by
  cases r <;> simp [bind, Except.bind]

/-! ### One command -/

@[simp] theorem runCommand_ok (i : Instr) (s t : State) : runCommand i s (.ok t) = .next (complete t) := rfl

@[simp] theorem runCommand_error (i : Instr) (s : State) (e : ErrCode) :
    runCommand i s (.error e) = .next (enterFault e (encode i) s) := rfl

/-- What a command can do: complete with all of its effect, or fault with none of it (R12, R285). -/
theorem runCommand_cases {i : Instr} {s t : State} {r : Except ErrCode State} (h : runCommand i s r = .next t) :
    (∃ u, r = .ok u ∧ t = complete u) ∨ (∃ e, r = .error e ∧ t = enterFault e (encode i) s) := by
  cases r with
  | ok u => exact .inl ⟨u, rfl, by simpa using h.symm⟩
  | error e => exact .inr ⟨e, rfl, by simpa using h.symm⟩

/-- A command always answers a next state (R327). -/
theorem runCommand_next (i : Instr) (s : State) (r : Except ErrCode State) : ∃ t, runCommand i s r = .next t := by
  cases r <;> exact ⟨_, rfl⟩

/-! ### Operands -/

/-- A field element is the register's low byte, and the register was at most 255 (R107). -/
theorem fieldElement_eq_ok {s : State} {r : XReg} {b : Byte} :
    fieldElement s r = .ok b ↔ (readX s r).toNat ≤ 255 ∧ b = (readX s r).setWidth 8 := by
  simp only [fieldElement, require_bind]
  split <;> simp [*, eq_comm]

theorem fieldElement_eq_error {s : State} {r : XReg} {e : ErrCode} :
    fieldElement s r = .error e ↔ ¬(readX s r).toNat ≤ 255 ∧ e = .rangeError := by
  simp only [fieldElement, require_bind]
  split <;> simp [*, eq_comm]

theorem natUpTo_eq_ok {s : State} {r : XReg} {hi n : Nat} :
    natUpTo s r hi = .ok n ↔ (readX s r).toNat ≤ hi ∧ n = (readX s r).toNat := by
  simp only [natUpTo, require_bind]
  split <;> simp [*, eq_comm]

theorem natUpTo_eq_error {s : State} {r : XReg} {hi : Nat} {e : ErrCode} :
    natUpTo s r hi = .error e ↔ ¬(readX s r).toNat ≤ hi ∧ e = .rangeError := by
  simp only [natUpTo, require_bind]
  split <;> simp [*, eq_comm]

theorem degree_eq_ok {s : State} {r : XReg} {n : Nat} :
    degree s r = .ok n ↔ (1 ≤ (readX s r).toNat ∧ (readX s r).toNat ≤ 255) ∧ n = (readX s r).toNat := by
  simp only [degree, require_bind]
  split <;> rename_i h <;> simp only [Config.degMax] at h <;> simp [h, eq_comm]

theorem degree_eq_error {s : State} {r : XReg} {e : ErrCode} :
    degree s r = .error e ↔ ¬(1 ≤ (readX s r).toNat ∧ (readX s r).toNat ≤ 255) ∧ e = .rangeError := by
  simp only [degree, require_bind]
  split <;> rename_i h <;> simp only [Config.degMax] at h <;> simp [h, eq_comm]

/-- A space has a limit exactly when STB, PLD and PST accept it (R86). -/
theorem Space.limit_isSome (sp : Space) : (Space.limit sp).isSome = sp.isRam := by cases sp <;> rfl

theorem ramLimit_eq_ok {sp : Space} {n : Nat} : ramLimit sp = .ok n ↔ Space.limit sp = some n := by
  cases sp <;> simp [ramLimit, Space.limit]

theorem ramLimit_eq_error {sp : Space} {e : ErrCode} :
    ramLimit sp = .error e ↔ sp.isRam = false ∧ e = .illegalCommand := by
  cases sp <;> simp [ramLimit, Space.limit, Space.isRam, eq_comm]

/-! ### Memory access -/

/-- A store answers the state with that one byte changed, and only in range (R67). -/
theorem memWrite_eq_ok {s t : State} {sp : Space} {a : Nat} {v : Byte} :
    memWrite s sp a v = .ok t ↔ ∃ n, Space.limit sp = some n ∧ a < n ∧ t = setRam s sp ((ram s sp).write a v) := by
  cases sp <;> simp only [memWrite, Space.limit, require_bind] <;> first | (split <;> simp [*, eq_comm]) | simp

/-- A memory read changes nothing and answers a byte only at an address of its space (R60, R64, R66). -/
theorem memRead_in_range {s : State} {sp : Space} {a : Nat} {v : Byte} (h : memRead s sp a = .ok v) :
    match sp with
    | .inp => a < Config.inSize
    | .dcw => a < Config.cwSize
    | .fcw => a < Config.cwSize
    | .exp => a ≤ 254
    | .log => 1 ≤ a ∧ a ≤ 255
    | .mat => a < s.size.toNat * s.size.toNat
    | .bb => a < bbLen s := by
  cases sp <;> simp only [memRead, require_bind, Config.inSize, Config.cwSize] at h ⊢ <;> split at h <;>
    first | omega | contradiction | skip
  split at h
  · omega
  · contradiction

/-! ### Bits -/

@[simp] theorem length_bitsOf (v n : Nat) : (bitsOf v n).length = n := by simp [bitsOf]

@[simp] theorem length_padBits (n : Nat) : (padBits n).length = 8 * n := by
  induction n with
  | zero => rfl
  | succ n ih => simp only [padBits, List.range_succ, List.flatMap_append, List.length_append] at ih ⊢; rw [ih]; simp; omega

@[simp] theorem length_codewords (bs : List Bool) : (codewords bs).length = (bs.length + 7) / 8 := by
  simp [codewords]

/-! ### Polynomials -/

@[simp] theorem length_zeros (n : Nat) : (zeros n).length = n := by simp [zeros]

@[simp] theorem length_addAt (r : List Byte) (i : Nat) (v : Byte) : (addAt r i v).length = r.length := by simp [addAt]

@[simp] theorem length_polyScale (a : List Byte) (c : Byte) : (polyScale a c).length = a.length := by simp [polyScale]

@[simp] theorem length_polyAdd (a b : List Byte) : (polyAdd a b).length = max a.length b.length := by
  simp only [polyAdd, zeros, List.length_zipWith, List.length_append, List.length_replicate]
  omega

/-- A fold whose every step keeps the length keeps the length. -/
theorem length_foldl {α : Type} (f : List Byte → α → List Byte) (hf : ∀ r x, (f r x).length = r.length)
    (l : List α) (r : List Byte) : (l.foldl f r).length = r.length := by
  induction l generalizing r with
  | nil => rfl
  | cons x l ih => rw [List.foldl_cons, ih, hf]

@[simp] theorem length_polyMul (a b : List Byte) : (polyMul a b).length = a.length + b.length - 1 := by
  rw [polyMul, length_foldl _ (fun r i => length_foldl _ (fun r j => length_addAt ..) _ _), length_zeros]

/-- A generator of degree `n` has `n + 1` coefficients. -/
@[simp] theorem length_rsGen (n : Nat) : (rsGen n).length = n + 1 := by
  induction n with
  | zero => rfl
  | succ n ih =>
    have h : rsGen (n + 1) = polyMul (rsGen n) [1, romExp n] := by
      simp only [rsGen, List.range_succ, List.foldl_append, List.foldl_cons, List.foldl_nil]
    rw [h, length_polyMul, ih]
    simp

@[simp] theorem length_syndromes (c : List Byte) (n : Nat) : (syndromes c n).length = n := by simp [syndromes]

end Sys2Proof.Machine
end

