-- ==== Sys2Proof/Laws/Grid.lean ====
section
/-! SUPPORT. The matrix operations keep the matrix square (R45), and one lemma says what a cell is after a change. -/

namespace Sys2Proof.Machine

/-- Changing one cell keeps the shape. -/
theorem GridOk.modify {g : Grid} {S : Nat} (h : GridOk g S) (r c : Nat) (f : MatCell → MatCell) :
    GridOk (Grid.modify g r c f) S := by
  refine ⟨by simpa [Grid.modify] using h.1, fun row hrow => ?_⟩
  obtain ⟨k, hk, rfl⟩ := List.mem_iff_getElem.1 hrow
  have hk' : k < g.length := by simpa [Grid.modify] using hk
  simp only [Grid.modify, List.getElem_modify]
  split
  · simpa using h.2 _ (List.getElem_mem hk')
  · exact h.2 _ (List.getElem_mem hk')

theorem GridOk.setf {g : Grid} {S : Nat} (h : GridOk g S) (rc : Nat × Nat) (v : Colour) : GridOk (Grid.setf g rc v) S :=
  h.modify ..

theorem GridOk.reserve {g : Grid} {S : Nat} (h : GridOk g S) (rc : Nat × Nat) : GridOk (Grid.reserve g rc) S :=
  h.modify ..

theorem GridOk.paint {g : Grid} {S : Nat} (h : GridOk g S) (rc : Nat × Nat) (v : Colour) :
    GridOk (Grid.paint g rc v) S :=
  h.modify ..

/-- A fold whose every step keeps the shape keeps the shape. -/
theorem GridOk.foldl {α : Type} {S : Nat} {f : Grid → α → Grid} (hf : ∀ g x, GridOk g S → GridOk (f g x) S)
    {g : Grid} (h : GridOk g S) (l : List α) : GridOk (l.foldl f g) S := by
  induction l generalizing g with
  | nil => exact h
  | cons x l ih => exact ih (hf g x h)

theorem GridOk.setfAll {g : Grid} {S : Nat} (h : GridOk g S) (ws : List ((Nat × Nat) × Colour)) :
    GridOk (Grid.setfAll g ws) S :=
  h.foldl (fun _ _ hg => hg.setf ..) ws

theorem GridOk.reserveAll {g : Grid} {S : Nat} (h : GridOk g S) (ws : List (Nat × Nat)) :
    GridOk (Grid.reserveAll g ws) S :=
  h.foldl (fun _ _ hg => hg.reserve ..) ws

theorem GridOk.paintAll {g : Grid} {S : Nat} (h : GridOk g S) (ws : List ((Nat × Nat) × Colour)) :
    GridOk (Grid.paintAll g ws) S :=
  h.foldl (fun _ _ hg => hg.paint ..) ws

/-- A mask keeps the shape. -/
theorem GridOk.applyMask {g : Grid} {S : Nat} (h : GridOk g S) (k : Nat) : GridOk (applyMask g k) S := by
  refine ⟨by simpa [Machine.applyMask] using h.1, fun row hrow => ?_⟩
  obtain ⟨i, hi, rfl⟩ := List.mem_iff_getElem.1 hrow
  have hi' : i < g.length := by simpa [Machine.applyMask] using hi
  simpa [Machine.applyMask] using h.2 _ (List.getElem_mem hi')

/-- The empty matrix is square. -/
theorem GridOk.empty (S : Nat) : GridOk (emptyGrid S) S := by
  refine ⟨by simp [emptyGrid], fun row hrow => ?_⟩
  rw [emptyGrid, List.mem_replicate] at hrow
  simp [hrow.2]

/-- The cell at `(r, c)` after the cell at `(i, j)` of a square matrix was changed. -/
theorem Grid.cell_modify {g : Grid} {S : Nat} (h : GridOk g S) {r c : Nat} (hr : r < S) (hc : c < S) (i j : Nat)
    (f : MatCell → MatCell) :
    Grid.cell (Grid.modify g i j f) r c = if i = r ∧ j = c then f (Grid.cell g r c) else Grid.cell g r c := by
  have hr' : r < g.length := h.1 ▸ hr
  have hc' : c < g[r].length := by rw [h.2 _ (List.getElem_mem hr')]; exact hc
  simp only [Grid.cell, Grid.modify, List.getD_eq_getElem?_getD, List.getElem?_modify,
    List.getElem?_eq_getElem hr', Option.getD_some]
  by_cases hi : i = r
  · by_cases hj : j = c
    · simp [hi, hj, List.getElem?_eq_getElem hc']
    · simp [hi, hj, List.getElem?_eq_getElem hc']
  · simp [hi]

end Sys2Proof.Machine
end

