-- ==== Sys2Proof/Laws/Exec.lean ====
section
/-! SUPPORT. What every command can do, said once: from `exec i s = next t`, either a fault was entered and nothing else
changed, or the command completed with the shape of effect its rule gives it (R12, R285). Frames and invariants are proved
from this lemma, without unfolding a meaning. -/

namespace Sys2Proof.Machine

/-- The shape of a completing command's effect, before its own count: what it writes, what it required. -/
def Effect (s u : State) : Instr → Prop
  | .gfadd rd .. | .gfmul rd .. | .gfdiv rd .. | .gfpow rd .. | .gfexp rd _ | .gflog rd _ => ∃ v, u = writeX s rd v
  | .pdeg rd _ | .peval rd .. | .bchf rd _ | .bchv rd _ => ∃ v, u = writeX s rd v
  | .ldi rd _ | .mov rd _ | .ldb rd .. | .csrr rd _ => ∃ v, u = writeX s rd v
  | .pld pd .. | .rsgen pd _ => ∃ l, u = writeP s pd l ∧ 1 ≤ l.length ∧ l.length ≤ 4096
  | .pmov pd pa => u = writeP s pd (readP s pa)
  | .padd pd pa pb => u = writeP s pd (polyAdd (readP s pa) (readP s pb))
  | .pscl pd pa _ => ∃ l, u = writeP s pd l ∧ l.length = pLen s pa
  | .pmul pd pa pb => ∃ l, u = writeP s pd l ∧ l.length = pLen s pa + pLen s pb - 1 ∧ l.length ≤ 4096
  | .rsrem pd pa pb => ∃ l, u = writeP s pd l ∧ rsRem (readP s pa) (readP s pb) = .ok l ∧ 2 ≤ pLen s pb ∧
      pLen s pa + pLen s pb - 1 ≤ 4096
  | .rssyn rd pd .. => ∃ v l, u = writeX (writeP s pd l) rd v ∧ 1 ≤ l.length ∧ l.length ≤ 4096
  | .pst pa sp r => ∃ n, RamSize sp n ∧ (readX s r).toNat + pLen s pa ≤ n ∧
      u = setRam s sp ((ram s sp).writeAll (readX s r).toNat (readP s pa))
  | .stb sp r _ => ∃ n v, RamSize sp n ∧ (readX s r).toNat < n ∧
      u = setRam s sp ((ram s sp).write (readX s r).toNat v)
  | .rsenc => ∃ out, s.ver ≠ 0 ∧ s.dlen.toNat = dataCwNow s ∧
      interleaved (s.dcw.readAll 0 s.dlen.toNat) (nblk s.ver.toNat (level s)) (eccPerBlock s.ver.toNat (level s)) =
        .ok out ∧
      u = { s with fcw := s.fcw.writeAll 0 out, flen := BitVec.ofNat 13 (totalCwNow s) }
  | .bapp .. => ∃ bs, s.bstage = 0 ∧ bbLen s + bs.length ≤ 23648 ∧ u = appendBits s bs
  | .bseg m r1 r2 => s.ver ≠ 0 ∧ s.bstage = 0 ∧ m ≠ .kanji ∧
      bbLen s + (4 + ccBits m s.ver.toNat + payloadBits m (readX s r2).toNat) ≤ 23648 ∧
      u = appendBits s (bitsOf m.number 4 ++ bitsOf (readX s r2).toNat (ccBits m s.ver.toNat) ++
            payload m (s.inp.readAll (readX s r1).toNat (readX s r2).toNat))
  | .bterm => s.ver ≠ 0 ∧ s.bstage = 0 ∧ 1 ≤ bbLen s ∧ bbLen s ≤ capBits s ∧
      u = { appendBits s (bitsOf 0 (min 4 (capBits s - bbLen s))) with
            totbits := BitVec.ofNat 15 (bbLen s), bstage := 1 }
  | .balign => s.bstage = 1 ∧ u = { appendBits s (bitsOf 0 ((8 - bbLen s % 8) % 8)) with bstage := 2 }
  | .bpad => s.bstage = 2 ∧ u = { appendBits s (padBits (dataCwNow s - bbLen s / 8)) with bstage := 3 }
  | .bflush => u = { s with dcw := s.dcw.writeAll 0 (codewords s.bb), dlen := BitVec.ofNat 13 ((bbLen s + 7) / 8) }
  | .minit => s.ver ≠ 0 ∧ s.phase = 0 ∧
      u = { s with size := BitVec.ofNat 8 (sideOf s.ver.toNat), mat := emptyGrid (sideOf s.ver.toNat), mask := 0,
                   phase := 1 }
  | .mfind => s.phase = 1 ∧ u = { s with mat := s.mat.setfAll (finderCells s.size.toNat), phase := 2 }
  | .mtime => s.phase = 2 ∧ u = { s with mat := s.mat.setfAll (timingCells s.size.toNat), phase := 3 }
  | .malign => s.phase = 3 ∧ u = { s with mat := s.mat.setfAll (alignmentCells s.size.toNat s.ver.toNat), phase := 4 }
  | .mrsv => s.phase = 4 ∧
      u = { s with mat := ((s.mat.reserveAll (formatCells s.size.toNat)).setf (s.size.toNat - 8, 8) .dark).reserveAll
                     (versionCells s.size.toNat s.ver.toNat), phase := 5 }
  | .mdata => s.phase = 5 ∧ s.flen.toNat = totalCwNow s ∧ ∃ ws, u = { s with mat := s.mat.paintAll ws, phase := 6 }
  | .mmask _ => s.phase = 6 ∧ ∃ k, k ≤ 7 ∧
      u = { s with mat := applyMask s.mat k, mask := BitVec.ofNat 4 (8 + k), phase := 7 }
  | .mpen rd => 6 ≤ s.phase.toNat ∧ ∃ v, u = { writeX s rd v with pen := v }
  | .msel => s.phase = 6 ∧
      u = { s with
            penv := Vector.ofFn fun k : Fin 8 => BitVec.ofNat 32 ((maskPenalties s.size.toNat s.mat).getD k.val 0)
            pen := BitVec.ofNat 32
              ((maskPenalties s.size.toNat s.mat).getD (bestMask (maskPenalties s.size.toNat s.mat)) 0)
            mat := applyMask s.mat (bestMask (maskPenalties s.size.toNat s.mat))
            mask := BitVec.ofNat 4 (8 + bestMask (maskPenalties s.size.toNat s.mat))
            phase := 7 }
  | .ifmt => s.phase = 7 ∧
      u = { s with mat := s.mat.paintAll (formatWrites s.size.toNat (formatWord s)),
                   fmt := BitVec.ofNat 15 (formatWord s), phase := 8 }
  | .iver => s.phase = 8 ∧ ∃ ws w, u = { s with mat := s.mat.paintAll ws, vinf := w, phase := 9 }
  | .nop => u = s
  | .halt => u = { s with halted := true }
  | .clear => u = discardRun s
  | .csrw c r =>
      (c = .ver ∧ writeWindow s ∧ 1 ≤ (readX s r).toNat ∧ (readX s r).toNat ≤ 40 ∧
        u = { s with ver := BitVec.ofNat 6 (readX s r).toNat }) ∨
      (c = .ecl ∧ writeWindow s ∧ (readX s r).toNat ≤ 3 ∧ u = { s with ecl := BitVec.ofNat 2 (readX s r).toNat }) ∨
      (c = .dlen ∧ (readX s r).toNat ≤ 4096 ∧ u = { s with dlen := BitVec.ofNat 13 (readX s r).toNat }) ∨
      (c = .flen ∧ (readX s r).toNat ≤ 4096 ∧ u = { s with flen := BitVec.ofNat 13 (readX s r).toNat })

/-- An accepted space's limit is its number of addresses. -/
theorem ramSize_of_limit {sp : Space} {n : Nat} (h : Space.limit sp = some n) : RamSize sp n := by
  cases sp <;> simp_all [Space.limit, RamSize, Config.inSize, Config.cwSize]

/-- The checks and effect of CSRW (R268). -/
theorem csrWrite_eq_ok {s u : State} {c : Csr} {r : XReg} (h : csrWrite s c (readX s r).toNat = .ok u) :
    Effect s u (.csrw c r) := by
  cases c <;> simp only [csrWrite, bind_eq_ok, require_eq_ok, exists_const, Except.ok.injEq, reduceCtorEq] at h
  · exact .inl ⟨rfl, h.1, h.2.1.1, h.2.1.2, h.2.2.symm⟩
  · exact .inr (.inl ⟨rfl, h.1, h.2.1, h.2.2.symm⟩)
  · exact .inr (.inr (.inl ⟨rfl, h.1, h.2.symm⟩))
  · exact .inr (.inr (.inr ⟨rfl, h.1, h.2.symm⟩))

/-- What a command can do: enter a fault with nothing else changed, or complete with its effect. -/
def Inversion (i : Instr) (s t : State) : Prop :=
  (∃ e, t = enterFault e (encode i) s) ∨ ∃ u, t = complete u ∧ Effect s u i

/-- Inversion of one command from its checks and effect. -/
theorem runCommand_inversion {i : Instr} {s t : State} {r : Except ErrCode State} (h : runCommand i s r = .next t)
    (he : ∀ u, r = .ok u → Effect s u i) : Inversion i s t := by
  obtain ⟨u, hu, rfl⟩ | ⟨e, _, rfl⟩ := runCommand_cases h
  · exact .inr ⟨u, rfl, he u hu⟩
  · exact .inl ⟨e, rfl⟩

/-! ### One lemma per command -/

section
variable {s t : State}

theorem execGfadd_inversion {rd rs1 rs2 : XReg} (h : execGfadd rd rs1 rs2 s = .next t) : Inversion (.gfadd rd rs1 rs2) s t :=
  runCommand_inversion h fun u hu => by
    simp only [bind_eq_ok, Except.ok.injEq] at hu
    obtain ⟨_, _, _, _, rfl⟩ := hu
    exact ⟨_, rfl⟩

theorem execGfmul_inversion {rd rs1 rs2 : XReg} (h : execGfmul rd rs1 rs2 s = .next t) : Inversion (.gfmul rd rs1 rs2) s t :=
  runCommand_inversion h fun u hu => by
    simp only [bind_eq_ok, Except.ok.injEq] at hu
    obtain ⟨_, _, _, _, rfl⟩ := hu
    exact ⟨_, rfl⟩

theorem execGfdiv_inversion {rd rs1 rs2 : XReg} (h : execGfdiv rd rs1 rs2 s = .next t) : Inversion (.gfdiv rd rs1 rs2) s t :=
  runCommand_inversion h fun u hu => by
    simp only [bind_eq_ok, Except.ok.injEq] at hu
    obtain ⟨_, _, _, _, _, _, rfl⟩ := hu
    exact ⟨_, rfl⟩

theorem execGfpow_inversion {rd rs1 rs2 : XReg} (h : execGfpow rd rs1 rs2 s = .next t) : Inversion (.gfpow rd rs1 rs2) s t :=
  runCommand_inversion h fun u hu => by
    simp only [bind_eq_ok, Except.ok.injEq] at hu
    obtain ⟨_, _, rfl⟩ := hu
    exact ⟨_, rfl⟩

theorem execGfexp_inversion {rd rs1 : XReg} (h : execGfexp rd rs1 s = .next t) : Inversion (.gfexp rd rs1) s t :=
  runCommand_inversion h fun u hu => by
    simp only [bind_eq_ok, Except.ok.injEq] at hu
    obtain ⟨_, _, rfl⟩ := hu
    exact ⟨_, rfl⟩

theorem execGflog_inversion {rd rs1 : XReg} (h : execGflog rd rs1 s = .next t) : Inversion (.gflog rd rs1) s t :=
  runCommand_inversion h fun u hu => by
    simp only [bind_eq_ok] at hu
    obtain ⟨a, _, hu⟩ := hu
    split at hu
    · cases hu; exact ⟨_, rfl⟩
    · cases hu

theorem execPld_inversion {pd : PReg} {sp : Space} {rs1 rs2 : XReg} (h : execPld pd sp rs1 rs2 s = .next t) : Inversion (.pld pd sp rs1 rs2) s t :=
  runCommand_inversion h fun u hu => by
    simp only [bind_eq_ok, require_eq_ok, requireRun, exists_const, Except.ok.injEq] at hu
    obtain ⟨_, _, hn, _, rfl⟩ := hu
    exact ⟨_, rfl, by simpa using hn⟩

theorem execPst_inversion {pa : PReg} {sp : Space} {rs1 : XReg} (h : execPst pa sp rs1 s = .next t) : Inversion (.pst pa sp rs1) s t :=
  runCommand_inversion h fun u hu => by
    simp only [bind_eq_ok, require_eq_ok, requireRun, exists_const, Except.ok.injEq, ramLimit_eq_ok] at hu
    obtain ⟨n, hn, ha, rfl⟩ := hu
    exact ⟨n, ramSize_of_limit hn, ha, rfl⟩

theorem execPmov_inversion {pd pa : PReg} (h : execPmov pd pa s = .next t) : Inversion (.pmov pd pa) s t :=
  runCommand_inversion h fun u hu => by
    cases hu; exact rfl

theorem execPadd_inversion {pd pa pb : PReg} (h : execPadd pd pa pb s = .next t) : Inversion (.padd pd pa pb) s t :=
  runCommand_inversion h fun u hu => by
    cases hu; exact rfl

theorem execPdeg_inversion {rd : XReg} {pa : PReg} (h : execPdeg rd pa s = .next t) : Inversion (.pdeg rd pa) s t :=
  runCommand_inversion h fun u hu => by
    cases hu; exact ⟨_, rfl⟩

theorem execPmul_inversion {pd pa pb : PReg} (h : execPmul pd pa pb s = .next t) : Inversion (.pmul pd pa pb) s t :=
  runCommand_inversion h fun u hu => by
    simp only [bind_eq_ok, require_eq_ok, exists_const, Except.ok.injEq] at hu
    obtain ⟨hl, rfl⟩ := hu
    exact ⟨_, rfl, length_polyMul .., by simpa using hl⟩

theorem execPscl_inversion {pd pa : PReg} {rs1 : XReg} (h : execPscl pd pa rs1 s = .next t) : Inversion (.pscl pd pa rs1) s t :=
  runCommand_inversion h fun u hu => by
    simp only [bind_eq_ok, Except.ok.injEq] at hu
    obtain ⟨_, _, rfl⟩ := hu
    exact ⟨_, rfl, length_polyScale ..⟩

theorem execPeval_inversion {rd : XReg} {pa : PReg} {rs1 : XReg} (h : execPeval rd pa rs1 s = .next t) : Inversion (.peval rd pa rs1) s t :=
  runCommand_inversion h fun u hu => by
    simp only [bind_eq_ok, Except.ok.injEq] at hu
    obtain ⟨_, _, rfl⟩ := hu
    exact ⟨_, rfl⟩

theorem execRsgen_inversion {pd : PReg} {rs1 : XReg} (h : execRsgen pd rs1 s = .next t) : Inversion (.rsgen pd rs1) s t :=
  runCommand_inversion h fun u hu => by
    simp only [bind_eq_ok, degree_eq_ok, Except.ok.injEq] at hu
    obtain ⟨n, ⟨⟨_, _⟩, rfl⟩, rfl⟩ := hu
    exact ⟨_, rfl, by simp, by simp; omega⟩

theorem execRsrem_inversion {pd pa pb : PReg} (h : execRsrem pd pa pb s = .next t) : Inversion (.rsrem pd pa pb) s t :=
  runCommand_inversion h fun u hu => by
    simp only [bind_eq_ok, require_eq_ok, exists_const, Except.ok.injEq] at hu
    obtain ⟨h2, hl, _, l, he, rfl⟩ := hu
    exact ⟨l, rfl, he, h2, hl⟩

theorem execRsenc_inversion (h : execRsenc s = .next t) : Inversion (.rsenc) s t :=
  runCommand_inversion h fun u hu => by
    simp only [bind_eq_ok, require_eq_ok, requireVersion, exists_const, Except.ok.injEq] at hu
    obtain ⟨hv, hd, out, ho, rfl⟩ := hu
    exact ⟨out, hv, hd, ho, rfl⟩

theorem execRssyn_inversion {rd : XReg} {pd pa : PReg} {rs1 : XReg} (h : execRssyn rd pd pa rs1 s = .next t) : Inversion (.rssyn rd pd pa rs1) s t :=
  runCommand_inversion h fun u hu => by
    simp only [bind_eq_ok, degree_eq_ok, Except.ok.injEq] at hu
    obtain ⟨n, ⟨⟨h1, _⟩, rfl⟩, rfl⟩ := hu
    exact ⟨_, _, rfl, by simpa using h1, by simp; omega⟩

theorem execBapp_inversion {rs1 rs2 : XReg} (h : execBapp rs1 rs2 s = .next t) : Inversion (.bapp rs1 rs2) s t :=
  runCommand_inversion h fun u hu => by
    simp only [bind_eq_ok, require_eq_ok, requireStage, requireRoom, exists_const, Except.ok.injEq] at hu
    obtain ⟨hs, n, _, _, hr, rfl⟩ := hu
    exact ⟨_, hs, by simpa using hr, rfl⟩

theorem execBseg_inversion {m : Mode} {rs1 rs2 : XReg} (h : execBseg m rs1 rs2 s = .next t) : Inversion (.bseg m rs1 rs2) s t :=
  runCommand_inversion h fun u hu => by
    simp only [bind_eq_ok, require_eq_ok, requireVersion, requireStage, requireRun, requireRoom, exists_const,
      Except.ok.injEq] at hu
    obtain ⟨hv, hs, hm, _, _, _, _, hr, rfl⟩ := hu
    exact ⟨hv, hs, hm, hr, rfl⟩

theorem execBterm_inversion (h : execBterm s = .next t) : Inversion (.bterm) s t :=
  runCommand_inversion h fun u hu => by
    simp only [bind_eq_ok, require_eq_ok, requireVersion, requireStage, exists_const, Except.ok.injEq] at hu
    obtain ⟨hv, hs, h1, h2, rfl⟩ := hu
    exact ⟨hv, hs, h1, h2, rfl⟩

theorem execBalign_inversion (h : execBalign s = .next t) : Inversion (.balign) s t :=
  runCommand_inversion h fun u hu => by
    simp only [bind_eq_ok, require_eq_ok, requireStage, exists_const, Except.ok.injEq] at hu
    exact ⟨hu.1, hu.2.symm⟩

theorem execBpad_inversion (h : execBpad s = .next t) : Inversion (.bpad) s t :=
  runCommand_inversion h fun u hu => by
    simp only [bind_eq_ok, require_eq_ok, requireStage, exists_const, Except.ok.injEq] at hu
    exact ⟨hu.1, hu.2.symm⟩

theorem execBflush_inversion (h : execBflush s = .next t) : Inversion (.bflush) s t :=
  runCommand_inversion h fun u hu => by
    cases hu; exact rfl

theorem execMinit_inversion (h : execMinit s = .next t) : Inversion (.minit) s t :=
  runCommand_inversion h fun u hu => by
    simp only [bind_eq_ok, require_eq_ok, requireVersion, requirePhase, exists_const, Except.ok.injEq] at hu
    exact ⟨hu.1, hu.2.1, hu.2.2.symm⟩

theorem execMfind_inversion (h : execMfind s = .next t) : Inversion (.mfind) s t :=
  runCommand_inversion h fun u hu => by
    simp only [bind_eq_ok, require_eq_ok, requirePhase, exists_const, Except.ok.injEq] at hu
    exact ⟨hu.1, hu.2.symm⟩

theorem execMtime_inversion (h : execMtime s = .next t) : Inversion (.mtime) s t :=
  runCommand_inversion h fun u hu => by
    simp only [bind_eq_ok, require_eq_ok, requirePhase, exists_const, Except.ok.injEq] at hu
    exact ⟨hu.1, hu.2.symm⟩

theorem execMalign_inversion (h : execMalign s = .next t) : Inversion (.malign) s t :=
  runCommand_inversion h fun u hu => by
    simp only [bind_eq_ok, require_eq_ok, requirePhase, exists_const, Except.ok.injEq] at hu
    exact ⟨hu.1, hu.2.symm⟩

theorem execMrsv_inversion (h : execMrsv s = .next t) : Inversion (.mrsv) s t :=
  runCommand_inversion h fun u hu => by
    simp only [bind_eq_ok, require_eq_ok, requirePhase, exists_const, Except.ok.injEq] at hu
    exact ⟨hu.1, hu.2.symm⟩

theorem execIfmt_inversion (h : execIfmt s = .next t) : Inversion (.ifmt) s t :=
  runCommand_inversion h fun u hu => by
    simp only [bind_eq_ok, require_eq_ok, requirePhase, exists_const, Except.ok.injEq] at hu
    exact ⟨hu.1, hu.2.symm⟩

theorem execMsel_inversion (h : execMsel s = .next t) : Inversion (.msel) s t :=
  runCommand_inversion h fun u hu => by
    simp only [bind_eq_ok, require_eq_ok, requirePhase, exists_const, Except.ok.injEq] at hu
    exact ⟨hu.1, hu.2.symm⟩

theorem execMdata_inversion (h : execMdata s = .next t) : Inversion (.mdata) s t :=
  runCommand_inversion h fun u hu => by
    simp only [bind_eq_ok, require_eq_ok, requirePhase, exists_const, Except.ok.injEq] at hu
    exact ⟨hu.1, hu.2.1, _, hu.2.2.symm⟩

theorem execMmask_inversion {rs1 : XReg} (h : execMmask rs1 s = .next t) : Inversion (.mmask rs1) s t :=
  runCommand_inversion h fun u hu => by
    simp only [bind_eq_ok, require_eq_ok, requirePhase, exists_const, Except.ok.injEq] at hu
    exact ⟨hu.1, _, hu.2.1, hu.2.2.symm⟩

theorem execMpen_inversion {rd : XReg} (h : execMpen rd s = .next t) : Inversion (.mpen rd) s t :=
  runCommand_inversion h fun u hu => by
    simp only [bind_eq_ok, require_eq_ok, exists_const, Except.ok.injEq] at hu
    exact ⟨hu.1, _, hu.2.symm⟩

theorem execIver_inversion (h : execIver s = .next t) : Inversion (.iver) s t :=
  runCommand_inversion h fun u hu => by
    simp only [bind_eq_ok, require_eq_ok, requirePhase, exists_const] at hu
    obtain ⟨hp, hu⟩ := hu
    split at hu
    · cases hu; exact ⟨hp, _, _, rfl⟩
    · cases hu; exact ⟨hp, [], 0, rfl⟩

theorem execBchf_inversion {rd rs1 : XReg} (h : execBchf rd rs1 s = .next t) : Inversion (.bchf rd rs1) s t :=
  runCommand_inversion h fun u hu => by
    simp only [bind_eq_ok, Except.ok.injEq] at hu
    obtain ⟨_, _, rfl⟩ := hu
    exact ⟨_, rfl⟩

theorem execBchv_inversion {rd rs1 : XReg} (h : execBchv rd rs1 s = .next t) : Inversion (.bchv rd rs1) s t :=
  runCommand_inversion h fun u hu => by
    simp only [bind_eq_ok, Except.ok.injEq] at hu
    obtain ⟨_, _, rfl⟩ := hu
    exact ⟨_, rfl⟩

theorem execNop_inversion (h : execNop s = .next t) : Inversion (.nop) s t :=
  runCommand_inversion h fun u hu => by
    cases hu; exact rfl

theorem execHalt_inversion (h : execHalt s = .next t) : Inversion (.halt) s t :=
  runCommand_inversion h fun u hu => by
    cases hu; exact rfl

theorem execClear_inversion (h : execClear s = .next t) : Inversion (.clear) s t :=
  runCommand_inversion h fun u hu => by
    cases hu; exact rfl

theorem execLdi_inversion {rd : XReg} {imm : BitVec 16} (h : execLdi rd imm s = .next t) : Inversion (.ldi rd imm) s t :=
  runCommand_inversion h fun u hu => by
    cases hu; exact ⟨_, rfl⟩

theorem execMov_inversion {rd rs1 : XReg} (h : execMov rd rs1 s = .next t) : Inversion (.mov rd rs1) s t :=
  runCommand_inversion h fun u hu => by
    cases hu; exact ⟨_, rfl⟩

theorem execLdb_inversion {rd : XReg} {sp : Space} {rs1 : XReg} (h : execLdb rd sp rs1 s = .next t) : Inversion (.ldb rd sp rs1) s t :=
  runCommand_inversion h fun u hu => by
    simp only [bind_eq_ok, Except.ok.injEq] at hu
    obtain ⟨_, _, rfl⟩ := hu
    exact ⟨_, rfl⟩

theorem execStb_inversion {sp : Space} {rs1 rs2 : XReg} (h : execStb sp rs1 rs2 s = .next t) : Inversion (.stb sp rs1 rs2) s t :=
  runCommand_inversion h fun u hu => by
    simp only [bind_eq_ok, require_eq_ok, exists_const, ramLimit_eq_ok, memWrite_eq_ok] at hu
    obtain ⟨n, hn, ha, v, _, _, _, _, rfl⟩ := hu
    exact ⟨n, v, ramSize_of_limit hn, ha, rfl⟩

theorem execCsrr_inversion {rd : XReg} {csr : Csr} (h : execCsrr rd csr s = .next t) : Inversion (.csrr rd csr) s t :=
  runCommand_inversion h fun u hu => by
    cases hu; exact ⟨_, rfl⟩

theorem execCsrw_inversion {csr : Csr} {rs1 : XReg} (h : execCsrw csr rs1 s = .next t) : Inversion (.csrw csr rs1) s t :=
  runCommand_inversion h fun u hu => by
    exact csrWrite_eq_ok hu

/-- What every command can do (R12, R285). -/
theorem exec_inversion {i : Instr} (h : exec i s = .next t) : Inversion i s t := by
  cases i with
  | gfadd => exact execGfadd_inversion h
  | gfmul => exact execGfmul_inversion h
  | gfdiv => exact execGfdiv_inversion h
  | gfpow => exact execGfpow_inversion h
  | gfexp => exact execGfexp_inversion h
  | gflog => exact execGflog_inversion h
  | pld => exact execPld_inversion h
  | pst => exact execPst_inversion h
  | pmov => exact execPmov_inversion h
  | pdeg => exact execPdeg_inversion h
  | padd => exact execPadd_inversion h
  | pmul => exact execPmul_inversion h
  | pscl => exact execPscl_inversion h
  | peval => exact execPeval_inversion h
  | rsgen => exact execRsgen_inversion h
  | rsrem => exact execRsrem_inversion h
  | rsenc => exact execRsenc_inversion h
  | rssyn => exact execRssyn_inversion h
  | bapp => exact execBapp_inversion h
  | bseg => exact execBseg_inversion h
  | bterm => exact execBterm_inversion h
  | balign => exact execBalign_inversion h
  | bpad => exact execBpad_inversion h
  | bflush => exact execBflush_inversion h
  | minit => exact execMinit_inversion h
  | mfind => exact execMfind_inversion h
  | mtime => exact execMtime_inversion h
  | malign => exact execMalign_inversion h
  | mrsv => exact execMrsv_inversion h
  | mdata => exact execMdata_inversion h
  | mmask => exact execMmask_inversion h
  | mpen => exact execMpen_inversion h
  | msel => exact execMsel_inversion h
  | ifmt => exact execIfmt_inversion h
  | iver => exact execIver_inversion h
  | bchf => exact execBchf_inversion h
  | bchv => exact execBchv_inversion h
  | nop => exact execNop_inversion h
  | halt => exact execHalt_inversion h
  | clear => exact execClear_inversion h
  | ldi => exact execLdi_inversion h
  | mov => exact execMov_inversion h
  | ldb => exact execLdb_inversion h
  | stb => exact execStb_inversion h
  | csrr => exact execCsrr_inversion h
  | csrw => exact execCsrw_inversion h

end

/-- Every command answers a next state, in every state (R327; log 10). -/
theorem exec_next (i : Instr) (s : State) : ∃ t, exec i s = .next t := by
  cases i <;> first | exact ⟨_, rfl⟩ | exact runCommand_next _ _ _

end Sys2Proof.Machine
end

