-- ==== Sys2Proof/Laws/HostSoftware.lean ====
section
/-! SUPPORT. The host's functions (47_host_orchestration.md, part 2): a served transaction is QRE's step on it, a violation
leaves QRE untouched, and every constant of a plan fits its command (R241, R242, R244, R245). -/

namespace Sys2Proof.Machine

/-! ### Serving transactions -/

/-- QRE answers every transaction with a next state (R327; log 10). -/
theorem transact_next (tx : HostTx) (s : State) : ∃ t, transact tx s = .next t := by
  cases tx with
  | reset => exact ⟨_, rfl⟩
  | read _ _ => exact ⟨_, rfl⟩
  | write _ _ _ => exact ⟨_, rfl⟩
  | csr _ => exact ⟨_, rfl⟩
  | command cw =>
    simp only [transact, command]
    split
    · split
      · exact exec_next _ _
      · exact ⟨_, rfl⟩
    · split
      · exact exec_next _ _
      · exact ⟨_, rfl⟩

/-- What the host serves is the transaction's own next state. -/
theorem transact_serve (tx : HostTx) (s : State) : transact tx s = .next (serve s tx) := by
  obtain ⟨t, ht⟩ := transact_next tx s
  simp only [serve, ht]

/-- Serving a transaction is the step in which it is the next one. -/
theorem step_serve (tx : HostTx) (rest : List HostTx) (s : State) (h : s.pending = tx :: rest) :
    step s = .next (serve { s with pending := rest } tx) := by
  simp only [step, nextTransaction, h, transact_serve]

/-! ### Plans -/

/-- The segments that continue a run lie within the bytes up to the end (R243). -/
theorem segmentFrom_end {m : Mode} {n i : Nat} {bs : List Byte} (h : n ≤ i) :
    ∀ g ∈ segmentFrom m n i bs, g.start + g.len ≤ i + bs.length := by
  induction bs generalizing m n i with
  | nil => simp [segmentFrom]; omega
  | cons b bs ih =>
    simp only [segmentFrom, List.length_cons]
    split
    · intro g hg
      have := ih (by omega) g hg
      omega
    · intro g hg
      rcases List.mem_cons.mp hg with rfl | hg
      · simp only; omega
      · have := ih (by omega) g hg
        omega

/-- Every segment lies within the bytes (R243). -/
theorem segmentInput_end (bs : List Byte) : ∀ g ∈ segmentInput bs, g.start + g.len ≤ bs.length := by
  cases bs with
  | nil => simp [segmentInput]
  | cons b bs =>
    intro g hg
    have := segmentFrom_end (m := modeOf b) (n := 1) (i := 1) (bs := bs) (Nat.le_refl 1) g hg
    simp only [List.length_cons]
    omega

/-- A chosen version fits the segments, and the text fits IN (R242, R244). -/
theorem chosenVersion_fits {n v : Nat} {segs : List Segment} {lv : Level} {pin : Option Nat}
    (h : chosenVersion n segs lv pin = some v) : n ≤ 8192 ∧ fitsVersion segs lv v = true := by
  unfold chosenVersion at h
  split at h
  · rename_i hn
    refine ⟨hn, ?_⟩
    cases pin with
    | none => exact List.find?_some h
    | some w =>
      simp only at h
      split at h
      · rename_i hf
        exact Option.some.inj h ▸ hf
      · exact absurd h (by simp)
  · exact absurd h (by simp)

/-- What a plan is made of, once no violation is raised. -/
theorem generatePlan_eq_ok {input : HostInput} {o : GenerateOptions} {p : GeneratePlan}
    (h : generatePlan input o = .ok p) :
    optionViolations input o = [] ∧ p.bytes = input.bytes ∧ p.segments = segmentInput input.bytes ∧
    chosenVersion input.bytes.length p.segments p.level o.version.pinned = some p.version := by
  unfold generatePlan at h
  split at h
  · exact absurd h (by simp)
  · rename_i hv
    simp only at h
    split at h
    · rename_i hc
      cases h
      exact ⟨hv, rfl, rfl, hc⟩
    · exact absurd h (by simp)

/-- The bounds of a plan: the text fits IN, each segment lies in the text, so that `start` and `n` are at most 8192 and fit
LDI's 16-bit constant, and the segments fit the version (R242, R244, R245). -/
theorem generatePlan_bounds {input : HostInput} {o : GenerateOptions} {p : GeneratePlan}
    (h : generatePlan input o = .ok p) :
    p.bytes.length ≤ 8192 ∧ (∀ g ∈ p.segments, g.start + g.len ≤ 8192) ∧
    fitsVersion p.segments p.level p.version = true := by
  obtain ⟨-, hb, hs, hc⟩ := generatePlan_eq_ok h
  obtain ⟨hn, hf⟩ := chosenVersion_fits hc
  refine ⟨hb ▸ hn, fun g hg => ?_, hf⟩
  have := segmentInput_end _ g (hs ▸ hg)
  omega

/-- A violation is raised before any command: QRE is untouched (R241, R254). -/
theorem generate_violation {input : HostInput} {o : GenerateOptions} {v : Violation}
    (h : generatePlan input o = .error v) (s : State) : generate input o s = (s, .error v.kind) := by
  simp only [generate, h]

end Sys2Proof.Machine
end

