-- ==== Sys2Proof/Laws/PerInstr.lean ====
section
/-! SUPPORT. The per-command family `Opcode`: the opcode byte of a command's word is the one the opcode map gives it
(30_encoding.md R91), for every command and all of its operands. -/

namespace Sys2Proof.Laws.Opcode

/-- The opcode map of R91. -/
def table : Instr → Nat
  | .nop => 0x00 | .halt => 0x01 | .clear => 0x02 | .ldi .. => 0x03 | .mov .. => 0x04 | .ldb .. => 0x05
  | .stb .. => 0x06 | .csrr .. => 0x07 | .csrw .. => 0x08
  | .gfadd .. => 0x10 | .gfmul .. => 0x11 | .gfdiv .. => 0x12 | .gfpow .. => 0x13 | .gfexp .. => 0x14
  | .gflog .. => 0x15
  | .pld .. => 0x20 | .pst .. => 0x21 | .pmov .. => 0x22 | .pdeg .. => 0x23 | .padd .. => 0x24 | .pmul .. => 0x25
  | .pscl .. => 0x26 | .peval .. => 0x27
  | .rsgen .. => 0x30 | .rsrem .. => 0x31 | .rsenc => 0x32 | .rssyn .. => 0x33
  | .bapp .. => 0x40 | .bseg .. => 0x41 | .bterm => 0x42 | .balign => 0x43 | .bpad => 0x44 | .bflush => 0x45
  | .minit => 0x50 | .mfind => 0x51 | .mtime => 0x52 | .malign => 0x53 | .mrsv => 0x54 | .mdata => 0x55
  | .mmask .. => 0x56 | .mpen .. => 0x57 | .msel => 0x58
  | .ifmt => 0x60 | .iver => 0x61 | .bchf .. => 0x62 | .bchv .. => 0x63

/-- The opcode byte of the command's word is the opcode map's. -/
def Statement (i : Instr) : Prop := bits (encode i) 31 24 = table i

theorem gfadd (rd rs1 rs2 : XReg) : Statement (.gfadd rd rs1 rs2) :=
  bits_op_pack (by decide) (rd.isLt) (rs1.isLt) (packLow_lt (rs2.isLt) (by decide) (by decide) (by decide) (by decide))

theorem gfmul (rd rs1 rs2 : XReg) : Statement (.gfmul rd rs1 rs2) :=
  bits_op_pack (by decide) (rd.isLt) (rs1.isLt) (packLow_lt (rs2.isLt) (by decide) (by decide) (by decide) (by decide))

theorem gfdiv (rd rs1 rs2 : XReg) : Statement (.gfdiv rd rs1 rs2) :=
  bits_op_pack (by decide) (rd.isLt) (rs1.isLt) (packLow_lt (rs2.isLt) (by decide) (by decide) (by decide) (by decide))

theorem gfpow (rd rs1 rs2 : XReg) : Statement (.gfpow rd rs1 rs2) :=
  bits_op_pack (by decide) (rd.isLt) (rs1.isLt) (packLow_lt (rs2.isLt) (by decide) (by decide) (by decide) (by decide))

theorem gfexp (rd rs1 : XReg) : Statement (.gfexp rd rs1) :=
  bits_op_pack (by decide) (rd.isLt) (rs1.isLt) (by decide)

theorem gflog (rd rs1 : XReg) : Statement (.gflog rd rs1) :=
  bits_op_pack (by decide) (rd.isLt) (rs1.isLt) (by decide)

theorem pld (pd : PReg) (sp : Space) (rs1 rs2 : XReg) : Statement (.pld pd sp rs1 rs2) :=
  bits_op_pack (by decide) (by decide) (rs1.isLt) (packLow_lt (rs2.isLt) (pd.isLt) (by decide) (by decide) (by have := sp.number_le; omega))

theorem pst (pa : PReg) (sp : Space) (rs1 : XReg) : Statement (.pst pa sp rs1) :=
  bits_op_pack (by decide) (by decide) (rs1.isLt) (packLow_lt (by decide) (by decide) (pa.isLt) (by decide) (by have := sp.number_le; omega))

theorem pmov (pd pa : PReg) : Statement (.pmov pd pa) :=
  bits_op_pack (by decide) (by decide) (by decide) (packLow_lt (by decide) (pd.isLt) (pa.isLt) (by decide) (by decide))

theorem pdeg (rd : XReg) (pa : PReg) : Statement (.pdeg rd pa) :=
  bits_op_pack (by decide) (rd.isLt) (by decide) (packLow_lt (by decide) (by decide) (pa.isLt) (by decide) (by decide))

theorem padd (pd pa pb : PReg) : Statement (.padd pd pa pb) :=
  bits_op_pack (by decide) (by decide) (by decide) (packLow_lt (by decide) (pd.isLt) (pa.isLt) (pb.isLt) (by decide))

theorem pmul (pd pa pb : PReg) : Statement (.pmul pd pa pb) :=
  bits_op_pack (by decide) (by decide) (by decide) (packLow_lt (by decide) (pd.isLt) (pa.isLt) (pb.isLt) (by decide))

theorem pscl (pd pa : PReg) (rs1 : XReg) : Statement (.pscl pd pa rs1) :=
  bits_op_pack (by decide) (by decide) (rs1.isLt) (packLow_lt (by decide) (pd.isLt) (pa.isLt) (by decide) (by decide))

theorem peval (rd : XReg) (pa : PReg) (rs1 : XReg) : Statement (.peval rd pa rs1) :=
  bits_op_pack (by decide) (rd.isLt) (rs1.isLt) (packLow_lt (by decide) (by decide) (pa.isLt) (by decide) (by decide))

theorem rsgen (pd : PReg) (rs1 : XReg) : Statement (.rsgen pd rs1) :=
  bits_op_pack (by decide) (by decide) (rs1.isLt) (packLow_lt (by decide) (pd.isLt) (by decide) (by decide) (by decide))

theorem rsrem (pd pa pb : PReg) : Statement (.rsrem pd pa pb) :=
  bits_op_pack (by decide) (by decide) (by decide) (packLow_lt (by decide) (pd.isLt) (pa.isLt) (pb.isLt) (by decide))

theorem rsenc : Statement .rsenc :=
  bits_op_pack (by decide) (by decide) (by decide) (by decide)

theorem rssyn (rd : XReg) (pd pa : PReg) (rs1 : XReg) : Statement (.rssyn rd pd pa rs1) :=
  bits_op_pack (by decide) (rd.isLt) (rs1.isLt) (packLow_lt (by decide) (pd.isLt) (pa.isLt) (by decide) (by decide))

theorem bapp (rs1 rs2 : XReg) : Statement (.bapp rs1 rs2) :=
  bits_op_pack (by decide) (by decide) (rs1.isLt) (packLow_lt (rs2.isLt) (by decide) (by decide) (by decide) (by decide))

theorem bseg (mode : Mode) (rs1 rs2 : XReg) : Statement (.bseg mode rs1 rs2) :=
  bits_op_pack (by decide) (by decide) (rs1.isLt) (packLow_lt (rs2.isLt) (by decide) (by decide) (by decide) (by have := mode.number_le; omega))

theorem bterm : Statement .bterm :=
  bits_op_pack (by decide) (by decide) (by decide) (by decide)

theorem balign : Statement .balign :=
  bits_op_pack (by decide) (by decide) (by decide) (by decide)

theorem bpad : Statement .bpad :=
  bits_op_pack (by decide) (by decide) (by decide) (by decide)

theorem bflush : Statement .bflush :=
  bits_op_pack (by decide) (by decide) (by decide) (by decide)

theorem minit : Statement .minit :=
  bits_op_pack (by decide) (by decide) (by decide) (by decide)

theorem mfind : Statement .mfind :=
  bits_op_pack (by decide) (by decide) (by decide) (by decide)

theorem mtime : Statement .mtime :=
  bits_op_pack (by decide) (by decide) (by decide) (by decide)

theorem malign : Statement .malign :=
  bits_op_pack (by decide) (by decide) (by decide) (by decide)

theorem mrsv : Statement .mrsv :=
  bits_op_pack (by decide) (by decide) (by decide) (by decide)

theorem mdata : Statement .mdata :=
  bits_op_pack (by decide) (by decide) (by decide) (by decide)

theorem mmask (rs1 : XReg) : Statement (.mmask rs1) :=
  bits_op_pack (by decide) (by decide) (rs1.isLt) (by decide)

theorem mpen (rd : XReg) : Statement (.mpen rd) :=
  bits_op_pack (by decide) (rd.isLt) (by decide) (by decide)

theorem msel : Statement .msel :=
  bits_op_pack (by decide) (by decide) (by decide) (by decide)

theorem ifmt : Statement .ifmt :=
  bits_op_pack (by decide) (by decide) (by decide) (by decide)

theorem iver : Statement .iver :=
  bits_op_pack (by decide) (by decide) (by decide) (by decide)

theorem bchf (rd rs1 : XReg) : Statement (.bchf rd rs1) :=
  bits_op_pack (by decide) (rd.isLt) (rs1.isLt) (by decide)

theorem bchv (rd rs1 : XReg) : Statement (.bchv rd rs1) :=
  bits_op_pack (by decide) (rd.isLt) (rs1.isLt) (by decide)

theorem nop : Statement .nop :=
  bits_op_pack (by decide) (by decide) (by decide) (by decide)

theorem halt : Statement .halt :=
  bits_op_pack (by decide) (by decide) (by decide) (by decide)

theorem clear : Statement .clear :=
  bits_op_pack (by decide) (by decide) (by decide) (by decide)

theorem ldi (rd : XReg) (imm : BitVec 16) : Statement (.ldi rd imm) :=
  bits_op_pack (by decide) (rd.isLt) (by decide) imm.isLt

theorem mov (rd rs1 : XReg) : Statement (.mov rd rs1) :=
  bits_op_pack (by decide) (rd.isLt) (rs1.isLt) (by decide)

theorem ldb (rd : XReg) (sp : Space) (rs1 : XReg) : Statement (.ldb rd sp rs1) :=
  bits_op_pack (by decide) (rd.isLt) (rs1.isLt) (packLow_lt (by decide) (by decide) (by decide) (by decide) (by have := sp.number_le; omega))

theorem stb (sp : Space) (rs1 rs2 : XReg) : Statement (.stb sp rs1 rs2) :=
  bits_op_pack (by decide) (by decide) (rs1.isLt) (packLow_lt (rs2.isLt) (by decide) (by decide) (by decide) (by have := sp.number_le; omega))

theorem csrr (rd : XReg) (csr : Csr) : Statement (.csrr rd csr) :=
  bits_op_pack (by decide) (rd.isLt) (by decide) (by have := csr.number_lt; omega)

theorem csrw (csr : Csr) (rs1 : XReg) : Statement (.csrw csr rs1) :=
  bits_op_pack (by decide) (by decide) (rs1.isLt) (by have := csr.number_lt; omega)

end Sys2Proof.Laws.Opcode
end

