-- ==== Sys2Proof/Tests/Slice0.lean ====
section
/-! SUPPORT. Tests of the model: one word per command decoded, ill-formed commands refused, one step of each command on
the worked examples of spec/ (the rule or section is named at each test), and for each statement with hypotheses a
witness that its hypotheses can be met. -/

namespace Sys2Proof.Tests

open Sys2Proof.Machine

-- The kernel evaluations below are checked one after the other, so that they do not wait in threads of their own.
set_option Elab.async false

/-! ### Small states -/

/-- The state of an outcome that is a next state. -/
def nextOf : Host.Outcome State Fault Refusal → Option State
  | .next t => some t
  | _ => none

/-- The reset state with these scalar registers. -/
def regs (l : List (XReg × Nat)) : State := l.foldl (fun s p => writeX s p.1 (BitVec.ofNat 32 p.2)) State.reset

/-- A state with this polynomial register. -/
def withP (s : State) (k : PReg) (l : List Nat) : State := writeP s k (l.map (BitVec.ofNat 8))

/-- The memory with these bytes from address 0 on. -/
def bytesAt (l : List Nat) : Memory := Memory.writeAll [] 0 (l.map (BitVec.ofNat 8))

/-- The bits of a string of 0 and 1. -/
def bitList (l : List Nat) : List Bool := l.map (· = 1)

/-- A version 1, level Q state in phase `ph` with the matrix `g`. -/
def v1 (ph : Nat) (g : Grid) : State :=
  { State.reset with ver := 1, ecl := 3, size := 21, phase := BitVec.ofNat 4 ph, mat := g }

/-- The data codewords of "HELLO WORLD" 1-Q (95_test_vectors.md section 3). -/
def helloData : List Nat := [0x20, 0x5B, 0x0B, 0x78, 0xD1, 0x72, 0xDC, 0x4D, 0x43, 0x40, 0xEC, 0x11, 0xEC]

/-- Its ECC codewords (R142). -/
def helloEcc : List Nat := [0xA8, 0x48, 0x16, 0x52, 0xD9, 0x36, 0x9C, 0x00, 0x2E, 0x0F, 0xB4, 0x7A, 0x10]

/-- The matrix of "HELLO WORLD" 1-Q after MDATA. -/
def helloGrid : Grid :=
  ((nextOf (exec .mdata { v1 5 (functionPattern 1) with
    flen := 26, fcw := bytesAt (helloData ++ helloEcc) })).map (·.mat)).getD []

/-! ### Well-formedness -/

/-- PLD, PST and STB name IN, DCW or FCW only (R86). -/
theorem test_illformed_spaces :
    [Space.exp, .log, .mat, .bb].all (fun sp =>
      (Instr.pld 0 sp 1 2).wellFormed = false && (Instr.pst 0 sp 1).wellFormed = false
        && (Instr.stb sp 1 2).wellFormed = false) = true ∧
    [Space.inp, .dcw, .fcw].all (fun sp =>
      (Instr.pld 0 sp 1 2).wellFormed && (Instr.pst 0 sp 1).wellFormed && (Instr.stb sp 1 2).wellFormed) = true := by
  decide

/-- CSRW names VER, ECL, DLEN or FLEN only (R268). -/
theorem test_illformed_csrw :
    [Csr.status, .errcmd, .cmdcnt, .size, .phase, .mask, .bblen, .totbits, .pen, .bstage, .penv 0, .fmt, .vinf, .plen 3,
      .datacw, .totcw, .nblk, .eccpb].all (fun c => (Instr.csrw c 1).wellFormed = false) = true ∧
    [Csr.ver, .ecl, .dlen, .flen].all (fun c => (Instr.csrw c 1).wellFormed) = true := by
  decide

/-! ### Decoding: words written out from the encodings of R81 to R91 -/

/-- GF unit: the examples of R100 to R105. -/
theorem test_decode_gf :
    [0x10312000, 0x11312000, 0x12312000, 0x13312000, 0x14310000, 0x15310000].map (decodeTableWord 32) =
      [some (.gfadd 3 1 2), some (.gfmul 3 1 2), some (.gfdiv 3 1 2), some (.gfpow 3 1 2), some (.gfexp 3 1),
        some (.gflog 3 1)] := by decide

/-- Polynomial unit: the examples of R120 to R127. -/
theorem test_decode_poly :
    [0x20012001, 0x21040101, 0x22000200, 0x23500000, 0x24000840, 0x25000840, 0x26010400, 0x27510000].map
        (decodeTableWord 32) =
      [some (.pld 0 .dcw 1 2), some (.pst 1 .dcw 4), some (.pmov 0 2), some (.pdeg 5 0), some (.padd 2 0 1),
        some (.pmul 2 0 1), some (.pscl 1 0 1), some (.peval 5 0 1)] := by decide

/-- Reed-Solomon unit: the examples of R140 to R143. -/
theorem test_decode_rs :
    [0x30010400, 0x31000840, 0x32000000, 0x33210400].map (decodeTableWord 32) =
      [some (.rsgen 1 1), some (.rsrem 2 0 1), some .rsenc, some (.rssyn 2 1 0 1)] := by decide

/-- Packer: the examples of R160, R161, the words of program P3, and the four mode codes (R93). -/
theorem test_decode_packer :
    [0x40012000, 0x41012001, 0x41012002, 0x41012004, 0x41012008, 0x42000000, 0x43000000, 0x44000000, 0x45000000].map
        (decodeTableWord 32) =
      [some (.bapp 1 2), some (.bseg .numeric 1 2), some (.bseg .alphanumeric 1 2), some (.bseg .byte 1 2),
        some (.bseg .kanji 1 2), some .bterm, some .balign, some .bpad, some .bflush] := by decide

/-- Matrix engine: the words of program P3, R203 and R209. -/
theorem test_decode_matrix :
    [0x50000000, 0x51000000, 0x52000000, 0x53000000, 0x54000000, 0x55000000, 0x56010000, 0x57400000, 0x58000000].map
        (decodeTableWord 32) =
      [some .minit, some .mfind, some .mtime, some .malign, some .mrsv, some .mdata, some (.mmask 1), some (.mpen 4),
        some .msel] := by decide

/-- Information placer: R220 to R224. -/
theorem test_decode_information :
    [0x60000000, 0x61000000, 0x62210000, 0x63210000].map (decodeTableWord 32) =
      [some .ifmt, some .iver, some (.bchf 2 1), some (.bchv 2 1)] := by decide

/-- System commands: R260 to R268. -/
theorem test_decode_system :
    [0x00000000, 0x01000000, 0x02000000, 0x03101234, 0x04210000, 0x05310003, 0x06012001, 0x0740001E, 0x08010003].map
        (decodeTableWord 32) =
      [some .nop, some .halt, some .clear, some (.ldi 1 0x1234), some (.mov 2 1), some (.ldb 3 .exp 1),
        some (.stb .dcw 1 2), some (.csrr 4 .datacw), some (.csrw .ver 1)] := by decide

/-- Every operand field at its largest value: no bit of it is dropped (R82 to R86). -/
theorem test_decode_wide_fields :
    [0x10FFF000, 0x03F0FFFF, 0x200FFC02, 0x33FF0F00, 0x24000FC0, 0x05FF0006, 0x07F00021].map
        (decodeTableWord 32) =
      [some (.gfadd 15 15 15), some (.ldi 15 0xFFFF), some (.pld 3 .fcw 15 15), some (.rssyn 15 3 3 15),
        some (.padd 3 3 3), some (.ldb 15 .bb 15), some (.csrr 15 .eccpb)] := by decide

/-- The illegal words of 95_test_vectors.md section 6. -/
theorem test_decode_illegal :
    [0x00000001, 0x09000000, 0xFF000000, 0x16000000, 0x59000000, 0x10123001, 0x05310007, 0x06012003, 0x41012003,
      0x0740000E, 0x07400022, 0x08010002, 0x02000001].map (decodeTableWord 32) = List.replicate 13 none := by decide

/-- Legal words of that section beside them. -/
theorem test_decode_legal_neighbours :
    [0x10123000, 0x0801000A, 0x05310003].map (decodeTableWord 32) =
      [some (.gfadd 1 2 3), some (.csrw .dlen 1), some (.ldb 3 .exp 1)] := by decide

/-! ### The GF unit: 40_gf256.md and 95_test_vectors.md section 2 -/

/-- R100. -/
theorem test_gfadd : (nextOf (exec (.gfadd 3 1 2) (regs [(1, 0x53), (2, 0xCA)]))).map (readX · 3) = some 0x99 := by decide

/-- R101: the reduction by 0x11D is visible in 2 * 128. -/
theorem test_gfmul_reduces :
    (nextOf (exec (.gfmul 3 1 2) (regs [(1, 2), (2, 128)]))).map (readX · 3) = some 29 ∧
    (nextOf (exec (.gfmul 3 1 2) (regs [(1, 0x53), (2, 0xCA)]))).map (readX · 3) = some 0x8F ∧
    (nextOf (exec (.gfmul 3 1 2) (regs [(1, 255), (2, 255)]))).map (readX · 3) = some 226 := by decide

/-- R107: an operand 256 is RangeError. -/
theorem test_gfmul_range :
    (nextOf (exec (.gfmul 3 1 2) (regs [(1, 256), (2, 1)]))).map (fun t => (t.fault, t.errcmd, t.cmdcnt)) =
      some (some .rangeError, 0x11312000, 0) := by decide

/-- R102. -/
theorem test_gfdiv :
    (nextOf (exec (.gfdiv 3 1 2) (regs [(1, 29), (2, 2)]))).map (readX · 3) = some 128 ∧
    (nextOf (exec (.gfdiv 3 1 2) (regs [(1, 0), (2, 9)]))).map (readX · 3) = some 0 := by decide

/-- R102, program P4: 7 / 0. -/
theorem test_gfdiv_zero :
    (nextOf (exec (.gfdiv 3 1 2) (regs [(1, 7), (2, 0)]))).map (fun t => (csrRead t .status, t.errcmd)) =
      some (0x41, 0x12312000) := by decide

/-- R103, with the full 32-bit exponent. -/
theorem test_gfpow :
    (nextOf (exec (.gfpow 3 1 2) (regs [(1, 5), (2, 300)]))).map (readX · 3) = some 89 ∧
    (nextOf (exec (.gfpow 3 1 2) (regs [(1, 2), (2, 0xFFFFFFFF)]))).map (readX · 3) = some 1 ∧
    (nextOf (exec (.gfpow 3 1 2) (regs [(1, 0), (2, 0)]))).map (readX · 3) = some 1 := by decide

/-- R104. -/
theorem test_gfexp :
    (nextOf (exec (.gfexp 3 1) (regs [(1, 25)]))).map (readX · 3) = some 3 ∧
    (nextOf (exec (.gfexp 3 1) (regs [(1, 255)]))).map (·.fault) = some (some .rangeError) := by decide

/-- R105. -/
theorem test_gflog :
    (nextOf (exec (.gflog 3 1) (regs [(1, 255)]))).map (readX · 3) = some 175 ∧
    (nextOf (exec (.gflog 3 1) (regs [(1, 0)]))).map (·.fault) = some (some .arithmeticError) ∧
    (nextOf (exec (.gflog 3 1) (regs [(1, 256)]))).map (·.fault) = some (some .rangeError) := by decide

/-! ### The polynomial unit: the examples of 41_polynomial.md -/

/-- R120. -/
theorem test_pld :
    (nextOf (exec (.pld 0 .dcw 1 2) { regs [(1, 0), (2, 3)] with dcw := bytesAt [0x20, 0x5B, 0x0B] })).map
      (fun t => (readP t 0, csrRead t (.plen 0))) = some ([0x20, 0x5B, 0x0B], 3) := by decide

/-- R121. -/
theorem test_pst :
    (nextOf (exec (.pst 1 .dcw 4) (withP (regs [(4, 100)]) 1 [1, 3, 2]))).map
      (fun t => [t.dcw.read 99, t.dcw.read 100, t.dcw.read 101, t.dcw.read 102, t.dcw.read 103]) =
      some [0, 1, 3, 2, 0] := by decide

/-- R122. -/
theorem test_pmov :
    (nextOf (exec (.pmov 0 2) (withP State.reset 2 [1, 127, 122]))).map (readP · 0) = some [1, 127, 122] := by decide

/-- R123. -/
theorem test_pdeg :
    (nextOf (exec (.pdeg 5 0) (withP State.reset 0 [1, 3, 2]))).map (readX · 5) = some 2 := by decide

/-- R124: operands aligned at the constant term. -/
theorem test_padd :
    (nextOf (exec (.padd 2 0 1) (withP (withP State.reset 0 [1, 2, 3]) 1 [5, 6]))).map (readP · 2) = some [1, 7, 5] := by
  decide

/-- R125. -/
theorem test_pmul :
    (nextOf (exec (.pmul 2 0 1) (withP (withP State.reset 0 [1, 3, 2]) 1 [1, 4]))).map (readP · 2) =
      some [1, 7, 14, 8] := by decide

/-- R126. -/
theorem test_pscl :
    (nextOf (exec (.pscl 1 0 1) (withP (regs [(1, 2)]) 0 [1, 3, 2]))).map (readP · 1) = some [2, 6, 4] := by decide

/-- R127: highest degree first. -/
theorem test_peval :
    (nextOf (exec (.peval 5 0 1) (withP (regs [(1, 0xFF)]) 0 [0x12, 0x34, 0x56]))).map (readX · 5) = some 15 := by decide

/-! ### The Reed-Solomon unit: the examples of 42_reed_solomon.md -/

/-- R140. -/
theorem test_rsgen :
    (nextOf (exec (.rsgen 1 1) (regs [(1, 7)]))).map (readP · 1) = some [1, 127, 122, 154, 164, 11, 68, 117] := by
  decide +kernel

/-- R141. -/
theorem test_rsrem :
    (nextOf (exec (.rsrem 2 0 1) (withP (withP State.reset 0 [0x12, 0x34, 0x56]) 1 [1, 3, 2]))).map (readP · 2) =
      some [152, 232] := by decide +kernel

/-- 95_test_vectors.md section 4: a divisor with a leading 0. -/
theorem test_rsrem_leading_zero :
    (nextOf (exec (.rsrem 2 0 1) (withP (withP State.reset 0 [5]) 1 [0, 1]))).map (·.fault) =
      some (some .arithmeticError) := by decide

/-- R142, version 1, level Q. -/
theorem test_rsenc_hello :
    (nextOf (exec .rsenc { v1 0 [] with dlen := 13, dcw := bytesAt helloData })).map
      (fun t => (t.fcw.readAll 0 27, t.flen)) =
      some ((helloData ++ helloEcc ++ [0]).map (BitVec.ofNat 8), 26) := by decide +kernel

/-- 95_test_vectors.md section 4, the data part of five blocks in two groups, 7-H: the first rounds, and the last round
with the only 14th byte (`E` does not bear on it, and is 1 here). -/
theorem test_interleave_galois :
    (interleaved (([0x40, 0x64, 0x76, 0x16, 0xC6, 0xF6, 0x97, 0x30] ++ (List.replicate 29 [0xEC, 0x11]).flatten).map
      (BitVec.ofNat 8)) 5 1).toOption.map
        (fun out => ((out.take 10).map BitVec.toNat, ((out.drop 60).take 6).map BitVec.toNat)) =
      some ([0x40, 0x11, 0xEC, 0x11, 0xEC, 0x64, 0xEC, 0x11, 0xEC, 0x11], [0xEC, 0x11, 0xEC, 0x11, 0xEC, 0x11]) := by
  decide +kernel

/-- R143: the codeword of R142's example has thirteen zero syndromes. -/
theorem test_rssyn_clean :
    (nextOf (exec (.rssyn 2 1 0 1) (withP (regs [(1, 13)]) 0 (helloData ++ helloEcc)))).map
      (fun t => (readX t 2, readP t 1)) = some (0, List.replicate 13 0) := by decide +kernel

/-- R143: one changed codeword makes every syndrome non-zero. -/
theorem test_rssyn_error :
    (nextOf (exec (.rssyn 2 1 0 1) (withP (regs [(1, 13)]) 0 (0x21 :: (helloData.drop 1 ++ helloEcc))))).map
      (readX · 2) = some 13 := by decide +kernel

/-! ### The packer: 43_bitstream.md and 95_test_vectors.md section 3 -/

/-- R160. -/
theorem test_bapp :
    (nextOf (exec (.bapp 1 2) (regs [(1, 2), (2, 4)]))).map (·.bb) = some (bitList [0, 0, 1, 0]) ∧
    (nextOf (exec (.bapp 1 2) (regs [(1, 8), (2, 3)]))).map (·.fault) = some (some .rangeError) := by decide

/-- Numeric "1234" at version 1: three digits, then one. -/
theorem test_bseg_numeric :
    (nextOf (exec (.bseg .numeric 1 2) { regs [(1, 0), (2, 4)] with ver := 1, inp := bytesAt [0x31, 0x32, 0x33, 0x34] })).map
      (·.bb) =
      some (bitList [0, 0, 0, 1, 0, 0, 0, 0, 0, 0, 0, 1, 0, 0, 0, 0, 0, 1, 1, 1, 1, 0, 1, 1, 0, 1, 0, 0]) := by decide +kernel

/-- Alphanumeric "AC-42". -/
theorem test_bseg_alphanumeric :
    (nextOf (exec (.bseg .alphanumeric 1 2)
      { regs [(1, 0), (2, 5)] with ver := 1, inp := bytesAt [0x41, 0x43, 0x2D, 0x34, 0x32] })).map (·.bb) =
      some (bitList [0, 0, 1, 0, 0, 0, 0, 0, 0, 0, 1, 0, 1, 0, 0, 1, 1, 1, 0, 0, 1, 1, 1, 0, 1, 1, 1, 0, 0, 1, 1, 1, 0, 0, 1,
        0, 0, 0, 0, 1, 0]) := by decide +kernel

/-- R166: version 1, level Q, 74 bits; and the terminator cut to one bit at level H. -/
theorem test_bterm :
    (nextOf (exec .bterm { v1 0 [] with bb := List.replicate 74 true })).map
      (fun t => (t.totbits, t.bb.length, t.bstage, t.bb.drop 74)) = some (74, 78, 1, List.replicate 4 false) ∧
    (nextOf (exec .bterm { v1 0 [] with ecl := 2, bb := List.replicate 71 true })).map (·.bb.length) = some 72 := by
  decide +kernel

/-- R167. -/
theorem test_balign :
    (nextOf (exec .balign { v1 0 [] with bstage := 1, bb := List.replicate 78 true })).map
      (fun t => (t.bb.drop 78, t.bstage)) = some ([false, false], 2) ∧
    (nextOf (exec .balign { v1 0 [] with bstage := 1, bb := List.replicate 80 true })).map (·.bb.length) = some 80 := by
  decide +kernel

/-- R168: EC 11 EC. -/
theorem test_bpad :
    (nextOf (exec .bpad { v1 0 [] with bstage := 2, bb := List.replicate 80 true })).map
      (fun t => (t.bb.drop 80, t.bstage)) =
      some (bitList [1, 1, 1, 0, 1, 1, 0, 0, 0, 0, 0, 1, 0, 0, 0, 1, 1, 1, 1, 0, 1, 1, 0, 0], 3) := by decide +kernel

/-- R169: a final partial byte is padded with zero bits on the right. -/
theorem test_bflush :
    (nextOf (exec .bflush { State.reset with bb := bitList [0, 0, 1, 0, 0, 0, 0, 0, 0, 1, 0, 1] })).map
      (fun t => (t.dcw.readAll 0 3, t.dlen)) = some ([0x20, 0x50, 0x00], 2) := by decide +kernel

/-! ### The matrix engine: 44_matrix_patterns.md, 45_matrix_data_mask.md and 95_test_vectors.md section 5 -/

/-- R180: 441 cells, all reading 0x02. -/
theorem test_minit :
    (nextOf (exec .minit { State.reset with ver := 1 })).map
      (fun t => (t.size, t.phase, t.mat.flatten.length, t.mat.flatten.all fun m => m.byte = 2)) =
      some (21, 1, 441, true) := by decide +kernel

/-- R181. -/
theorem test_mfind :
    (nextOf (exec .mfind (v1 1 (emptyGrid 21)))).map
      (fun t => [(0, 0), (1, 1), (3, 3), (7, 7), (0, 7), (0, 13), (0, 14), (8, 8)].map fun rc =>
        (t.mat.cell rc.1 rc.2).colour) =
      some [.dark, .light, .dark, .light, .light, .light, .dark, .unset] := by decide +kernel

/-- R182. -/
theorem test_mtime :
    (nextOf (exec .mtime (v1 2 (emptyGrid 21)))).map
      (fun t => [8, 9, 10, 11, 12].map fun i => ((t.mat.cell 6 i).colour, (t.mat.cell i 6).colour)) =
      some [(.dark, .dark), (.light, .light), (.dark, .dark), (.light, .light), (.dark, .dark)] := by decide +kernel

/-- R183: version 2 has one pattern, centred at (18, 18); version 1 has none. -/
theorem test_malign :
    (nextOf (exec .malign { State.reset with ver := 2, size := 25, phase := 3, mat := emptyGrid 25 })).map
      (fun t => ([(16, 16), (17, 17), (18, 18), (20, 20), (15, 15), (21, 21), (6, 18)].map fun rc =>
        (t.mat.cell rc.1 rc.2).colour, t.mat.flatten.countP (·.reserved))) =
      some ([.dark, .light, .dark, .dark, .unset, .unset, .unset], 25) ∧
    (nextOf (exec .malign (v1 3 (emptyGrid 21)))).map (fun t => (t.mat == emptyGrid 21, t.phase)) = some (true, 4) := by
  decide +kernel

/-- R185: version 1 reserves the 30 format cells and sets the dark module. -/
theorem test_mrsv :
    (nextOf (exec .mrsv (v1 4 (emptyGrid 21)))).map
      (fun t => (t.mat.flatten.countP (·.reserved), (t.mat.cell 13 8).byte, (t.mat.cell 8 7).byte, (t.mat.cell 6 8).byte)) =
      some (31, 5, 6, 2) := by decide +kernel

/-- R201: the scan of version 1 (95_test_vectors.md section 5). -/
theorem test_scan_order :
    (scanOrder (functionPattern 1) 21).length = 208 ∧
    (scanOrder (functionPattern 1) 21).take 8 =
      [(20, 20), (20, 19), (19, 20), (19, 19), (18, 20), (18, 19), (17, 20), (17, 19)] ∧
    ((scanOrder (functionPattern 1) 21).drop 176).take 10 =
      [(12, 8), (12, 7), (11, 8), (11, 7), (10, 8), (10, 7), (9, 8), (9, 7), (9, 5), (9, 4)] ∧
    (scanOrder (functionPattern 1) 21).drop 202 = [(10, 1), (10, 0), (11, 1), (11, 0), (12, 1), (12, 0)] := by
  decide +kernel

/-- The first picture of 95_test_vectors.md section 5: "HELLO WORLD" 1-Q after MDATA. -/
def helloPicture : List (List Char) :=
  ["#######.f##.#.#######".toList, "#.....#.f#....#.....#".toList, "#.###.#.f.##..#.###.#".toList, "#.###.#.f#.#..#.###.#".toList,
   "#.###.#.f...#.#.###.#".toList, "#.....#.f###..#.....#".toList, "#######.#.#.#.#######".toList, "........f#.#.........".toList,
   "ffffff#ff.#..ffffffff".toList, "...#.#.##.#..#.###.##".toList, "#..#######..#....##.#".toList, "..###....##.......#..".toList,
   "..#...#....#...#.....".toList, "........#....###.####".toList, "#######.f...#.####..#".toList, "#.....#.f...###....#.".toList,
   "#.###.#.f...#..#.#.#.".toList, "#.###.#.f........#...".toList, "#.###.#.f.####.####..".toList, "#.....#.f##.#..#....#".toList,
   "#######.f.####.##.#..".toList]

/-- R200: MDATA on the codewords of R142's example gives that picture. -/
theorem test_mdata_hello : picture helloGrid = helloPicture := by decide +kernel

/-- R203, R204: mask 1 inverts the unreserved cells of the even rows. -/
theorem test_mmask :
    (nextOf (exec (.mmask 1) { v1 6 helloGrid with x := (regs [(1, 1)]).x })).map
      (fun t => (t.mask, t.phase, [(20, 20), (19, 20), (20, 8), (9, 0), (10, 0)].map fun rc =>
        ((helloGrid.cell rc.1 rc.2).colour, (t.mat.cell rc.1 rc.2).colour))) =
      some (9, 7, [(.light, .dark), (.dark, .dark), (.unset, .unset), (.light, .light), (.dark, .light)]) := by
  decide +kernel

/-- R203: the whole register is the mask id. -/
theorem test_mmask_option :
    (nextOf (exec (.mmask 1) { v1 6 [] with x := (regs [(1, 0x100)]).x })).map (·.fault) =
      some (some .invalidOption) := by decide

/-- R209: the unmasked matrix of "HELLO WORLD" 1-Q scores 1205. -/
theorem test_mpen :
    (nextOf (exec (.mpen 4) (v1 6 helloGrid))).map (fun t => (readX t 4, t.pen, t.phase)) = some (1205, 1205, 6) := by
  decide +kernel

/-- R210: the spec's eight penalties choose mask 1, whose penalty is 1178; of two equal ones the lower id wins. -/
theorem test_msel_choice :
    bestMask [1334, 1178, 1188, 1193, 1235, 1244, 1192, 1294] = 1 ∧ bestMask [5, 3, 3, 4, 4, 4, 4, 3] = 1 ∧
    penalty 21 (applyMask helloGrid 1) = 1178 := by decide +kernel

/-- R210: MSEL moves on to phase 7 with a valid mask. -/
theorem test_msel : (nextOf (exec .msel (v1 6 []))).map (fun t => (t.mask, t.phase)) = some (8, 7) := by decide +kernel

/-! ### The information placer: the examples of 46_information.md -/

/-- R222: format bits 3, 5, 6, 12 and 13 of level Q, mask 1, at both copies. -/
theorem test_ifmt :
    (nextOf (exec .ifmt { v1 7 (functionPattern 1) with mask := 9 })).map
      (fun t => (t.fmt, t.phase,
        [(3, 8), (5, 8), (7, 8), (8, 2), (8, 1), (8, 17), (8, 15), (8, 14), (18, 8), (19, 8)].all fun rc =>
          (t.mat.cell rc.1 rc.2).colour = .dark,
        t.mat.flatten.countP (·.colour = .dark))) =
      some (0x3068, 8, true, (functionPattern 1).flatten.countP (·.colour = .dark) + 10) := by decide +kernel

/-- R224: version 7. -/
theorem test_iver :
    (nextOf (exec .iver { State.reset with ver := 7, size := 45, phase := 8, mask := 8, mat := emptyGrid 45 })).map
      (fun t => (t.vinf, t.phase, [(0, 36), (36, 0), (0, 34), (34, 0), (1, 36)].map fun rc =>
        (t.mat.cell rc.1 rc.2).colour)) =
      some (0x07C94, 9, [.dark, .dark, .light, .light, .light]) := by decide +kernel

/-- R220, R221. -/
theorem test_bch :
    (nextOf (exec (.bchf 2 1) (regs [(1, 25)]))).map (readX · 2) = some 0x3068 ∧
    (nextOf (exec (.bchv 2 1) (regs [(1, 7)]))).map (readX · 2) = some 0x07C94 ∧
    (nextOf (exec (.bchf 2 1) (regs [(1, 32)]))).map (·.fault) = some (some .rangeError) ∧
    (nextOf (exec (.bchv 2 1) (regs [(1, 64)]))).map (·.fault) = some (some .rangeError) := by decide +kernel

/-! ### System commands: the examples of 48_system_commands.md -/

/-- R260. -/
theorem test_nop : nextOf (exec .nop { State.reset with cmdcnt := 7 }) = some { State.reset with cmdcnt := 8 } := by
  decide

/-- R27: the count wraps. -/
theorem test_cmdcnt_wraps :
    (nextOf (exec .nop { State.reset with cmdcnt := 0xFFFFFFFF })).map (·.cmdcnt) = some 0 := by decide

/-- R261: after IVER. -/
theorem test_halt :
    (nextOf (exec .halt { State.reset with phase := 9 })).map (csrRead · .status) = some 6 := by decide

/-- R262: from a fault, with the rest of the state dirty. -/
theorem test_clear :
    nextOf (exec .clear { regs [(1, 7), (2, 9)] with
      fault := some .arithmeticError, errcmd := 0x12312000, cmdcnt := 5, bb := [true], ver := 1, inp := [(3, 4)] }) =
      some { State.reset with cmdcnt := 6 } := by decide

/-- R263: zero-extended. -/
theorem test_ldi :
    (nextOf (exec (.ldi 1 0x1234) (regs [(1, 0xFFFFFFFF)]))).map (readX · 1) = some 0x00001234 ∧
    (nextOf (exec (.ldi 15 0xFFFF) State.reset)).map (readX · 15) = some 0x0000FFFF := by decide

/-- R264. -/
theorem test_mov :
    (nextOf (exec (.mov 2 1) (regs [(1, 0xDEADBEEF)]))).map (fun t => (readX t 1, readX t 2)) =
      some (0xDEADBEEF, 0xDEADBEEF) := by decide

/-- R265: the tables. -/
theorem test_ldb_tables :
    (nextOf (exec (.ldb 3 .exp 1) (regs [(1, 25)]))).map (readX · 3) = some 3 ∧
    (nextOf (exec (.ldb 3 .log 1) (regs [(1, 25)]))).map (readX · 3) = some 193 := by decide

/-- R63: the byte of a matrix cell: the dark module of version 1, address 13*21 + 8, reads 5. -/
theorem test_ldb_mat :
    (nextOf (exec (.ldb 3 .mat 1) { v1 5 (functionPattern 1) with x := (regs [(1, 281)]).x })).map (readX · 3) = some 5 ∧
    (nextOf (exec (.ldb 3 .mat 1) { v1 5 (functionPattern 1) with x := (regs [(1, 441)]).x })).map (·.fault) =
      some (some .rangeError) := by decide +kernel

/-- R266. -/
theorem test_stb :
    (nextOf (exec (.stb .dcw 1 2) (regs [(1, 0), (2, 0x20)]))).map (fun t => (t.dcw.read 0, t.inp, t.fcw)) =
      some (0x20, [], []) ∧
    (nextOf (exec (.stb .dcw 1 2) (regs [(1, 4096), (2, 0x20)]))).map (·.fault) = some (some .rangeError) := by decide

/-- R267. -/
theorem test_csrr :
    (nextOf (exec (.csrr 4 .datacw) (v1 0 []))).map (readX · 4) = some 13 ∧
    (nextOf (exec (.csrr 4 .status) State.reset)).map (readX · 4) = some 0 ∧
    (nextOf (exec (.csrr 4 .cmdcnt) { State.reset with cmdcnt := 3 })).map (readX · 4) = some 3 := by decide

/-- R268. -/
theorem test_csrw :
    (nextOf (exec (.csrw .ver 1) (regs [(1, 1)]))).map (fun t => (t.ver, csrRead t .datacw, csrRead t .totcw)) =
      some (1, 16, 26) ∧
    (nextOf (exec (.csrw .ver 1) (regs [(1, 41)]))).map (fun t => (t.fault, t.errcmd)) =
      some (some .invalidOption, 0x08010003) := by decide

/-! ### The boundary -/

/-- The word placed by `withFetchWord` runs as the first command after reset. -/
theorem test_first_command :
    nextOf (step (State.reset.withFetchWord 32 0x03101234)) = nextOf (exec (.ldi 1 0x1234) State.reset) := by decide

/-- Program P4: after a fault a word is dropped, a host write refused, and CLEAR recovers. -/
theorem test_stopped_engine :
    (nextOf (step { State.reset with fault := some .arithmeticError, pending := [.command 0x03400005] })).map
      (fun t => (readX t 4, t.cmdcnt)) = some (0, 0) ∧
    (nextOf (step { State.reset with fault := some .arithmeticError, pending := [.write 0 0 1] })).map
      (fun t => (t.reply, t.inp)) = some (.refused, []) ∧
    (nextOf (step { State.reset with fault := some .arithmeticError, cmdcnt := 2, pending := [.command 0x02000000] })).map
      (fun t => (t.fault, t.cmdcnt)) = some (none, 3) := by decide

/-- R251: the host reads the matrix only while the result is valid. -/
theorem test_host_read_matrix :
    (nextOf (step { v1 9 (functionPattern 1) with pending := [.read 5 281] })).map (·.reply) = some (.value 5) ∧
    (nextOf (step { v1 8 (functionPattern 1) with pending := [.read 5 281] })).map (·.reply) = some .refused := by
  decide +kernel

/-! ### Host software: 95_test_vectors.md sections 1 and 6 -/

/-- R243: S5 and S6. -/
theorem test_segments :
    segmentInput ([0x31, 0x32, 0x33, 0x41, 0x42, 0x43].map (BitVec.ofNat 8)) =
      [⟨.numeric, 0, 3⟩, ⟨.alphanumeric, 3, 3⟩] ∧
    segmentInput ([0x31, 0x32, 0x33, 0x34, 0x35].map (BitVec.ofNat 8)) = [⟨.numeric, 0, 5⟩] := by decide

/-- R244. -/
theorem test_find_min_version :
    findMinVersion [⟨.byte, 0, 17⟩] .l = some 1 ∧ findMinVersion [⟨.byte, 0, 18⟩] .l = some 2 ∧
    findMinVersion [⟨.numeric, 0, 7089⟩] .l = some 40 ∧ findMinVersion [⟨.numeric, 0, 7090⟩] .l = none ∧
    findMinVersion [⟨.alphanumeric, 0, 3000⟩] .h = none := by decide +kernel

/-- A text of ASCII characters. -/
def asText (w : String) : HostInput := .text w.toList

/-- R242: one, two and three bytes of UTF-8 (RFC 3629, section 3). -/
theorem test_utf8 :
    ['A', 'é', '€'].map utf8Char = [[0x41], [0xC3, 0xA9], [0xE2, 0x82, 0xAC]] := by decide

/-- R241, R249: S10, a foreign level, a version and a mask out of range; `generate` raises the first of them. -/
theorem test_violations :
    violations (asText "") { eccLevel := .foreign, version := .number 41, maskPattern := .number 8 } =
      [.dataEmptyOrNoString, .levelForeign, .versionOutside, .maskOutside] ∧
    (generate (asText "A") { eccLevel := .foreign } State.reset).2 = .error .invalidOption ∧
    (generate .nonString {} State.reset).2 = .error .invalidInput := by decide +kernel

/-- R244: 18 bytes do not fit a pinned 1-L, and fit 2-L. -/
theorem test_pinned_version :
    violations (asText "aaaaaaaaaaaaaaaaaa") { eccLevel := .level .l, version := .number 1 } = [.capacity] ∧
    violations (asText "aaaaaaaaaaaaaaaaaa") { eccLevel := .level .l, version := .number 2 } = [] ∧
    Violation.kind .capacity = .capacityExceeded := by decide +kernel

/-- R242, R244: a text that IN cannot hold fits no version. -/
theorem test_text_too_long : chosenVersion 8193 [] .l (some 40) = none := by decide

/-- R245: the list of program P3 for "HELLO WORLD" at level Q, without the final HALT. -/
theorem test_canonical_list :
    (generatePlan (asText "HELLO WORLD") { eccLevel := .level .q }).toOption.map canonicalList =
      some ([.command 0x02000000]
        ++ [0x48, 0x45, 0x4C, 0x4C, 0x4F, 0x20, 0x57, 0x4F, 0x52, 0x4C, 0x44].mapIdx (fun i b => .write 0 i b)
        ++ [0x03100001, 0x08010003, 0x03100003, 0x08010004, 0x03100000, 0x0320000B, 0x41012002, 0x42000000, 0x43000000,
          0x44000000, 0x45000000, 0x32000000, 0x50000000, 0x51000000, 0x52000000, 0x53000000, 0x54000000, 0x55000000,
          0x58000000, 0x60000000, 0x61000000].map .command) := by decide +kernel

/-- R245: after a fault the host takes the kind from `ERR` and issues CLEAR (program P5's first state). -/
theorem test_conclude_fault :
    concludeRun [] { State.reset with fault := some .invalidInput, errcmd := 0x42000000, ver := 1, cmdcnt := 2 } =
      ({ State.reset with cmdcnt := 3 }, .error .invalidInput) := by decide

/-- A state that has the result fields of program P3, over the function pattern of version 1. -/
def resultState : State := { v1 9 (functionPattern 1) with mask := 9, totbits := 74 }

/-- R247: those fields as the host reads them through its port, and the row of the dark module. -/
theorem test_read_result :
    (fun r : GenerateResult => (r.version, r.eccLevel, r.maskPattern, r.totalBits, r.totalCodewords))
      (readResult [] resultState) = (1, .q, 1, 74, 26) ∧
    (readResult [⟨.alphanumeric, 0, 11⟩] resultState).segments = [⟨.alphanumeric, 0, 11⟩] ∧
    ((readResult [] resultState).matrix.getD 13 []).take 9 = List.replicate 8 false ++ [true] := by decide +kernel

/-! ### Witnesses: each statement with hypotheses has states and operands that meet them, clause by clause -/

/-- `DecodeOfEncode`: well-formed commands, among them those with a restricted operand. -/
theorem witness_decodeOfEncode :
    (Instr.rssyn 15 3 3 15).wellFormed = true ∧ (Instr.pld 3 .fcw 15 15).wellFormed = true ∧
    (Instr.csrw .flen 15).wellFormed = true := by decide

/-- `EncodeOfDecode`. -/
theorem witness_encodeOfDecode : decode 0x33FF0F00 = .ok (.rssyn 15 3 3 15) := rfl

/-- A running state whose next transaction is `LDI x1, 0x53`. -/
def ldiPending : State := { State.reset with pending := [.command 0x03100053] }

/-- `StepRunsDecodedCommand`, both clauses. -/
theorem witness_stepRunsDecodedCommand :
    (ldiPending.pending = .command 0x03100053 :: [] ∧ Running ldiPending ∧ decode 0x03100053 = .ok (.ldi 1 0x53)) ∧
    (Running State.reset ∧ decodeTableWord 32 0x03100053 = some (.ldi 1 0x53)) :=
  ⟨⟨rfl, ⟨rfl, rfl⟩, rfl⟩, ⟨rfl, rfl⟩, rfl⟩

/-- `IllegalWordFaults`, the first and the third clause. -/
theorem witness_illegalWordFaults :
    (({ State.reset with pending := [.command 0xFF000000] } : State).pending = .command 0xFF000000 :: [] ∧
      Running { State.reset with pending := [.command 0xFF000000] } ∧ decode 0xFF000000 = .error .opcode) ∧
    (Instr.stb .exp 1 2).wellFormed = false ∧ (Instr.csrw .cmdcnt 1).wellFormed = false :=
  ⟨⟨rfl, ⟨rfl, rfl⟩, rfl⟩, rfl, rfl⟩

/-- `StoppedEngineDropsWords`: halted with CLEAR next, and in fault with another word next. -/
theorem witness_stoppedEngineDropsWords :
    (∃ s : State, s.pending = .command 0x02000000 :: [] ∧ (s.fault ≠ none ∨ s.halted = true)) ∧
    (∃ s : State, s.pending = .command 0x02000001 :: [] ∧ (s.fault ≠ none ∨ s.halted = true) ∧
      (0x02000001 : Word) ≠ 0x02000000) :=
  ⟨⟨{ State.reset with halted := true, pending := [.command 0x02000000] }, rfl, Or.inr rfl⟩,
    ⟨{ State.reset with fault := some .rangeError, pending := [.command 0x02000001] }, rfl, Or.inl (by decide),
      by decide⟩⟩

/-- `ResetAndClearValues`: a reset presented to a dirty state. -/
theorem witness_resetAndClearValues :
    ({ regs [(1, 7)] with cmdcnt := 9, pending := [.reset] } : State).pending = .reset :: [] := rfl

/-- `ReadsAfterReset`: the last address of each range. -/
theorem witness_readsAfterReset : (8191 ≤ 8191) ∧ (4095 ≤ 4095) := by decide

/-- `HostReadsAnswer`: a read, a CSR of the file and a number that is none, next. -/
theorem witness_hostReadsAnswer :
    ({ v1 9 (functionPattern 1) with pending := [.read 5 440] } : State).pending = .read 5 440 :: [] ∧
    ({ State.reset with pending := [.csr 0x21] } : State).pending = .csr (Csr.number .eccpb) :: [] ∧
    ({ State.reset with pending := [.csr 0x22] } : State).pending = .csr 0x22 :: [] ∧
    ((0x0E : Nat) = 0x0E ∨ (0x0E : Nat) = 0x0F ∨ 0x22 ≤ 0x0E) := ⟨rfl, rfl, rfl, Or.inl rfl⟩

/-- The reset state's memories are in canonical form. -/
theorem reset_memoriesOk : MemoriesOk State.reset := by
  unfold MemoriesOk MemoryOk Memory.wf
  decide

/-- `HostWriteStoresOneByte`: the last address of each space, and each ground of a refusal. -/
theorem witness_hostWriteStoresOneByte :
    (∃ s : State, MemoriesOk s ∧ s.pending = .write 0 8191 1 :: [] ∧ Running s) ∧
    (∃ s : State, MemoriesOk s ∧ s.pending = .write 2 4095 1 :: [] ∧ Running s) ∧
    (∃ s : State, s.pending = .write 1 0 1 :: [] ∧ ¬Running s) ∧
    (∃ s : State, s.pending = .write 3 0 1 :: [] ∧ 3 ≤ 3) ∧
    (∃ s : State, s.pending = .write 0 8192 1 :: [] ∧ 8191 < 8192) ∧
    (∃ s : State, s.pending = .write 1 4096 1 :: [] ∧ 4095 < 4096) :=
  ⟨⟨{ State.reset with pending := [.write 0 8191 1] }, reset_memoriesOk, rfl, rfl, rfl⟩,
    ⟨{ State.reset with pending := [.write 2 4095 1] }, reset_memoriesOk, rfl, rfl, rfl⟩,
    ⟨{ State.reset with halted := true, pending := [.write 1 0 1] }, rfl, fun h => Bool.noConfusion h.2⟩,
    ⟨{ State.reset with pending := [.write 3 0 1] }, rfl, by decide⟩,
    ⟨{ State.reset with pending := [.write 0 8192 1] }, rfl, by decide⟩,
    ⟨{ State.reset with pending := [.write 1 4096 1] }, rfl, by decide⟩⟩

/-- A running state whose next command divides by zero. -/
def divPending : State := { regs [(1, 7)] with pending := [.command 0x12312000] }

/-- `FaultsArePrecise`: a running state with a command next; the step of this one is a fault. -/
theorem witness_faultsArePrecise :
    divPending.pending = .command 0x12312000 :: [] ∧ Running divPending ∧
    (nextOf (step divPending)).map (·.fault) = some (some .arithmeticError) := ⟨rfl, ⟨rfl, rfl⟩, by decide⟩

/-- `CmdcntCountsCompletions`: a step for each transaction, a completing, a faulting and a dropped command among them. -/
theorem witness_cmdcntCountsCompletions :
    (nextOf (step { State.reset with cmdcnt := 5, pending := [.reset] })).isSome = true ∧
    (nextOf (step ldiPending)).map (·.fault) = some none ∧
    (nextOf (step divPending)).map (fun t => t.fault.isSome) = some true ∧
    (nextOf (step { ldiPending with halted := true })).map (·.fault) = some none ∧
    (nextOf (step { State.reset with pending := [.read 0 0] })).isSome = true ∧
    (nextOf (step { State.reset with pending := [.write 0 0 0] })).isSome = true ∧
    (nextOf (step { State.reset with pending := [.csr 0] })).isSome = true := by decide

/-- `OnlyListedFaults`: a well-formed command that faults from a running state. -/
theorem witness_onlyListedFaults :
    Running (regs [(1, 7)]) ∧ (Instr.gfdiv 3 1 2).wellFormed = true ∧
    (nextOf (exec (.gfdiv 3 1 2) (regs [(1, 7)]))).map (·.fault) = some (some .arithmeticError) :=
  ⟨⟨rfl, rfl⟩, rfl, by decide⟩

/-- `CapacityTables`, `ExpAndLogTables`, `FieldLaws`, `UnreservedCellCount`: the ends of the ranges. -/
theorem witness_ranges :
    (1 ≤ 40 ∧ 40 ≤ 40) ∧ (1 ≤ 254 ∧ 254 ≤ 254) ∧ (255 : Byte) ≠ 0 := by decide

/-- `GfCommandsComplete`, clause by clause at the ends of the ranges. -/
theorem witness_gfCommandsComplete :
    ((readX (regs [(1, 255), (2, 255)]) 1).toNat ≤ 255 ∧ (readX (regs [(1, 255), (2, 255)]) 2).toNat ≤ 255) ∧
    (1 ≤ (readX (regs [(1, 255), (2, 1)]) 2).toNat ∧ (readX (regs [(1, 255), (2, 1)]) 2).toNat ≤ 255) ∧
    ((readX (regs [(1, 0), (2, 0xFFFFFFFF)]) 1).toNat ≤ 255) ∧
    ((readX (regs [(1, 254)]) 1).toNat ≤ 254) ∧
    (1 ≤ (readX (regs [(1, 1)]) 1).toNat ∧ (readX (regs [(1, 1)]) 1).toNat ≤ 255) := by decide

/-- `GfCommandsFault`, clause by clause. -/
theorem witness_gfCommandsFault :
    (255 < (readX (regs [(1, 256)]) 1).toNat) ∧ (254 < (readX (regs [(1, 255)]) 1).toNat) ∧
    ((readX (regs [(1, 255)]) 1).toNat ≤ 255 ∧ readX (regs [(1, 255)]) 2 = 0) ∧ readX (regs []) 1 = 0 := by decide

/-- `PolyMemoryCommandsComplete`: the longest run of DCW, the last byte of IN, and a store that ends at the limit. -/
theorem witness_polyMemoryCommandsComplete :
    (RamSize .dcw 4096 ∧ 1 ≤ (readX (regs [(1, 0), (2, 4096)]) 2).toNat ∧
      (readX (regs [(1, 0), (2, 4096)]) 2).toNat ≤ 4096 ∧
      (readX (regs [(1, 0), (2, 4096)]) 1).toNat + (readX (regs [(1, 0), (2, 4096)]) 2).toNat ≤ 4096) ∧
    (RamSize .inp 8192 ∧ (readX (regs [(1, 8191), (2, 1)]) 1).toNat + (readX (regs [(1, 8191), (2, 1)]) 2).toNat ≤ 8192) ∧
    (RamSize .fcw 4096 ∧ MemoriesOk (withP (regs [(1, 4093)]) 0 [1, 2, 3]) ∧
      (readX (withP (regs [(1, 4093)]) 0 [1, 2, 3]) 1).toNat +
        (readP (withP (regs [(1, 4093)]) 0 [1, 2, 3]) 0).length ≤ 4096) :=
  ⟨⟨Or.inr ⟨Or.inl rfl, rfl⟩, by decide, by decide, by decide⟩, ⟨Or.inl ⟨rfl, rfl⟩, by decide⟩,
    ⟨Or.inr ⟨Or.inr rfl, rfl⟩, reset_memoriesOk, by decide⟩⟩

/-- `PolyRegisterCommandsComplete`: a product of the largest length, and the largest field element. -/
theorem witness_polyRegisterCommandsComplete :
    ((readP (withP (withP State.reset 0 [1, 2]) 1 (List.replicate 4095 1)) 0).length +
      (readP (withP (withP State.reset 0 [1, 2]) 1 (List.replicate 4095 1)) 1).length - 1 ≤ 4096) ∧
    (readX (regs [(1, 255)]) 1).toNat ≤ 255 := ⟨by decide +kernel, by decide⟩

/-- `PolyFunctionsByCoefficient`. -/
theorem witness_polyFunctionsByCoefficient : 1 ≤ ([0] : List Byte).length ∧ 1 ≤ ([1, 3, 2] : List Byte).length := by
  decide

/-- `PolyCommandsFault`, clause by clause. -/
theorem witness_polyCommandsFault :
    (RamSize .dcw 4096 ∧ readX (regs []) 2 = 0) ∧
    (RamSize .dcw 4096 ∧ 4096 < (readX (regs [(2, 4097)]) 2).toNat) ∧
    (RamSize .inp 8192 ∧ 8192 < (readX (regs [(1, 8192), (2, 1)]) 1).toNat + (readX (regs [(1, 8192), (2, 1)]) 2).toNat) ∧
    (RamSize .fcw 4096 ∧ 4096 < (readX (regs [(1, 4096)]) 1).toNat + (readP (regs [(1, 4096)]) 0).length) ∧
    (4096 < (readP (withP (withP State.reset 0 [1, 2]) 1 (List.replicate 4096 1)) 0).length +
      (readP (withP (withP State.reset 0 [1, 2]) 1 (List.replicate 4096 1)) 1).length - 1) ∧
    255 < (readX (regs [(1, 256)]) 1).toNat :=
  ⟨⟨Or.inr ⟨Or.inl rfl, rfl⟩, by decide⟩, ⟨Or.inr ⟨Or.inl rfl, rfl⟩, by decide⟩, ⟨Or.inl ⟨rfl, rfl⟩, by decide⟩,
    ⟨Or.inr ⟨Or.inr rfl, rfl⟩, by decide⟩, by decide +kernel, by decide⟩

/-- `GeneratorHasItsRoots`, `RemainderPassesSyndromeCheck`: the largest generator, the shortest data. -/
theorem witness_generators : (1 ≤ 255 ∧ 255 ≤ 255) ∧ 1 ≤ ([7] : List Byte).length := by decide

/-- `RsRegisterCommandsComplete`: both ends of the number of codewords, and a divisor of degree 1. -/
theorem witness_rsRegisterCommandsComplete :
    (1 ≤ (readX (regs [(1, 1)]) 1).toNat ∧ (readX (regs [(1, 255)]) 1).toNat ≤ 255) ∧
    (2 ≤ (readP (withP State.reset 1 [1, 1]) 1).length ∧
      (readP (withP State.reset 1 [1, 1]) 0).length + (readP (withP State.reset 1 [1, 1]) 1).length - 1 ≤ 4096 ∧
      (readP (withP State.reset 1 [1, 1]) 1).getD 0 0 ≠ 0) := by decide

/-- Version 1, level Q, thirteen data codewords. -/
def encReady : State := { State.reset with ver := 1, ecl := 3, dlen := 13, dcw := bytesAt helloData }

/-- `RsencComplete`. -/
theorem witness_rsencComplete :
    EngineInv encReady ∧ encReady.ver ≠ 0 ∧
    encReady.dlen.toNat = dataCw encReady.ver.toNat (levelOf encReady.ecl) := by
  unfold EngineInv MemoriesOk MemoryOk PolysOk StatusOk ConfigOk PhaseOk GridOk BufferOk Memory.wf
  decide +kernel

/-- `InterleavingPositions`: two blocks, the second the longer one. -/
theorem witness_interleavingPositions :
    1 ≤ 2 ∧ ∃ out, interleaved [1, 2, 3] 2 1 = .ok out := ⟨by decide, _, rfl⟩

/-- `RsCommandsFault`, clause by clause. -/
theorem witness_rsCommandsFault :
    (readX (regs []) 1 = 0 ∧ 255 < (readX (regs [(1, 256)]) 1).toNat) ∧
    ((readP State.reset 1).length < 2) ∧
    (2 ≤ (readP (withP State.reset 1 [0, 1]) 1).length ∧
      (readP (withP State.reset 1 [0, 1]) 0).length + (readP (withP State.reset 1 [0, 1]) 1).length - 1 ≤ 4096 ∧
      (readP (withP State.reset 1 [0, 1]) 1).getD 0 0 = 0) ∧
    (State.reset.ver = 0) ∧ ({ encReady with dlen := 12 } : State).dlen.toNat ≠ dataCw 1 .q := by decide

/-- `SegmentCommandsComplete`: 32 bits of a full register appended up to the last bit of the buffer; the byte 0x39 as a
digit, the space as an alphanumeric character, one byte at the last address of IN. -/
theorem witness_segmentCommandsComplete :
    (State.reset.bstage = 0 ∧ (readX (regs [(1, 0xFFFFFFFF), (2, 32)]) 2).toNat ≤ 32 ∧
      (readX (regs [(1, 0xFFFFFFFF), (2, 32)]) 1).toNat < 2 ^ (readX (regs [(1, 0xFFFFFFFF), (2, 32)]) 2).toNat ∧
      (List.replicate 23616 true).length + (readX (regs [(1, 0xFFFFFFFF), (2, 32)]) 2).toNat ≤ 23648) ∧
    (∃ s : State, s.bstage = 0 ∧ s.ver ≠ 0 ∧ (readX s 1).toNat = 8191 ∧ (readX s 2).toNat = 1 ∧
      (List.range (readX s 2).toNat).map (fun i => s.inp.read ((readX s 1).toNat + i)) = [0x39] ∧
      (readX s 1).toNat + (readX s 2).toNat ≤ 8192 ∧ (readX s 2).toNat < 2 ^ ccBits .numeric s.ver.toNat ∧
      (∀ c ∈ ([0x39] : List Byte), 0x30 ≤ c.toNat ∧ c.toNat ≤ 0x39) ∧
      s.bb.length + (4 + ccBits .numeric s.ver.toNat + payloadBits .numeric (readX s 2).toNat) ≤ 23648) ∧
    (∀ c ∈ ([0x20, 0x3A, 0x5A] : List Byte), c.toNat ∈ alnumTable) ∧
    (3 * 0 + 2 < ([0x30, 0x31, 0x39] : List Byte).length ∧
      ∀ c ∈ ([0x30, 0x31, 0x39] : List Byte), 0x30 ≤ c.toNat ∧ c.toNat ≤ 0x39) ∧
    (([0x30, 0x39] : List Byte).length = 3 * 0 + 2 ∧ ([0x39] : List Byte).length = 3 * 0 + 1 ∧
      2 * 0 + 1 < ([0x20, 0x3A] : List Byte).length ∧ ([0x5A] : List Byte).length = 2 * 0 + 1) := by
  refine ⟨⟨rfl, by decide, by decide, ?_⟩,
    ⟨{ regs [(1, 8191), (2, 1)] with ver := 40, inp := [(8191, 0x39)] }, by decide⟩, by decide, by decide, by decide⟩
  rw [List.length_replicate]
  decide

/-- Version 1, level Q, a whole number of bytes in stage 2. -/
def padReady : State := { State.reset with ver := 1, ecl := 3, bstage := 2, bb := List.replicate 80 true }

/-- `ClosingCommandsComplete`: BTERM on a buffer that fills the capacity, BALIGN, and BPAD. -/
theorem witness_closingCommandsComplete :
    (∃ s : State, s.ver ≠ 0 ∧ s.bstage = 0 ∧ 1 ≤ s.bb.length ∧
      s.bb.length ≤ 8 * dataCw s.ver.toNat (levelOf s.ecl) ∧ s.bb.length = 104) ∧
    (({ padReady with bstage := 1 } : State).bstage = 1) ∧ (padReady.bstage = 2 ∧ EngineInv padReady) := by
  refine ⟨⟨{ State.reset with ver := 1, ecl := 3, bb := List.replicate 104 true }, by decide +kernel⟩, rfl, rfl, ?_⟩
  unfold EngineInv MemoriesOk MemoryOk PolysOk StatusOk ConfigOk PhaseOk GridOk BufferOk Memory.wf
  decide +kernel

/-- `BflushStoresCodewords`: a partial last byte. -/
theorem witness_bflushStoresCodewords :
    EngineInv { State.reset with bb := [true, false, true, true, false, true, true, false, true] } := by
  unfold EngineInv MemoriesOk MemoryOk PolysOk StatusOk ConfigOk PhaseOk GridOk BufferOk Memory.wf
  decide +kernel

/-- `PackerCommandsFault`, clause by clause. -/
theorem witness_packerCommandsFault :
    (padReady.bstage ≠ 0) ∧
    (State.reset.bstage = 0 ∧ 32 < (readX (regs [(2, 33)]) 2).toNat) ∧
    (2 ^ (readX (regs [(1, 8), (2, 3)]) 2).toNat ≤ (readX (regs [(1, 8), (2, 3)]) 1).toNat) ∧
    ((readX (regs [(1, 1), (2, 1)]) 2).toNat ≤ 32 ∧
      (readX (regs [(1, 1), (2, 1)]) 1).toNat < 2 ^ (readX (regs [(1, 1), (2, 1)]) 2).toNat ∧
      23648 < (List.replicate 23648 true).length + (readX (regs [(1, 1), (2, 1)]) 2).toNat) ∧
    (State.reset.ver = 0) ∧
    (∃ s : State, s.ver ≠ 0 ∧ s.bstage = 0 ∧ s.bb = []) ∧
    (∃ s : State, s.ver ≠ 0 ∧ s.bstage = 0 ∧ s.bb ≠ [] ∧ 8 * dataCw s.ver.toNat (levelOf s.ecl) < s.bb.length) ∧
    (padReady.bstage ≠ 1) ∧ State.reset.bstage ≠ 2 := by
  refine ⟨by decide, by decide, by decide, ⟨by decide, by decide, ?_⟩, rfl, ⟨{ State.reset with ver := 1 }, by decide⟩,
    ⟨{ State.reset with ver := 1, ecl := 3, bb := List.replicate 105 true }, by decide +kernel⟩, by decide, by decide⟩
  rw [List.length_replicate]
  decide

/-- `BufferIsAppendOnly`, `MatrixPhasesAreOrdered`, `RegisterFrame`, `MemoryFrame`: a completing command other than CLEAR
that appends, one that moves the phase, one that writes a register and one that writes a byte. -/
theorem witness_frames :
    (Instr.bapp 1 2 ≠ .clear ∧ (nextOf (exec (.bapp 1 2) (regs [(1, 2), (2, 4)]))).isSome = true) ∧
    (Instr.mfind ≠ .clear ∧ writesMat .mfind = true ∧ (nextOf (exec .mfind (v1 1 []))).map (·.phase) = some 2) ∧
    (v1 9 []).phase = 9 ∧
    (destX (.ldi 1 7) ≠ some 2 ∧ destP (.ldi 1 7) ≠ some 0 ∧ (nextOf (exec (.ldi 1 7) State.reset)).isSome = true) ∧
    (writesMat (.stb .inp 1 2) = false ∧ (nextOf (exec (.stb .inp 1 2) State.reset)).isSome = true) := by decide

/-- `PatternCommandsComplete`. -/
theorem witness_patternCommandsComplete :
    (∃ s : State, s.ver ≠ 0 ∧ s.ver.toNat ≤ 40 ∧ s.phase = 0 ∧ s.ver = 40) ∧ (v1 1 []).phase = 1 ∧ (v1 2 []).phase = 2 ∧
    (v1 3 []).phase = 3 ∧ (v1 4 []).phase = 4 :=
  ⟨⟨{ State.reset with ver := 40 }, by decide⟩, rfl, rfl, rfl, rfl⟩

/-- `ScanVisitsUnreservedCells`: the matrix of version 1. -/
theorem witness_scanVisitsUnreservedCells : (1 ≤ 1 ∧ 1 ≤ 40) ∧ GridOk (emptyGrid (sideOf 1)) (sideOf 1) := by
  unfold GridOk
  decide +kernel

/-- `MdataPlacesStream`. -/
theorem witness_mdataPlacesStream :
    ∃ s : State, GridOk s.mat s.size.toNat ∧ s.phase = 5 ∧ s.flen.toNat = totalCw s.ver.toNat := by
  refine ⟨{ v1 5 (emptyGrid 21) with flen := 26 }, ?_⟩
  unfold GridOk
  decide +kernel

/-- `MmaskInvertsCells`: the largest mask id; a matrix of set cells. -/
theorem witness_mmaskInvertsCells :
    ((v1 6 []).phase = 6 ∧ (readX (regs [(1, 7)]) 1).toNat ≤ 7) ∧
    (GridOk (emptyGrid 21) (v1 6 []).size.toNat ∧ 20 < (v1 6 []).size.toNat) ∧
    (∀ row ∈ ([[⟨.dark, false⟩, ⟨.unset, true⟩]] : Grid), ∀ m ∈ row, m.reserved = false → m.colour ≠ .unset) := by
  unfold GridOk
  decide +kernel

/-- `MpenScoresMatrix`, `MselTakesLeastPenalty`, `PenaltyCountsPositions`. -/
theorem witness_penalty :
    6 ≤ (v1 6 []).phase.toNat ∧ (v1 6 []).phase = 6 ∧ (GridOk (emptyGrid 21) 21 ∧ 21 ≤ 21 ∧ 21 ≤ 177) ∧
    (([[true, true], [true, true]] : List (List Bool)).length = 2 ∧
      ∀ row ∈ ([[true, true], [true, true]] : List (List Bool)), row.length = 2) := by
  unfold GridOk
  decide +kernel

/-- `MatrixCommandsFault`, clause by clause. -/
theorem witness_matrixCommandsFault :
    State.reset.ver = 0 ∧ State.reset.phase ≠ 1 ∧ State.reset.phase ≠ 2 ∧ State.reset.phase ≠ 3 ∧
    State.reset.phase ≠ 4 ∧ State.reset.phase ≠ 5 ∧ (v1 5 []).flen.toNat ≠ totalCw (v1 5 []).ver.toNat ∧
    State.reset.phase ≠ 6 ∧ ((v1 6 []).phase = 6 ∧ 7 < (readX (regs [(1, 8)]) 1).toNat) ∧ (v1 5 []).phase.toNat < 6 ∧
    State.reset.phase ≠ 7 ∧ State.reset.phase ≠ 8 := by decide

/-- `InformationIsPlaced`: phase 7; phase 8 on both sides of version 7. -/
theorem witness_informationIsPlaced :
    (∃ s, EngineInv s ∧ s.phase = 7) ∧ (∃ s, EngineInv s ∧ s.phase = 8 ∧ s.ver.toNat = 6) ∧
    (∃ s, EngineInv s ∧ s.phase = 8 ∧ s.ver.toNat = 7) := by
  refine ⟨⟨{ v1 7 (emptyGrid 21) with mask := 9 }, ?_⟩,
    ⟨{ State.reset with ver := 6, size := 41, phase := 8, mask := 9, mat := emptyGrid 41 }, ?_⟩,
    ⟨{ State.reset with ver := 7, size := 45, phase := 8, mask := 9, mat := emptyGrid 45 }, ?_⟩⟩ <;>
  · unfold EngineInv MemoriesOk MemoryOk PolysOk StatusOk ConfigOk PhaseOk GridOk BufferOk Memory.wf
    decide +kernel

/-- `BchCommands`: both ends of each range. -/
theorem witness_bchCommands :
    (readX (regs [(1, 31)]) 1).toNat ≤ 31 ∧ 31 < (readX (regs [(1, 32)]) 1).toNat ∧
    (readX (regs [(1, 63)]) 1).toNat ≤ 63 ∧ 63 < (readX (regs [(1, 64)]) 1).toNat := by decide

/-- `SystemCommandsComplete`: the write window and the ends of each range. -/
theorem witness_systemCommandsComplete :
    (State.reset.phase = 0 ∧ State.reset.bb = [] ∧ State.reset.flen = 0) ∧
    (1 ≤ (readX (regs [(1, 40)]) 1).toNat ∧ (readX (regs [(1, 40)]) 1).toNat ≤ 40) ∧
    (readX (regs [(1, 3)]) 1).toNat ≤ 3 ∧ (readX (regs [(1, 4096)]) 1).toNat ≤ 4096 := by decide

/-- `LdbReadsEverySpace`: the last address of each space. -/
theorem witness_ldbReadsEverySpace :
    8191 = (readX (regs [(1, 8191)]) 1).toNat ∧ 4095 = (readX (regs [(1, 4095)]) 1).toNat ∧
    254 = (readX (regs [(1, 254)]) 1).toNat ∧ 255 = (readX (regs [(1, 255)]) 1).toNat ∧
    440 < (v1 5 []).size.toNat * (v1 5 []).size.toNat ∧ 79 < padReady.bb.length := by decide

/-- `StbStoresOneByte`: the last address of FCW, the largest byte. -/
theorem witness_stbStoresOneByte :
    RamSize .fcw 4096 ∧ MemoriesOk (regs [(1, 4095), (2, 255)]) ∧
    (readX (regs [(1, 4095), (2, 255)]) 1).toNat < 4096 ∧ (readX (regs [(1, 4095), (2, 255)]) 2).toNat ≤ 255 :=
  ⟨Or.inr ⟨Or.inr rfl, rfl⟩, reset_memoriesOk, by decide, by decide⟩

/-- `SystemCommandsFault`, clause by clause. -/
theorem witness_systemCommandsFault :
    (RamSize .inp 8192 ∧ 8192 ≤ (readX (regs [(1, 8192)]) 1).toNat) ∧ 254 < (readX (regs [(1, 255)]) 1).toNat ∧
    255 < (readX (regs [(1, 256)]) 1).toNat ∧ readX (regs []) 1 = 0 ∧
    State.reset.size.toNat * State.reset.size.toNat ≤ (readX State.reset 1).toNat ∧
    State.reset.bb.length ≤ (readX State.reset 1).toNat ∧ 255 < (readX (regs [(2, 256)]) 2).toNat ∧
    (v1 1 []).phase ≠ 0 ∧ padReady.bb ≠ [] ∧ ({ State.reset with flen := 1 } : State).flen ≠ 0 ∧
    40 < (readX (regs [(1, 41)]) 1).toNat ∧ 3 < (readX (regs [(1, 4)]) 1).toNat ∧
    4096 < (readX (regs [(1, 4097)]) 1).toNat :=
  ⟨⟨Or.inl ⟨rfl, rfl⟩, by decide⟩, by decide⟩

/-- `VersionFrozenOutsideWindow`: after the first append. -/
theorem witness_versionFrozenOutsideWindow :
    (nextOf (exec (.ldi 1 7) padReady)).isSome = true ∧ Instr.ldi 1 7 ≠ .clear ∧ padReady.bb ≠ [] := by decide

/-- `CsrValues`: before a version is set, and version 1. -/
theorem witness_csrValues : EngineInv State.reset ∧ EngineInv { State.reset with ver := 1 } := by
  refine ⟨?_, ?_⟩ <;>
  · unfold EngineInv MemoriesOk MemoryOk PolysOk StatusOk ConfigOk PhaseOk GridOk BufferOk Memory.wf
    decide +kernel

/-- `StepKeepsInvariant`: a state after reset, with a command next. -/
theorem witness_stepKeepsInvariant :
    EngineInv ldiPending ∧ (nextOf (step ldiPending)).isSome = true := by
  unfold EngineInv MemoriesOk MemoryOk PolysOk StatusOk ConfigOk PhaseOk GridOk BufferOk Memory.wf
  decide +kernel

end Sys2Proof.Tests
end

/-! # The field of 0x11D: doubling, sums and the table product (R7, R33, R34, R106)

The table product and the shift-and-reduce product are both compared with repeated doubling: multiplying by `EXP[i]` is
doubling `i` times. -/

section
namespace Sys2Proof.Machine

/-! ### Multiplication by `x` -/

/-- The field element times `x`: one shift, reduced by 0x11D (R33). -/
def timesXOnce (a : Byte) : Byte := (a <<< 1) ^^^ (if a.getLsbD 7 then 0x1D else 0)

@[simp] theorem timesXOnce_zero : timesXOnce 0#8 = 0#8 := rfl

theorem timesXOnce_xor (a b : Byte) : timesXOnce (a ^^^ b) = timesXOnce a ^^^ timesXOnce b := by
  have reduction : ∀ p q : Bool,
      (if p ^^ q then 0x1D else 0 : Byte) = (if p then 0x1D else 0) ^^^ if q then 0x1D else 0 := by decide
  unfold timesXOnce
  rw [BitVec.shiftLeft_xor_distrib, BitVec.getLsbD_xor, reduction]
  ac_rfl

@[simp] theorem timesX_zero_left (a : Byte) : timesX 0 a = a := rfl

theorem timesX_succ (n : Nat) (a : Byte) : timesX (n + 1) a = timesX n (timesXOnce a) := rfl

/-- The doublings of `timesX` may be done in either order. -/
theorem timesX_succ' (n : Nat) (a : Byte) : timesX (n + 1) a = timesXOnce (timesX n a) := by
  induction n generalizing a with
  | zero => rfl
  | succ n ih => rw [timesX_succ, ih, timesX_succ]

@[simp] theorem timesX_zero (n : Nat) : timesX n 0#8 = 0#8 := by
  induction n with
  | zero => rfl
  | succ n ih => rw [timesX_succ, timesXOnce_zero, ih]

/-! ### Field sums -/

@[simp] theorem gfSum_zero (f : Nat → Byte) : gfSum 0 f = 0#8 := rfl

theorem gfSum_succ (n : Nat) (f : Nat → Byte) : gfSum (n + 1) f = gfSum n f ^^^ f n := by
  simp only [gfSum, List.range_succ, List.foldl_append, List.foldl_cons, List.foldl_nil]

@[simp] theorem gfSum_const_zero (n : Nat) : (gfSum n fun _ => 0#8) = 0#8 := by
  induction n with
  | zero => rfl
  | succ n ih => rw [gfSum_succ, ih, BitVec.xor_zero]

theorem timesXOnce_gfSum (n : Nat) (f : Nat → Byte) : timesXOnce (gfSum n f) = gfSum n fun i => timesXOnce (f i) := by
  induction n with
  | zero => simp
  | succ n ih => rw [gfSum_succ, gfSum_succ, timesXOnce_xor, ih]

/-! ### The shift-and-reduce product -/

/-- The sum of `a` times `x^i` over the bits `i` of `b`: the product of R7, read without the tables. -/
def shiftMul (a b : Byte) : Byte := gfSum 8 fun i => if b.getLsbD i then timesX i a else 0

@[simp] theorem shiftMul_zero_left (b : Byte) : shiftMul 0#8 b = 0#8 := by simp [shiftMul]

@[simp] theorem shiftMul_zero_right (a : Byte) : shiftMul a 0#8 = 0#8 := by simp [shiftMul]

/-- A byte is the sum of `x^i` over its bits. -/
theorem shiftMul_one_left : ∀ b : Byte, shiftMul 1 b = b := by decide +kernel

theorem shiftMul_timesXOnce_left (a b : Byte) : shiftMul (timesXOnce a) b = timesXOnce (shiftMul a b) := by
  unfold shiftMul
  rw [timesXOnce_gfSum]
  congr 1
  funext i
  split
  · rw [← timesX_succ, timesX_succ']
  · rfl

theorem shiftMul_timesX_left (n : Nat) (a b : Byte) : shiftMul (timesX n a) b = timesX n (shiftMul a b) := by
  induction n with
  | zero => rfl
  | succ n ih => rw [timesX_succ', shiftMul_timesXOnce_left, ih, timesX_succ']

/-! ### The tables -/

/-- `EXP` is repeated doubling, and the doubling of its last entry is its first (R33). -/
theorem timesXOnce_romExp : ∀ i, i < 255 → timesXOnce (romExp i) = romExp ((i + 1) % 255) := by decide +kernel

theorem timesX_romExp (n j : Nat) : timesX n (romExp (j % 255)) = romExp ((n + j) % 255) := by
  induction n with
  | zero => simp
  | succ n ih =>
    rw [timesX_succ', ih, timesXOnce_romExp _ (Nat.mod_lt _ (by decide)), Nat.mod_add_mod, Nat.add_right_comm]

theorem romExp_eq_timesX {i : Nat} (hi : i < 255) : romExp i = timesX i 1 := by
  have h : timesX i (romExp 0) = romExp (i % 255) := timesX_romExp i 0
  rw [Nat.mod_eq_of_lt hi] at h
  exact h.symm

/-- A nonzero element has its logarithm in `LOG`, and `EXP` takes it back (R34). -/
theorem exists_romLog : ∀ a : Byte, a ≠ 0 → ∃ i, i < 255 ∧ romLog a = some i ∧ romExp i = a := by
  have table : ∀ a : Byte, a ≠ 0 → romByte logRows a.toNat < 255 ∧ romExp (romByte logRows a.toNat) = a := by
    decide +kernel
  intro a ha
  obtain ⟨hlt, hexp⟩ := table a ha
  exact ⟨_, hlt, if_neg ha, hexp⟩

/-! ### The table product -/

@[simp] theorem gfMul_zero_left (b : Byte) : gfMul 0#8 b = 0#8 := rfl

@[simp] theorem gfMul_zero_right (a : Byte) : gfMul a 0#8 = 0#8 := by
  unfold gfMul
  cases romLog a <;> rfl

theorem gfMul_of_romLog {a b : Byte} {i j : Nat} (ha : romLog a = some i) (hb : romLog b = some j) :
    gfMul a b = romExp ((i + j) % 255) := by
  simp only [gfMul, ha, hb]

/-- Multiplying by `EXP[i]` through the tables is doubling `i` times. -/
theorem gfMul_eq_timesX {a : Byte} {i : Nat} (ha : romLog a = some i) (b : Byte) : gfMul a b = timesX i b := by
  by_cases hb : b = 0
  · simp [hb]
  · obtain ⟨j, hj, hlog, hexp⟩ := exists_romLog b hb
    calc gfMul a b = romExp ((i + j) % 255) := gfMul_of_romLog ha hlog
      _ = timesX i (romExp (j % 255)) := (timesX_romExp i j).symm
      _ = timesX i b := by rw [Nat.mod_eq_of_lt hj, hexp]

/-- The table product is the shift-and-reduce product: with `a = EXP[i]`, both are `b` doubled `i` times. -/
theorem gfMul_eq_shiftMul (a b : Byte) : gfMul a b = shiftMul a b := by
  by_cases ha : a = 0
  · simp [ha]
  · obtain ⟨i, hi, hlog, hexp⟩ := exists_romLog a ha
    calc gfMul a b = timesX i b := gfMul_eq_timesX hlog b
      _ = timesX i (shiftMul 1 b) := by rw [shiftMul_one_left]
      _ = shiftMul (timesX i 1) b := (shiftMul_timesX_left i 1 b).symm
      _ = shiftMul a b := by rw [← romExp_eq_timesX hi, hexp]

/-- Settles O19: the sum of the statement is `shiftMul`. -/
theorem gfMulIsFieldMultiplication : Obligations.GfMulIsFieldMultiplication := gfMul_eq_shiftMul

end Sys2Proof.Machine
end

/-! # One transaction, and what a completing command leaves alone (R21, R61, R240, R288) -/

section
namespace Sys2Proof.Machine

/-! ### The boundary -/

theorem step_of_pending {s : State} {tx : HostTx} {rest : List HostTx} (h : s.pending = tx :: rest) :
    step s = transact tx { s with pending := rest } := by
  simp only [step, nextTransaction, h]

theorem stopped_eq_false_iff {s : State} : stopped s = false ↔ Running s := by
  simp [stopped, Running, Option.isSome_eq_false_iff]

theorem stopped_eq_true_iff {s : State} : stopped s = true ↔ ¬Running s := by
  rw [← stopped_eq_false_iff, Bool.not_eq_false]

/-- What a command word can do: while the engine is stopped, CLEAR executes and every other word is dropped; while it runs,
the decoded command executes, and an illegal word faults (R90, R288). -/
theorem command_cases {cw : Word} {s t : State} (h : command cw s = .next t) :
    (¬Running s ∧ cw = clearWord ∧ t = complete (discardRun s)) ∨
    (¬Running s ∧ cw ≠ clearWord ∧ t = s) ∨
    (Running s ∧ ∃ i, decode cw = .ok i ∧ exec i s = .next t) ∨
    (Running s ∧ t = enterFault .illegalCommand cw s) := by
  unfold command at h
  split at h
  next hs =>
    rw [stopped_eq_true_iff] at hs
    split at h
    · exact .inl ⟨hs, ‹_›, by cases h; rfl⟩
    · exact .inr (.inl ⟨hs, ‹_›, by cases h; rfl⟩)
  next hs =>
    rw [Bool.not_eq_true, stopped_eq_false_iff] at hs
    split at h
    next i hi => exact .inr (.inr (.inl ⟨hs, i, hi, h⟩))
    next => exact .inr (.inr (.inr ⟨hs, by cases h; rfl⟩))

/-- A host write answers done, with one byte of a writable space changed, or is refused with no effect (R251). -/
theorem hostWrite_cases (s : State) (sp addr : Nat) (v : Byte) :
    hostWrite s sp addr v = { s with reply := .refused } ∨
    ∃ space n, RamSize space n ∧ addr < n ∧
      hostWrite s sp addr v = { setRam s space ((ram s space).write addr v) with reply := .done } := by
  unfold hostWrite
  split
  · exact .inl rfl
  · split
    · exact .inl rfl
    · split
      next hw =>
        obtain ⟨n, hn, ha, rfl⟩ := memWrite_eq_ok.1 hw
        exact .inr ⟨_, n, ramSize_of_limit hn, ha, rfl⟩
      · exact .inl rfl

/-! ### The frame of a completing command -/

/-- What command `i` leaves as it was on its way from `s` to `u`. A field that a command does not write holds by `rfl`, so a
proof names only the fields it writes. -/
structure Frame (i : Instr) (s u : State) : Prop where
  x : ∀ r, destX i ≠ some r → readX u r = readX s r := by intros; rfl
  p : ∀ k, destP i ≠ some k → readP u k = readP s k := by intros; rfl
  fault : u.fault = s.fault := by intros; rfl
  halted : i ≠ .halt → u.halted = s.halted := by intros; rfl
  errcmd : u.errcmd = s.errcmd := by intros; rfl
  cmdcnt : u.cmdcnt = s.cmdcnt := by intros; rfl
  ver : (∀ r, i ≠ .csrw .ver r) → u.ver = s.ver := by intros; rfl
  ecl : (∀ r, i ≠ .csrw .ecl r) → u.ecl = s.ecl := by intros; rfl
  size : i ≠ .minit → u.size = s.size := by intros; rfl
  phase : writesMat i = false → u.phase = s.phase := by intros; rfl
  mask : i ≠ .minit → (∀ r, i ≠ .mmask r) → i ≠ .msel → u.mask = s.mask := by intros; rfl
  mat : writesMat i = false → u.mat = s.mat := by intros; rfl
  bb : appendsBits i = false → u.bb = s.bb := by intros; rfl
  totbits : i ≠ .bterm → u.totbits = s.totbits := by intros; rfl
  dlen : (∀ r, i ≠ .csrw .dlen r) → i ≠ .bflush → u.dlen = s.dlen := by intros; rfl
  flen : (∀ r, i ≠ .csrw .flen r) → i ≠ .rsenc → u.flen = s.flen := by intros; rfl
  pen : (∀ r, i ≠ .mpen r) → i ≠ .msel → u.pen = s.pen := by intros; rfl
  penv : i ≠ .msel → u.penv = s.penv := by intros; rfl
  bstage : i ≠ .bterm → i ≠ .balign → i ≠ .bpad → u.bstage = s.bstage := by intros; rfl
  fmt : i ≠ .ifmt → u.fmt = s.fmt := by intros; rfl
  vinf : i ≠ .iver → u.vinf = s.vinf := by intros; rfl
  pending : u.pending = s.pending := by intros; rfl
  reply : u.reply = s.reply := by intros; rfl

section
variable {i : Instr} {s u : State}

theorem Frame.refl : Frame i s s := {}

theorem Frame.writeX {rd : XReg} {v : Word} (h : destX i = some rd) : Frame i s (writeX s rd v) where
  x r hr := readX_writeX_other s rd r v fun e => hr (e ▸ h)

theorem Frame.writeP {pd : PReg} {l : List Byte} (h : destP i = some pd) : Frame i s (writeP s pd l) where
  p k hk := readP_writeP_other s pd k l fun e => hk (e ▸ h)

theorem Frame.setRam {sp : Space} {m : Memory} : Frame i s (setRam s sp m) := by
  cases sp <;> exact {}

theorem Frame.csrw {c : Csr} {r : XReg} (h : Effect s u (.csrw c r)) : Frame (.csrw c r) s u := by
  obtain ⟨rfl, -, -, -, rfl⟩ | ⟨rfl, -, -, rfl⟩ | ⟨rfl, -, rfl⟩ | ⟨rfl, -, rfl⟩ := h
  · exact { ver := fun h => absurd rfl (h r) }
  · exact { ecl := fun h => absurd rfl (h r) }
  · exact { dlen := fun h => absurd rfl (h r) }
  · exact { flen := fun h => absurd rfl (h r) }

/-- Every completing command but CLEAR leaves alone what its rule does not name (R109, R130, R148, R173, R188). -/
theorem Effect.frame (h : Effect s u i) (hi : i ≠ .clear) : Frame i s u := by
  cases i with
  | gfadd | gfmul | gfdiv | gfpow | gfexp | gflog | pdeg | peval | bchf | bchv | ldi | mov | ldb | csrr =>
    obtain ⟨v, rfl⟩ := h
    exact .writeX rfl
  | pld | rsgen | pscl | pmul | rsrem =>
    obtain ⟨l, rfl, -⟩ := h
    exact .writeP rfl
  | pmov | padd =>
    subst h
    exact .writeP rfl
  | rssyn rd pd =>
    obtain ⟨v, l, rfl, -⟩ := h
    exact { x := (Frame.writeX rfl : Frame (.rssyn rd pd _ _) _ _).x
            p := (Frame.writeP rfl : Frame (.rssyn rd pd _ _) s _).p }
  | pst =>
    obtain ⟨n, -, -, rfl⟩ := h
    exact .setRam
  | stb =>
    obtain ⟨n, v, -, -, rfl⟩ := h
    exact .setRam
  | rsenc =>
    obtain ⟨out, -, -, -, rfl⟩ := h
    exact { flen := fun _ h => absurd rfl h }
  | bapp =>
    obtain ⟨bs, -, -, rfl⟩ := h
    exact { bb := nofun }
  | bseg =>
    obtain ⟨-, -, -, -, rfl⟩ := h
    exact { bb := nofun }
  | bterm =>
    obtain ⟨-, -, -, -, rfl⟩ := h
    exact { bb := nofun, totbits := absurd rfl, bstage := absurd rfl }
  | balign =>
    obtain ⟨-, rfl⟩ := h
    exact { bb := nofun, bstage := fun _ h => absurd rfl h }
  | bpad =>
    obtain ⟨-, rfl⟩ := h
    exact { bb := nofun, bstage := fun _ _ h => absurd rfl h }
  | bflush =>
    subst h
    exact { dlen := fun _ h => absurd rfl h }
  | minit =>
    obtain ⟨-, -, rfl⟩ := h
    exact { size := absurd rfl, phase := nofun, mask := absurd rfl, mat := nofun }
  | mfind | mtime | malign | mrsv =>
    obtain ⟨-, rfl⟩ := h
    exact { phase := nofun, mat := nofun }
  | mdata =>
    obtain ⟨-, -, ws, rfl⟩ := h
    exact { phase := nofun, mat := nofun }
  | mmask r =>
    obtain ⟨-, k, -, rfl⟩ := h
    exact { phase := nofun, mask := fun _ h => absurd rfl (h r), mat := nofun }
  | mpen rd =>
    obtain ⟨-, v, rfl⟩ := h
    exact { x := (Frame.writeX rfl : Frame (.mpen rd) s (writeX s rd v)).x, pen := fun h => absurd rfl (h rd) }
  | msel =>
    obtain ⟨-, rfl⟩ := h
    exact { phase := nofun, mask := fun _ _ => absurd rfl, mat := nofun, pen := fun _ => absurd rfl
            penv := absurd rfl }
  | ifmt =>
    obtain ⟨-, rfl⟩ := h
    exact { phase := nofun, mat := nofun, fmt := absurd rfl }
  | iver =>
    obtain ⟨-, ws, w, rfl⟩ := h
    exact { phase := nofun, mat := nofun, vinf := absurd rfl }
  | nop => exact h ▸ .refl
  | halt =>
    subst h
    exact { halted := absurd rfl }
  | csrw c r => exact .csrw h
  | clear => exact absurd rfl hi

end

/-- Settles O57: a fault leaves every field of the frame alone, and so does the effect of a completing command. -/
theorem registerFrame : Obligations.RegisterFrame := by
  intro s t i h hi
  obtain ⟨e, rfl⟩ | ⟨u, rfl, hu⟩ := exec_inversion h
  · have f : Frame i s s := .refl
    exact ⟨f.x, f.p, f.halted, f.ver, f.ecl, .inr ⟨rfl, nofun, rfl⟩, f.phase, f.bb, f.size, f.mask, f.totbits, f.dlen,
      f.flen, f.pen, f.penv, f.bstage, f.fmt, f.vinf, f.pending, f.reply⟩
  · have f : Frame i s u := hu.frame hi
    exact ⟨f.x, f.p, f.halted, f.ver, f.ecl, .inl ⟨congrArg (· + 1) f.cmdcnt, f.fault, f.errcmd⟩, f.phase, f.bb, f.size,
      f.mask, f.totbits, f.dlen, f.flen, f.pen, f.penv, f.bstage, f.fmt, f.vinf, f.pending, f.reply⟩

/-- Settles O37: outside the five commands of R61 the frame keeps the buffer, and each of the five appends. -/
theorem bufferIsAppendOnly : Obligations.BufferIsAppendOnly := by
  intro s t i h hi
  obtain ⟨e, rfl⟩ | ⟨u, rfl, hu⟩ := exec_inversion h
  · exact ⟨[], (List.append_nil _).symm, fun _ => rfl⟩
  · cases ha : appendsBits i with
    | false => exact ⟨[], by simpa using (hu.frame hi).bb ha, fun _ => rfl⟩
    | true =>
      cases i with
      | bapp =>
        obtain ⟨bs, -, -, rfl⟩ := hu
        exact ⟨bs, rfl, nofun⟩
      | bseg =>
        obtain ⟨-, -, -, -, rfl⟩ := hu
        exact ⟨_, rfl, nofun⟩
      | bterm =>
        obtain ⟨-, -, -, -, rfl⟩ := hu
        exact ⟨_, rfl, nofun⟩
      | balign | bpad =>
        obtain ⟨-, rfl⟩ := hu
        exact ⟨_, rfl, nofun⟩
      | _ => cases ha

/-- A command that writes the matrix moves `PHASE` on by one, and none is accepted in phase 9 (R30). -/
theorem Effect.phase_of_writesMat {i : Instr} {s u : State} (h : Effect s u i) (hi : i ≠ .clear)
    (hw : writesMat i = true) : u.phase = s.phase + 1 ∧ s.phase ≠ 9 := by
  have next : ∀ k : BitVec 4, s.phase = k → u.phase = k + 1 → k ≠ 9 → u.phase = s.phase + 1 ∧ s.phase ≠ 9 :=
    fun k hs hu hk => ⟨hs ▸ hu, hs ▸ hk⟩
  cases i with
  | minit =>
    obtain ⟨-, hp, rfl⟩ := h
    exact next 0 hp rfl (by decide)
  | mfind =>
    obtain ⟨hp, rfl⟩ := h
    exact next 1 hp rfl (by decide)
  | mtime =>
    obtain ⟨hp, rfl⟩ := h
    exact next 2 hp rfl (by decide)
  | malign =>
    obtain ⟨hp, rfl⟩ := h
    exact next 3 hp rfl (by decide)
  | mrsv =>
    obtain ⟨hp, rfl⟩ := h
    exact next 4 hp rfl (by decide)
  | mdata =>
    obtain ⟨hp, -, ws, rfl⟩ := h
    exact next 5 hp rfl (by decide)
  | mmask =>
    obtain ⟨hp, k, -, rfl⟩ := h
    exact next 6 hp rfl (by decide)
  | msel =>
    obtain ⟨hp, rfl⟩ := h
    exact next 6 hp rfl (by decide)
  | ifmt =>
    obtain ⟨hp, rfl⟩ := h
    exact next 7 hp rfl (by decide)
  | iver =>
    obtain ⟨hp, ws, w, rfl⟩ := h
    exact next 8 hp rfl (by decide)
  | clear => exact absurd rfl hi
  | _ => cases hw

/-- A command that does not write the matrix keeps the matrix, `SIZE`, `MASK` and `PHASE`. -/
theorem Frame.matrix {i : Instr} {s u : State} (f : Frame i s u) (hw : writesMat i = false) :
    u.phase = s.phase ∧ u.mat = s.mat ∧ u.size = s.size ∧ u.mask = s.mask :=
  ⟨f.phase hw, f.mat hw, f.size (by rintro rfl; cases hw),
    f.mask (by rintro rfl; cases hw) (by rintro r rfl; cases hw) (by rintro rfl; cases hw)⟩

/-- Settles O49: a fault and a command outside the matrix engine keep all four; a matrix command moves `PHASE` on. -/
theorem matrixPhasesAreOrdered : Obligations.MatrixPhasesAreOrdered := by
  intro s t i h hi
  obtain ⟨e, rfl⟩ | ⟨u, rfl, hu⟩ := exec_inversion h
  · exact ⟨.inl rfl, fun _ => ⟨rfl, rfl, rfl⟩, fun hp => ⟨hp, rfl, rfl, rfl⟩⟩
  · cases hw : writesMat i with
    | false =>
      obtain ⟨hphase, hmat⟩ := (hu.frame hi).matrix hw
      exact ⟨.inl hphase, fun _ => hmat, fun hp => ⟨hphase.trans hp, hmat⟩⟩
    | true =>
      obtain ⟨hphase, hne⟩ := hu.phase_of_writesMat hi hw
      have moved : s.phase + 1 ≠ s.phase := by bv_omega
      exact ⟨.inr ⟨hphase, rfl⟩, fun he => absurd (hphase.symm.trans he) moved, fun hp => absurd hp hne⟩

/-- Settles O12: a command word that completes counts once, and nothing else the host does counts. -/
theorem cmdcntCountsCompletions : Obligations.CmdcntCountsCompletions := by
  intro s t tx rest hp h
  rw [step_of_pending hp] at h
  cases tx with
  | reset => cases h; rfl
  | read | csr => cases h; rfl
  | write sp addr v =>
    cases h
    obtain hw | ⟨space, n, -, -, hw⟩ := hostWrite_cases { s with pending := rest } sp addr v
    · exact hw ▸ rfl
    · rw [hw]; exact setRam_cmdcnt ..
  | command cw =>
    obtain ⟨-, hcw, rfl⟩ | ⟨hr, hcw, rfl⟩ | ⟨hr, i, -, hi⟩ | ⟨hr, rfl⟩ := command_cases h
    · exact ⟨fun _ => rfl, fun hn => hn.elim (fun hn => absurd (.inr hcw) hn) (absurd rfl)⟩
    · exact ⟨fun hrun => hrun.1.elim (absurd · hr) (absurd · hcw), fun _ => rfl⟩
    · have hr : Running s := hr
      obtain ⟨e, rfl⟩ | ⟨u, rfl, hu⟩ := exec_inversion hi
      · exact ⟨fun hn => absurd hn.2 nofun, fun _ => rfl⟩
      · have hcf : u.cmdcnt = s.cmdcnt ∧ u.fault = none := by
          by_cases hc : i = .clear
          · subst hc
            cases hu
            exact ⟨rfl, rfl⟩
          · exact ⟨(hu.frame hc).cmdcnt, (hu.frame hc).fault.trans hr.1⟩
        exact ⟨fun _ => congrArg (· + 1) hcf.1, fun hn => hn.elim (fun hn => absurd (.inl hr) hn) (absurd hcf.2)⟩
    · exact ⟨fun hn => absurd hn.2 nofun, fun _ => rfl⟩

end Sys2Proof.Machine
end

/-! # The capacity tables and the EXP and LOG tables (R33, R34, R36 to R40, R186) -/

section
namespace Sys2Proof.Machine

theorem Level.mem_all (lv : Level) : lv ∈ [Level.l, .m, .q, .h] := by cases lv <;> decide

/-- What R40 requires of the tables of one version and level, and the sizes the buffers are made for (R172). -/
def CapacityOk (v : Nat) (lv : Level) : Prop :=
  1 ≤ dataCw v lv ∧ 1 ≤ eccPerBlock v lv ∧ 1 ≤ nblk v lv ∧
  dataCw v lv + eccPerBlock v lv * nblk v lv = totalCw v ∧ 8 * totalCw v + remBits v = dataCells v ∧
  8 * dataCw v lv ≤ 23648 ∧ totalCw v ≤ 3706 ∧ totalCw v / nblk v lv + 1 ≤ 255

theorem capacityOk {v : Nat} (h1 : 1 ≤ v) (h40 : v ≤ 40) (lv : Level) : CapacityOk v lv := by
  have table : ∀ v < 41, 1 ≤ v → ∀ lv ∈ [Level.l, .m, .q, .h], CapacityOk v lv := by
    unfold CapacityOk
    decide +kernel
  exact table v (by omega) h1 lv lv.mem_all

/-- Settles O16. -/
theorem capacityTables : Obligations.CapacityTables :=
  ⟨by decide, by decide, fun _ lv h1 h40 => capacityOk h1 h40 lv⟩

/-! ### The unreserved cells -/

/-- Settles O40: the formulas agree at the forty versions, and the cells are counted at the four named. -/
theorem unreservedCellCount : Obligations.UnreservedCellCount := by
  refine ⟨fun v h1 h40 => ?_, by decide +kernel⟩
  obtain ⟨-, -, -, -, h, -⟩ := capacityOk h1 h40 .l
  rw [h, dataCells, if_pos ⟨h1, h40⟩]

/-! ### What holds of the tables at every value of `VER` that the invariant admits -/

theorem dataCw_zero (lv : Level) : dataCw 0 lv = 0 := by cases lv <;> rfl
theorem totalCw_zero : totalCw 0 = 0 := rfl
theorem nblk_zero (lv : Level) : nblk 0 lv = 0 := by cases lv <;> rfl
theorem eccPerBlock_zero (lv : Level) : eccPerBlock 0 lv = 0 := by cases lv <;> rfl

/-- The data capacity fits the bit buffer, with no version set as well (R172). -/
theorem capBits_le {v : Nat} (h40 : v ≤ 40) (lv : Level) : 8 * dataCw v lv ≤ 23648 := by
  obtain rfl | hv := Nat.eq_zero_or_pos v
  · rw [dataCw_zero]
    decide
  · obtain ⟨-, -, -, -, -, h, -⟩ := capacityOk hv h40 lv
    exact h

/-! ### EXP and LOG -/

theorem toNat_timesXOnce : ∀ a : Byte,
    (timesXOnce a).toNat = if 2 * a.toNat < 256 then 2 * a.toNat else 2 * a.toNat ^^^ 0x11D := by
  decide +kernel

/-- `LOG` takes back every entry of `EXP` (R34). -/
theorem romLog_romExp : ∀ i, i < 255 → romLog (romExp i) = some i := by decide +kernel

/-- Settles O17: an entry of `EXP` is the doubling of the one before it, and `LOG` is the inverse both ways. -/
theorem expAndLogTables : Obligations.ExpAndLogTables := by
  refine ⟨rfl, fun i h1 h254 => ?_, fun i hi => romLog_romExp i (by omega), fun a ha => ?_, rfl⟩
  · have doubling : romExp i = timesXOnce (romExp (i - 1)) := by
      rw [timesXOnce_romExp (i - 1) (by omega), Nat.sub_add_cancel h1, Nat.mod_eq_of_lt (by omega)]
    rw [doubling, toNat_timesXOnce]
  · obtain ⟨i, hi, hlog, hexp⟩ := exists_romLog a ha
    exact ⟨i, by omega, hlog, hexp⟩

end Sys2Proof.Machine
end

/-! # Lengths: remainders, interleaving, payloads, and the mask MSEL takes (R145 to R147, R165, R210) -/

section
namespace Sys2Proof.Machine

/-! ### Remainders -/

theorem length_subtractMultiple (g w : List Byte) (i : Nat) (f : Byte) :
    (subtractMultiple g w i f).length = w.length :=
  length_foldl _ (fun _ _ => length_addAt ..) _ _

theorem length_divisionRound {g w w' : List Byte} {i : Nat} (h : divisionRound g w i = .ok w') :
    w'.length = w.length := by
  unfold divisionRound at h
  split at h
  · cases h; rfl
  · obtain ⟨f, -, hf⟩ := bind_eq_ok.1 h
    cases hf
    exact length_subtractMultiple ..

/-- The rounds of the long division keep the length of the working polynomial. -/
theorem length_divisionRounds {g : List Byte} (l : List Nat) {w w' : List Byte}
    (h : l.foldlM (divisionRound g) w = .ok w') : w'.length = w.length := by
  induction l generalizing w with
  | nil => cases h; rfl
  | cons i l ih =>
    rw [List.foldlM_cons] at h
    obtain ⟨w₁, h₁, h⟩ := bind_eq_ok.1 h
    rw [ih h, length_divisionRound h₁]

/-- A remainder has one coefficient less than its divisor, leading zeros kept (R145). -/
theorem length_rsRem {d g e : List Byte} (h : rsRem d g = .ok e) : e.length = g.length - 1 := by
  obtain ⟨w, hw, he⟩ := bind_eq_ok.1 h
  cases he
  rw [List.length_drop, length_divisionRounds _ hw, List.length_append, length_zeros]
  omega

/-! ### Blocks and interleaving -/

@[simp] theorem blockOff_zero {B : Nat} (D : Nat) (hB : 1 ≤ B) : blockOff D B 0 = 0 := by
  have := Nat.mod_lt D hB
  unfold blockOff
  omega

/-- Block `b + 1` begins where block `b` ends (R146). -/
theorem blockOff_succ (D B b : Nat) : blockOff D B (b + 1) = blockOff D B b + blockLen D B b := by
  unfold blockOff blockLen
  rw [Nat.succ_mul]
  split <;> omega

/-- The last block ends with the data (R146). -/
theorem blockOff_last {B : Nat} (D : Nat) (hB : 1 ≤ B) : blockOff D B B = D := by
  have hr := Nat.mod_lt D hB
  have hD := Nat.div_add_mod D B
  unfold blockOff
  omega

theorem blockOff_mono (D B : Nat) {b c : Nat} (h : b ≤ c) : blockOff D B b ≤ blockOff D B c := by
  induction h with
  | refl => exact Nat.le_refl _
  | step _ ih => exact Nat.le_trans ih (blockOff_succ D B _ ▸ Nat.le_add_right ..)

theorem sum_blockLen (D : Nat) {B : Nat} (hB : 1 ≤ B) (n : Nat) :
    ((List.range n).map (blockLen D B)).sum = blockOff D B n := by
  induction n with
  | zero => simp [hB]
  | succ n ih => rw [List.range_succ, List.map_append, List.sum_append_nat, ih, blockOff_succ]; simp

/-- The blocks have the lengths of R146, and every one lies within the data. -/
theorem map_length_splitBlocks (data : List Byte) {B : Nat} (hB : 1 ≤ B) :
    (splitBlocks data B).map List.length = (List.range B).map (blockLen data.length B) := by
  rw [splitBlocks, List.map_map]
  refine List.map_congr_left fun b hb => ?_
  have inside : blockOff data.length B (b + 1) ≤ data.length :=
    Nat.le_trans (blockOff_mono _ _ (List.mem_range.1 hb)) (Nat.le_of_eq (blockOff_last _ hB))
  rw [blockOff_succ] at inside
  simp only [Function.comp_apply, List.length_take, List.length_drop]
  omega

/-- The entries at `0`, …, `n - 1` of a list that ends before `n` are the list. -/
theorem flatMap_getElem?_toList {b : List Byte} {n : Nat} (h : b.length ≤ n) :
    (List.range n).flatMap (fun i => b[i]?.toList) = b := by
  induction b generalizing n with
  | nil => simp
  | cons x b ih =>
    obtain _ | n := n
    · simp at h
    · rw [List.range_succ_eq_map, List.flatMap_cons, List.flatMap_map]
      simpa using ih (Nat.le_of_succ_le_succ h)

theorem sum_map_const {α : Type} (l : List α) (n : Nat) : (l.map fun _ => n).sum = l.length * n := by
  rw [List.map_const', List.sum_replicate_nat]

theorem sum_map_add {α : Type} (l : List α) (f g : α → Nat) :
    (l.map fun x => f x + g x).sum = (l.map f).sum + (l.map g).sum := by
  induction l with
  | nil => rfl
  | cons x l ih =>
    simp only [List.map_cons, List.sum_cons, ih]
    omega

/-- One round takes a codeword from every block that has not run out, so the rounds take all of every block (R147). -/
theorem length_roundRobin {blocks : List (List Byte)} {n : Nat} (h : ∀ b ∈ blocks, b.length ≤ n) :
    (roundRobin blocks n).length = (blocks.map List.length).sum := by
  induction blocks with
  | nil =>
    simp only [roundRobin, List.length_flatMap, List.filterMap_nil, List.length_nil]
    exact sum_map_const _ 0
  | cons b blocks ih =>
    obtain ⟨hb, hbs⟩ := List.forall_mem_cons.1 h
    have own : ((List.range n).map fun i => b[i]?.toList.length).sum = b.length := by
      rw [← List.length_flatMap, flatMap_getElem?_toList hb]
    have round : ∀ i : Nat, ((b :: blocks).filterMap fun b => b[i]?).length =
        b[i]?.toList.length + (blocks.filterMap fun b => b[i]?).length := by
      intro i
      cases hi : b[i]? <;> simp [hi, Nat.add_comm]
    simp only [roundRobin, List.length_flatMap, round, sum_map_add, own] at ih ⊢
    rw [ih hbs, List.map_cons, List.sum_cons]

/-- A `mapM` that answers gives one answer per entry, each of them an entry's own. -/
theorem mapM_eq_ok {α β : Type} {f : α → Except ErrCode β} {l : List α} {r : List β} (h : l.mapM f = .ok r) :
    r.length = l.length ∧ ∀ b ∈ r, ∃ a ∈ l, f a = .ok b := by
  induction l generalizing r with
  | nil => cases h; exact ⟨rfl, nofun⟩
  | cons a l ih =>
    rw [List.mapM_cons] at h
    obtain ⟨b, hb, h⟩ := bind_eq_ok.1 h
    obtain ⟨bs, hbs, h⟩ := bind_eq_ok.1 h
    cases h
    obtain ⟨hlength, hmem⟩ := ih hbs
    refine ⟨congrArg (· + 1) hlength, List.forall_mem_cons.2 ⟨⟨a, List.mem_cons_self, hb⟩, fun b' hb' => ?_⟩⟩
    obtain ⟨a', ha', hf⟩ := hmem b' hb'
    exact ⟨a', List.mem_cons_of_mem _ ha', hf⟩

theorem blockLen_le (D B b : Nat) : blockLen D B b ≤ D / B + 1 := by
  unfold blockLen
  split <;> omega

/-- The stream holds the data codewords and `E` ECC codewords of each of the `B` blocks (R147). -/
theorem length_interleaved {data out : List Byte} {B E : Nat} (hB : 1 ≤ B) (h : interleaved data B E = .ok out) :
    out.length = data.length + B * E := by
  obtain ⟨eccs, he, ho⟩ := bind_eq_ok.1 h
  cases ho
  obtain ⟨hcount, hrem⟩ := mapM_eq_ok he
  have lengths := map_length_splitBlocks data hB
  have blocksShort : ∀ b ∈ splitBlocks data B, b.length ≤ data.length / B + 1 := by
    intro b hb
    have hmem : b.length ∈ (splitBlocks data B).map List.length := List.mem_map_of_mem hb
    rw [lengths] at hmem
    obtain ⟨k, -, hk⟩ := List.mem_map.1 hmem
    exact hk ▸ blockLen_le ..
  have count : eccs.length = B := by
    rw [hcount, ← List.length_map List.length, lengths, List.length_map, List.length_range]
  have eccLength : ∀ e ∈ eccs, e.length = E := by
    intro e hmem
    obtain ⟨b, -, hb⟩ := hrem e hmem
    rw [length_rsRem hb, length_rsGen, Nat.add_sub_cancel]
  rw [List.length_append, length_roundRobin blocksShort,
    length_roundRobin fun e he => Nat.le_of_eq (eccLength e he), lengths, sum_blockLen _ hB, blockOff_last _ hB,
    List.map_congr_left eccLength, sum_map_const, count]

/-! ### Payloads -/

/-- The payload of a segment has `payload_bits` of its mode and length (R162 to R165). -/
theorem length_numericPayload : ∀ ch : List Byte, (numericPayload ch).length = payloadBits .numeric ch.length
  | [] => rfl
  | [_] => by simp [numericPayload, payloadBits]
  | [_, _] => by simp [numericPayload, payloadBits]
  | d0 :: d1 :: d2 :: rest => by
    have ih := length_numericPayload rest
    simp only [numericPayload, List.length_append, length_bitsOf, List.length_cons, payloadBits] at ih ⊢
    rw [ih]
    have : (rest.length + 1 + 1 + 1) / 3 = rest.length / 3 + 1 := by omega
    have : (rest.length + 1 + 1 + 1) % 3 = rest.length % 3 := by omega
    simp only [*]
    omega

theorem length_alnumPayload : ∀ ch : List Byte, (alnumPayload ch).length = payloadBits .alphanumeric ch.length
  | [] => rfl
  | [_] => by simp [alnumPayload, payloadBits]
  | c0 :: c1 :: rest => by
    have ih := length_alnumPayload rest
    simp only [alnumPayload, List.length_append, length_bitsOf, List.length_cons, payloadBits] at ih ⊢
    omega

theorem length_bytePayload (ch : List Byte) : (bytePayload ch).length = payloadBits .byte ch.length := by
  simp only [bytePayload, payloadBits, List.length_flatMap, length_bitsOf, sum_map_const]
  omega

theorem length_payload (m : Mode) (ch : List Byte) : (payload m ch).length = payloadBits m ch.length := by
  cases m with
  | numeric => exact length_numericPayload ch
  | alphanumeric => exact length_alnumPayload ch
  | byte => exact length_bytePayload ch
  | kanji => rfl

/-! ### The mask MSEL takes -/

theorem bestMask_lt {ps : List Nat} (h : ps ≠ []) : bestMask ps < ps.length := by
  obtain ⟨p, ps, rfl⟩ := List.exists_cons_of_ne_nil h
  have least : ps.foldl min p ∈ p :: ps := List.min?_mem List.min?_cons'
  simpa [bestMask] using List.idxOf_lt_length_of_mem least

theorem bestMask_maskPenalties_lt (S : Nat) (g : Grid) : bestMask (maskPenalties S g) < 8 := by
  simpa [maskPenalties] using bestMask_lt (ps := maskPenalties S g) (by simp [maskPenalties])

end Sys2Proof.Machine
end

/-! # The invariant: what holds at reset and what every step keeps (R25 to R31, R41 to R45, R171, R172)

Each command's effect is one of a few kinds (a register written, a byte memory written, bits appended, the matrix changed, a
CSR written). One lemma per kind says that it keeps the invariant, and `Effect.engineInv` sends each command to its kind. -/

section
namespace Sys2Proof.Machine

variable {s u : State}

theorem EngineInv.polys (h : EngineInv s) (k : PReg) : 1 ≤ pLen s k ∧ pLen s k ≤ 4096 := by
  obtain ⟨-, hpoly, -⟩ := h
  exact hpoly k

theorem EngineInv.config (h : EngineInv s) : ConfigOk s := by
  obtain ⟨-, -, -, hconfig, -⟩ := h
  exact hconfig

theorem EngineInv.phase (h : EngineInv s) : PhaseOk s := by
  obtain ⟨-, -, -, -, hphase, -⟩ := h
  exact hphase

theorem EngineInv.grid (h : EngineInv s) : GridOk s.mat s.size.toNat := by
  obtain ⟨-, -, -, -, -, hgrid, -⟩ := h
  exact hgrid

theorem EngineInv.buffer (h : EngineInv s) : BufferOk s := by
  obtain ⟨-, -, -, -, -, -, hbuffer⟩ := h
  exact hbuffer

/-! ### Registers -/

theorem EngineInv.writeX (h : EngineInv s) (rd : XReg) (v : Word) : EngineInv (writeX s rd v) := h

theorem EngineInv.writeP (h : EngineInv s) (pd : PReg) {l : List Byte} (h1 : 1 ≤ l.length) (h4096 : l.length ≤ 4096) :
    EngineInv (writeP s pd l) := by
  obtain ⟨hmem, hpoly, hrest⟩ := h
  refine ⟨hmem, fun k => ?_, hrest⟩
  by_cases hk : k = pd
  · subst hk
    rw [pLen, readP_writeP_same]
    exact ⟨h1, h4096⟩
  · rw [pLen, readP_writeP_other _ _ _ _ hk]
    exact hpoly k

/-! ### Byte memories -/

theorem EngineInv.ram (h : EngineInv s) {sp : Space} {n : Nat} (hsp : RamSize sp n) : MemoryOk (ram s sp) n := by
  obtain ⟨⟨hinp, hdcw, hfcw⟩, -⟩ := h
  obtain ⟨rfl, rfl⟩ | ⟨rfl | rfl, rfl⟩ := hsp
  · exact hinp
  · exact hdcw
  · exact hfcw

theorem EngineInv.setRam (h : EngineInv s) {sp : Space} {n : Nat} (hsp : RamSize sp n) {m : Memory} (hm : MemoryOk m n) :
    EngineInv (setRam s sp m) := by
  obtain ⟨⟨hinp, hdcw, hfcw⟩, hrest⟩ := h
  obtain ⟨rfl, rfl⟩ | ⟨rfl | rfl, rfl⟩ := hsp
  · exact ⟨⟨hm, hdcw, hfcw⟩, hrest⟩
  · exact ⟨⟨hinp, hm, hfcw⟩, hrest⟩
  · exact ⟨⟨hinp, hdcw, hm⟩, hrest⟩

/-- RSENC's stream is `TOTAL_CW(VER)` codewords (R142), which fit FCW. -/
theorem EngineInv.rsenc (h : EngineInv s) (hu : Effect s u .rsenc) : EngineInv u := by
  obtain ⟨out, hver, hdlen, hout, rfl⟩ := hu
  obtain ⟨⟨hinp, hdcw, hfcw⟩, hpoly, hstatus, ⟨hv, hd, -⟩, hrest⟩ := h
  have hv1 : 1 ≤ s.ver.toNat := Nat.pos_of_ne_zero fun e => hver (BitVec.eq_of_toNat_eq e)
  obtain ⟨-, -, hB, htotal, -, -, hbound, -⟩ := capacityOk hv1 hv (level s)
  have hlength : out.length = totalCw s.ver.toNat := by
    rw [length_interleaved hB hout, Memory.length_readAll, hdlen, Nat.mul_comm, htotal]
  refine ⟨⟨hinp, hdcw, hfcw.writeAll ?_⟩, hpoly, hstatus, ⟨hv, hd, ?_⟩, hrest⟩
  · rw [hlength, Config.cwSize]
    omega
  · simp only [BitVec.toNat_ofNat, totalCwNow]
    omega

/-- BFLUSH stores at most 2956 codewords, as the buffer holds at most 23648 bits (R42, R169). -/
theorem EngineInv.bflush (h : EngineInv s) (hu : Effect s u .bflush) : EngineInv u := by
  subst hu
  obtain ⟨⟨hinp, hdcw, hfcw⟩, hpoly, hstatus, ⟨hv, -, hf⟩, hphase, hgrid, hroom, hstage⟩ := h
  simp only [bbLen, Config.bbMax] at hroom
  refine ⟨⟨hinp, hdcw.writeAll ?_, hfcw⟩, hpoly, hstatus, ⟨hv, ?_, hf⟩, hphase, hgrid, hroom, hstage⟩
  · rw [length_codewords, Config.cwSize]
    omega
  · simp only [bbLen, BitVec.toNat_ofNat]
    omega

/-! ### The bit buffer -/

/-- In stage 0 any append that fits keeps the invariant (R170). -/
theorem EngineInv.append (h : EngineInv s) (hs : s.bstage = 0) {bs : List Bool} (hroom : bbLen s + bs.length ≤ 23648) :
    EngineInv (appendBits s bs) := by
  obtain ⟨hmem, hpoly, hstatus, hconfig, hphase, hgrid, -⟩ := h
  refine ⟨hmem, hpoly, hstatus, hconfig, hphase, hgrid, ?_, fun hn => absurd hs hn, fun hn => ?_, fun hn => ?_⟩
  · simpa using hroom
  · simp [hs] at hn
  · simp [hs] at hn

/-- Moving on to a stage keeps the invariant where the buffer is then what the stage requires (R166 to R168, R171). -/
theorem EngineInv.closeStage (h : EngineInv s) {bs : List Bool} {stage : BitVec 2} {total : BitVec 15} (hver : s.ver ≠ 0)
    (h1 : 1 ≤ bbLen s) (hcap : bbLen s + bs.length ≤ capBits s)
    (h2 : 2 ≤ stage.toNat → (bbLen s + bs.length) % 8 = 0) (h3 : stage = 3 → bbLen s + bs.length = capBits s) :
    EngineInv { appendBits s bs with totbits := total, bstage := stage } := by
  obtain ⟨hmem, hpoly, hstatus, ⟨hv, hlens⟩, hphase, hgrid, -⟩ := h
  have hroom := capBits_le hv (level s)
  have hgrown : bbLen s ≤ bbLen (appendBits s bs) := bbLen_appendBits s bs ▸ Nat.le_add_right ..
  simp only [← bbLen_appendBits s bs] at hcap h2 h3
  exact ⟨hmem, hpoly, hstatus, ⟨hv, hlens⟩, hphase, hgrid, Nat.le_trans hcap hroom, fun _ => ⟨hver, Nat.le_trans h1 hgrown, hcap⟩,
    h2, h3⟩

theorem EngineInv.bterm (h : EngineInv s) (hu : Effect s u .bterm) : EngineInv u := by
  obtain ⟨hver, -, h1, hcap, rfl⟩ := hu
  refine h.closeStage hver h1 ?_ nofun nofun
  rw [length_bitsOf]
  omega

/-- The capacity is whole bytes, so the bits to the byte boundary fit it (R167, R172). -/
theorem EngineInv.balign (h : EngineInv s) (hu : Effect s u .balign) : EngineInv u := by
  obtain ⟨hs, rfl⟩ := hu
  obtain ⟨-, hstage, -⟩ := h.buffer
  obtain ⟨hver, h1, hcap⟩ := hstage (by simp [hs])
  simp only [capBits] at hcap
  refine h.closeStage hver h1 ?_ (fun _ => ?_) nofun
  · rw [length_bitsOf, capBits]
    omega
  · rw [length_bitsOf]
    omega

/-- In stage 2 the buffer is whole bytes within the capacity, so the pad codewords fill it (R168). -/
theorem EngineInv.bpad (h : EngineInv s) (hu : Effect s u .bpad) : EngineInv u := by
  obtain ⟨hs, rfl⟩ := hu
  obtain ⟨-, hstage, hbytes, -⟩ := h.buffer
  obtain ⟨hver, h1, hcap⟩ := hstage (by simp [hs])
  have hbytes : bbLen s % 8 = 0 := hbytes (by simp [hs])
  have filled : bbLen s + (padBits (dataCwNow s - bbLen s / 8)).length = capBits s := by
    rw [length_padBits]
    simp only [capBits] at hcap ⊢
    omega
  refine h.closeStage hver h1 (Nat.le_of_eq filled) (fun _ => ?_) fun _ => filled
  rw [filled, capBits, Nat.mul_mod_right]

/-! ### The matrix -/

/-- A matrix command after MINIT keeps the invariant: the matrix keeps its shape, `PHASE` moves on and `MASK` agrees with it
(R30, R45). -/
theorem EngineInv.advance (h : EngineInv s) {g : Grid} {phase mask : BitVec 4} (hs : s.phase ≠ 0)
    (hg : GridOk g s.size.toNat) (hp : phase ≠ 0 ∧ phase.toNat ≤ 9)
    (hm : (phase.toNat < 7 → mask = 0) ∧ (7 ≤ phase.toNat → 8 ≤ mask.toNat)) :
    EngineInv { s with mat := g, phase := phase, mask := mask } := by
  obtain ⟨hmem, hpoly, hstatus, hconfig, ⟨-, -, hsize, -⟩, -, hbuffer⟩ := h
  exact ⟨hmem, hpoly, hstatus, hconfig, ⟨hp.2, fun h0 => absurd h0 hp.1, fun _ => hsize hs, hm⟩, hg, hbuffer⟩

/-- A matrix command that leaves `MASK` alone, between two phases of which neither or both have a mask. -/
theorem EngineInv.advance_mask (h : EngineInv s) {g : Grid} {k phase : BitVec 4} (hs : s.phase = k)
    (hg : GridOk g s.size.toNat) (hk : k ≠ 0 ∧ phase ≠ 0 ∧ phase.toNat ≤ 9 ∧ (phase.toNat < 7 ↔ k.toNat < 7)) :
    EngineInv { s with mat := g, phase := phase } := by
  obtain ⟨hk0, hp0, hp9, hsame⟩ := hk
  obtain ⟨-, -, -, hunmasked, hmasked⟩ := h.phase
  rw [hs] at hunmasked hmasked
  exact h.advance (hs ▸ hk0) hg ⟨hp0, hp9⟩ ⟨fun h7 => hunmasked (hsame.1 h7), fun h7 => hmasked (by omega)⟩

/-- The mask that MMASK and MSEL set is valid (R203, R210). -/
theorem EngineInv.applyMask (h : EngineInv s) (hs : s.phase = 6) {k : Nat} (hk : k ≤ 7) :
    EngineInv { s with mat := applyMask s.mat k, mask := BitVec.ofNat 4 (8 + k), phase := 7 } := by
  refine h.advance (by simp [hs]) (h.grid.applyMask k) (by decide) ⟨nofun, fun _ => ?_⟩
  simp only [BitVec.toNat_ofNat]
  omega

theorem EngineInv.minit (h : EngineInv s) (hu : Effect s u .minit) : EngineInv u := by
  obtain ⟨hver, hs, rfl⟩ := hu
  obtain ⟨hmem, hpoly, hstatus, ⟨hv, hlens⟩, -, -, hbuffer⟩ := h
  have hside : (BitVec.ofNat 8 (sideOf s.ver.toNat)).toNat = sideOf s.ver.toNat := by
    rw [BitVec.toNat_ofNat, sideOf]
    omega
  refine ⟨hmem, hpoly, hstatus, ⟨hv, hlens⟩,
    ⟨Nat.le_add_left 1 8, nofun, fun _ => ⟨hver, hside⟩, fun _ => rfl, nofun⟩, ?_, hbuffer⟩
  rw [hside]
  exact .empty _

/-! ### The configuration registers -/

/-- Inside the write window no matrix is built and the buffer is empty and in stage 0, so nothing else depends on `VER` and
`ECL` (R269). -/
theorem EngineInv.configure (h : EngineInv s) (hw : writeWindow s) {ver : BitVec 6} {ecl : BitVec 2}
    (hv : ver.toNat ≤ 40) : EngineInv { s with ver := ver, ecl := ecl } := by
  obtain ⟨hphase0, hempty, -⟩ := hw
  obtain ⟨hmem, hpoly, hstatus, ⟨-, hlens⟩, ⟨hp9, hsize, -, hmask⟩, hgrid, hroom, hstage, -⟩ := h
  have hstage0 : s.bstage = 0 := Decidable.byContradiction fun hne => by
    obtain ⟨-, h1, -⟩ := hstage hne
    omega
  exact ⟨hmem, hpoly, hstatus, ⟨hv, hlens⟩, ⟨hp9, hsize, fun hne => absurd hphase0 hne, hmask⟩, hgrid, hroom,
    fun hne => absurd hstage0 hne, fun h2 => by simp [hstage0] at h2, fun h3 => by simp [hstage0] at h3⟩

theorem EngineInv.csrw (h : EngineInv s) {c : Csr} {r : XReg} (hu : Effect s u (.csrw c r)) : EngineInv u := by
  have ⟨hmem, hpoly, hstatus, ⟨hv, hd, hf⟩, hrest⟩ := h
  obtain ⟨-, hw, -, h40, rfl⟩ | ⟨-, hw, -, rfl⟩ | ⟨-, hle, rfl⟩ | ⟨-, hle, rfl⟩ := hu
  · refine h.configure hw ?_
    rw [BitVec.toNat_ofNat]
    omega
  · exact h.configure hw hv
  · refine ⟨hmem, hpoly, hstatus, ⟨hv, ?_, hf⟩, hrest⟩
    simp only [BitVec.toNat_ofNat]
    omega
  · refine ⟨hmem, hpoly, hstatus, ⟨hv, hd, ?_⟩, hrest⟩
    simp only [BitVec.toNat_ofNat]
    omega

/-! ### The reset state -/

theorem EngineInv.reset : EngineInv State.reset := by
  obtain ⟨hinp, hdcw, hfcw⟩ := reset_memory_wf
  refine ⟨⟨⟨hinp, nofun⟩, ⟨hdcw, nofun⟩, hfcw, nofun⟩, fun k => ?_, ⟨fun h => absurd rfl h, fun _ => rfl⟩, ?_, ?_,
    ⟨rfl, nofun⟩, ?_⟩
  · have : readP State.reset k = [0] := by simp [readP, State.reset]
    simp [pLen, this, Config.pMax]
  · simp [ConfigOk, State.reset]
  · simp [PhaseOk, State.reset]
  · simp [BufferOk, bbLen, State.reset]

/-- Settles O59. -/
theorem resetMeetsInvariant : Obligations.ResetMeetsInvariant := EngineInv.reset

/-! ### Commands and steps -/

/-- The effect of every completing command keeps the invariant. -/
theorem Effect.engineInv {i : Instr} (hu : Effect s u i) (h : EngineInv s) (hr : Running s) : EngineInv u := by
  cases i with
  | gfadd | gfmul | gfdiv | gfpow | gfexp | gflog | pdeg | peval | bchf | bchv | ldi | mov | ldb | csrr =>
    obtain ⟨v, rfl⟩ := hu
    exact h.writeX ..
  | pld | rsgen =>
    obtain ⟨l, rfl, h1, h4096⟩ := hu
    exact h.writeP _ h1 h4096
  | pmov pd pa =>
    subst hu
    exact h.writeP _ (h.polys pa).1 (h.polys pa).2
  | padd pd pa pb =>
    subst hu
    have hlength : (polyAdd (readP s pa) (readP s pb)).length = max (pLen s pa) (pLen s pb) := length_polyAdd ..
    have ha := h.polys pa
    have hb := h.polys pb
    exact h.writeP _ (by omega) (by omega)
  | pscl pd pa =>
    obtain ⟨l, rfl, hl⟩ := hu
    exact h.writeP _ (hl ▸ (h.polys pa).1) (hl ▸ (h.polys pa).2)
  | pmul pd pa pb =>
    obtain ⟨l, rfl, hl, h4096⟩ := hu
    have ha := h.polys pa
    have hb := h.polys pb
    exact h.writeP _ (by omega) h4096
  | rsrem pd pa pb =>
    obtain ⟨l, rfl, hl, h2, -⟩ := hu
    have hb := h.polys pb
    have hlength : l.length = pLen s pb - 1 := length_rsRem hl
    exact h.writeP _ (by omega) (by omega)
  | rssyn =>
    obtain ⟨v, l, rfl, h1, h4096⟩ := hu
    exact (h.writeP _ h1 h4096).writeX ..
  | pst =>
    obtain ⟨n, hn, hrun, rfl⟩ := hu
    exact h.setRam hn ((h.ram hn).writeAll hrun)
  | stb =>
    obtain ⟨n, v, hn, ha, rfl⟩ := hu
    exact h.setRam hn ((h.ram hn).write ha v)
  | rsenc => exact h.rsenc hu
  | bapp =>
    obtain ⟨bs, hs, hroom, rfl⟩ := hu
    exact h.append hs hroom
  | bseg m r1 r2 =>
    obtain ⟨-, hs, -, hroom, rfl⟩ := hu
    refine h.append hs ?_
    simpa [length_payload, Nat.add_assoc] using hroom
  | bterm => exact h.bterm hu
  | balign => exact h.balign hu
  | bpad => exact h.bpad hu
  | bflush => exact h.bflush hu
  | minit => exact h.minit hu
  | mfind =>
    obtain ⟨hs, rfl⟩ := hu
    exact h.advance_mask hs (h.grid.setfAll _) (by decide)
  | mtime =>
    obtain ⟨hs, rfl⟩ := hu
    exact h.advance_mask hs (h.grid.setfAll _) (by decide)
  | malign =>
    obtain ⟨hs, rfl⟩ := hu
    exact h.advance_mask hs (h.grid.setfAll _) (by decide)
  | mrsv =>
    obtain ⟨hs, rfl⟩ := hu
    exact h.advance_mask hs (((h.grid.reserveAll _).setf ..).reserveAll _) (by decide)
  | mdata =>
    obtain ⟨hs, -, ws, rfl⟩ := hu
    exact h.advance_mask hs (h.grid.paintAll ws) (by decide)
  | mmask =>
    obtain ⟨hs, k, hk, rfl⟩ := hu
    exact h.applyMask hs hk
  | mpen rd =>
    obtain ⟨-, v, rfl⟩ := hu
    exact h.writeX rd v
  | msel =>
    obtain ⟨hs, rfl⟩ := hu
    exact h.applyMask hs (Nat.le_of_lt_succ (bestMask_maskPenalties_lt ..))
  | ifmt =>
    obtain ⟨hs, rfl⟩ := hu
    exact h.advance_mask hs (h.grid.paintAll _) (by decide)
  | iver =>
    obtain ⟨hs, ws, w, rfl⟩ := hu
    exact h.advance_mask hs (h.grid.paintAll ws) (by decide)
  | nop => exact hu ▸ h
  | halt =>
    subst hu
    obtain ⟨hmem, hpoly, ⟨-, herrcmd⟩, hrest⟩ := h
    exact ⟨hmem, hpoly, ⟨fun hf => absurd hr.1 hf, herrcmd⟩, hrest⟩
  | clear =>
    subst hu
    exact EngineInv.reset
  | csrw => exact h.csrw hu

theorem EngineInv.enterFault (h : EngineInv s) (hr : Running s) (e : ErrCode) (cw : Word) :
    EngineInv (enterFault e cw s) := by
  obtain ⟨hmem, hpoly, -, hrest⟩ := h
  exact ⟨hmem, hpoly, ⟨fun _ => hr.2, nofun⟩, hrest⟩

theorem EngineInv.exec {t : State} {i : Instr} (h : EngineInv s) (hr : Running s) (ht : exec i s = .next t) :
    EngineInv t := by
  obtain ⟨e, rfl⟩ | ⟨u, rfl, hu⟩ := exec_inversion ht
  · exact h.enterFault hr ..
  · exact hu.engineInv h hr

theorem EngineInv.command {t : State} {cw : Word} (h : EngineInv s) (ht : command cw s = .next t) : EngineInv t := by
  obtain ⟨-, -, rfl⟩ | ⟨-, -, rfl⟩ | ⟨hr, i, -, hi⟩ | ⟨hr, rfl⟩ := command_cases ht
  · exact EngineInv.reset
  · exact h
  · exact h.exec hr hi
  · exact h.enterFault hr ..

theorem EngineInv.hostWrite (h : EngineInv s) (sp addr : Nat) (v : Byte) : EngineInv (hostWrite s sp addr v) := by
  obtain hw | ⟨space, n, hn, ha, hw⟩ := hostWrite_cases s sp addr v
  · exact hw ▸ h
  · exact hw ▸ h.setRam hn ((h.ram hn).write ha v)

theorem EngineInv.transact {t : State} {tx : HostTx} (h : EngineInv s) (ht : transact tx s = .next t) : EngineInv t := by
  cases tx with
  | reset =>
    cases ht
    exact EngineInv.reset
  | command cw => exact EngineInv.command (s := { s with reply := .noData }) h ht
  | read | csr =>
    cases ht
    exact h
  | write sp addr v =>
    cases ht
    exact h.hostWrite sp addr v

/-- Settles O60: a step is the next transaction, or rests where none is left, and every transaction keeps the invariant. -/
theorem stepKeepsInvariant : Obligations.StepKeepsInvariant := by
  intro s t h ht
  cases hp : s.pending with
  | nil =>
    simp only [step, nextTransaction, hp] at ht
    cases ht
    exact h
  | cons tx rest =>
    rw [step_of_pending hp] at ht
    exact EngineInv.transact (s := { s with pending := rest }) h ht

end Sys2Proof.Machine
end

/-! # The values after reset, the CSRs and what the host reads (R24, R25, R31, R32, R50, R251) -/

section
namespace Sys2Proof.Machine

/-! ### Reset and CLEAR -/

/-- The reset table holds whatever `CMDCNT` and the host port's fields are (R50). -/
theorem fresh_reset (c : Word) (pending : List HostTx) (reply : HostReply) :
    Fresh { State.reset with cmdcnt := c, pending := pending, reply := reply } c := by
  simp [Fresh, readX, readP, State.reset, Memory.read, Memory.unlisted]

/-- Settles O7. -/
theorem resetAndClearValues : Obligations.ResetAndClearValues :=
  ⟨fun _ rest hp => ⟨_, step_of_pending hp, fresh_reset 0 rest .noData⟩,
    fun s => ⟨_, rfl, fresh_reset (s.cmdcnt + 1) s.pending s.reply⟩,
    fresh_reset 0 [] .noData⟩

/-! ### STATUS -/

/-- The fields of a word made as `STATUS` is: three flags, a zero, and a code of at most 7 above them (R25). -/
theorem statusWord_fields : ∀ f h r : Bool, ∀ c < 8,
    let w : Word := BitVec.ofNat 32 ((if f then 1 else 0) + (if h then 2 else 0) + (if r then 4 else 0) + 16 * c)
    w.getLsbD 0 = f ∧ w.getLsbD 1 = h ∧ w.getLsbD 2 = r ∧ w.getLsbD 3 = false ∧ w.toNat / 16 = c := by
  decide

theorem ErrCode.code_lt (e : ErrCode) : e.code < 8 := by cases e <;> decide

/-- Settles O14. -/
theorem statusFields : Obligations.StatusFields := by
  intro s
  unfold csrRead statusWord
  cases hf : s.fault with
  | none => simpa [resultValid, hf] using statusWord_fields false s.halted (resultValid s) 0 (by decide)
  | some e =>
    obtain ⟨h0, h1, h2, h3, h4⟩ := statusWord_fields true s.halted (resultValid s) e.code e.code_lt
    refine ⟨h0, h1, h2.trans ?_, h3, h4.trans ?_⟩
    · rw [resultValid, hf]
    · cases e <;> rfl

/-! ### The other CSRs -/

/-- A CSR of at most 32 bits is read as it is. -/
theorem toNat_ofNat_word {n : Nat} (h : n ≤ 23648) : (BitVec.ofNat 32 n).toNat = n := by
  rw [BitVec.toNat_ofNat, Nat.mod_eq_of_lt (by omega)]

/-- A view CSR is the table's entry of the configured version, and 0 with no version set (R32). -/
theorem toNat_view (ver : BitVec 6) {table : Nat → Nat} (h0 : table 0 = 0) (hle : table ver.toNat ≤ 3706) :
    (BitVec.ofNat 32 (table ver.toNat)).toNat = if ver = 0 then 0 else table ver.toNat := by
  rw [toNat_ofNat_word (by omega)]
  split
  next h => rw [h]; exact h0
  next => rfl

/-- No entry of the capacity tables exceeds `TOTAL_CW` (R40). -/
theorem tables_le {v : Nat} (h40 : v ≤ 40) (lv : Level) :
    dataCw v lv ≤ 3706 ∧ totalCw v ≤ 3706 ∧ nblk v lv ≤ 3706 ∧ eccPerBlock v lv ≤ 3706 := by
  obtain rfl | hv := Nat.eq_zero_or_pos v
  · simp [dataCw_zero, totalCw_zero, nblk_zero, eccPerBlock_zero]
  · obtain ⟨-, hE, hB, htotal, -, -, hbound, -⟩ := capacityOk hv h40 lv
    have hEle : eccPerBlock v lv ≤ eccPerBlock v lv * nblk v lv := Nat.le_mul_of_pos_right _ hB
    have hBle : nblk v lv ≤ eccPerBlock v lv * nblk v lv := Nat.le_mul_of_pos_left _ hE
    omega

/-- Settles O15: the registers are zero-extended, and the computed CSRs fit 32 bits by the invariant. -/
theorem csrValues : Obligations.CsrValues := by
  intro s h
  have widened {n : Nat} (b : BitVec n) (hn : n ≤ 32) : (b.setWidth 32).toNat = b.toNat :=
    BitVec.toNat_setWidth_of_le hn
  obtain ⟨hv, -⟩ := h.config
  obtain ⟨hroom, -⟩ := h.buffer
  obtain ⟨hdata, htotal, hblocks, hecc⟩ := tables_le hv (levelOf s.ecl)
  exact ⟨rfl, rfl, rfl, fun _ => rfl, widened s.ver (by decide), widened s.ecl (by decide), widened s.size (by decide),
    widened s.phase (by decide), widened s.mask (by decide), widened s.totbits (by decide), widened s.dlen (by decide),
    widened s.flen (by decide), widened s.bstage (by decide), widened s.fmt (by decide), widened s.vinf (by decide),
    toNat_ofNat_word hroom, fun k => toNat_ofNat_word (Nat.le_trans (h.polys k).2 (by decide)),
    toNat_view s.ver (table := (dataCw · (levelOf s.ecl))) (dataCw_zero _) hdata,
    toNat_view s.ver totalCw_zero htotal,
    toNat_view s.ver (table := (nblk · (levelOf s.ecl))) (nblk_zero _) hblocks,
    toNat_view s.ver (table := (eccPerBlock · (levelOf s.ecl))) (eccPerBlock_zero _) hecc⟩

/-! ### Host reads -/

/-- A space whose only check is an upper bound is answered exactly within it (R251). -/
theorem hostRead_bounded {s : State} {sp addr : Nat} {space : Space} {c : Prop} [Decidable c] {e : ErrCode} {v : Byte}
    (hsp : Space.ofNumber sp = some space) (hmat : space = .mat → resultValid s = true)
    (hread : memRead s space addr = (require c e >>= fun _ => .ok v)) :
    hostRead s sp addr = if c then .value v.zext else .refused := by
  have allowed : ¬(space = .mat ∧ resultValid s = false) := fun hn => by simp [hmat hn.1] at hn
  simp only [hostRead, hsp, if_neg allowed, hread, require_bind]
  by_cases hc : c <;> simp [hc]

theorem hostRead_log (s : State) (addr : Nat) :
    hostRead s 4 addr = if 1 ≤ addr ∧ addr ≤ 255 then
      .value (BitVec.ofNat 32 ((romLog (BitVec.ofNat 8 addr)).getD 0)) else .refused := by
  have unguarded : ¬(Space.log = .mat ∧ resultValid s = false) := nofun
  simp only [hostRead, Space.ofNumber, if_neg unguarded, memRead, require_bind]
  by_cases h0 : addr ≠ 0
  · by_cases h255 : addr ≤ 255
    · have hne : BitVec.ofNat 8 addr ≠ 0 := fun e => by
        have := congrArg BitVec.toNat e
        simp at this
        omega
      obtain ⟨i, hi, hlog, -⟩ := exists_romLog _ hne
      have hzext : BitVec.setWidth 32 (BitVec.ofNat 8 i) = BitVec.ofNat 32 i := by
        apply BitVec.eq_of_toNat_eq
        simp
        omega
      simp [h0, h255, hlog, hzext, Nat.one_le_iff_ne_zero]
    · simp [h0, h255]
  · rw [Decidable.not_not] at h0
    subst h0
    rfl

theorem hostRead_mat (s : State) (addr : Nat) :
    hostRead s 5 addr = if s.phase = 9 ∧ s.fault = none ∧ addr < s.size.toNat * s.size.toNat then
      .value (s.mat.cell (addr / s.size.toNat) (addr % s.size.toNat)).byte.zext else .refused := by
  have valid_iff : resultValid s = true ↔ s.phase = 9 ∧ s.fault = none := by simp [resultValid]
  cases hv : resultValid s with
  | true =>
    obtain ⟨hp, hf⟩ := valid_iff.1 hv
    rw [hostRead_bounded (space := .mat) rfl (fun _ => hv) rfl]
    simp [hp, hf]
  | false =>
    have invalid : ¬(s.phase = 9 ∧ s.fault = none) := fun h => by simp [valid_iff.2 h] at hv
    rw [if_neg fun h => invalid ⟨h.1, h.2.1⟩]
    simp [hostRead, Space.ofNumber, hv]

theorem hostRead_bb (s : State) (addr : Nat) :
    hostRead s 6 addr = if addr < s.bb.length then .value (if s.bb.getD addr false then 1 else 0) else .refused := by
  rw [hostRead_bounded (space := .bb) rfl nofun rfl]
  cases s.bb.getD addr false <;> rfl

/-- The numbers of the CSR file (R24). -/
theorem csr_number_range (c : Csr) : c.number ≤ 0x0D ∨ 0x10 ≤ c.number ∧ c.number ≤ 0x21 := by
  cases c <;> simp only [Csr.number] <;> omega

/-- Settles O9: space by space for the reads; a CSR's number is read back to it, and the numbers outside the file are none. -/
theorem hostReadsAnswer : Obligations.HostReadsAnswer := by
  refine ⟨fun s rest sp addr hp => ?_, fun s rest c hp => ?_, fun s rest n hp hn => ?_⟩
  · rw [step_of_pending hp, transact]
    congr 2
    match sp with
    | 0 => exact hostRead_bounded (space := .inp) rfl nofun rfl
    | 1 => exact hostRead_bounded (space := .dcw) rfl nofun rfl
    | 2 => exact hostRead_bounded (space := .fcw) rfl nofun rfl
    | 3 => exact hostRead_bounded (space := .exp) rfl nofun rfl
    | 4 => exact hostRead_log ..
    | 5 => exact hostRead_mat ..
    | 6 => exact hostRead_bb ..
    | sp + 7 => rfl
  · rw [step_of_pending hp]
    simp only [transact, hostCsr, Csr.ofNumber_number]
    rfl
  · have none : Csr.ofNumber n = none := by
      cases hc : Csr.ofNumber n with
      | none => rfl
      | some c =>
        have hnum := Csr.number_of_ofNumber hc
        have hrange := csr_number_range c
        omega
    rw [step_of_pending hp]
    simp only [transact, hostCsr, none]

end Sys2Proof.Machine
end

/-! # A command check by check, and the matrix commands out of phase (R12, R30, R188) -/

section
namespace Sys2Proof.Machine

section
variable {i : Instr} {s : State} {α : Type}

/-- A check that fails makes the command fault. -/
theorem runCommand_require_neg {c : Prop} [Decidable c] {e : ErrCode} {k : Unit → Except ErrCode State} (h : ¬c) :
    runCommand i s (require c e >>= k) = .next (enterFault e (encode i) s) := by
  rw [require_neg h]
  rfl

/-- A check or an operand that is accepted lets the command go on. -/
theorem runCommand_bind_ok {r : Except ErrCode α} {k : α → Except ErrCode State} {a : α} (h : r = .ok a) :
    runCommand i s (r >>= k) = runCommand i s (k a) := by
  rw [h]
  rfl

end

/-- Settles O48: the failing check is the first for a command out of phase, and the second where the phase is right. -/
theorem matrixCommandsFault : Obligations.MatrixCommandsFault := by
  intro s rd rs1
  refine ⟨fun h => ?_, runCommand_require_neg, runCommand_require_neg, runCommand_require_neg, runCommand_require_neg,
    fun h => ?_, fun h => ⟨runCommand_require_neg h, runCommand_require_neg h⟩, fun hp h7 => ?_,
    fun h => runCommand_require_neg (Nat.not_le.2 h), runCommand_require_neg, runCommand_require_neg⟩
  · by_cases hv : s.ver = 0
    · exact runCommand_require_neg (Decidable.not_not.2 hv)
    · exact (runCommand_bind_ok (require_pos hv _)).trans (runCommand_require_neg (h.resolve_left hv))
  · by_cases hp : s.phase = 5
    · exact (runCommand_bind_ok (require_pos hp _)).trans (runCommand_require_neg (h.resolve_left (Decidable.not_not.2 hp)))
    · exact runCommand_require_neg hp
  · exact (runCommand_bind_ok (require_pos hp _)).trans (runCommand_require_neg (Nat.not_le.2 h7))

end Sys2Proof.Machine
end

/-! # The packer: what a payload holds, and the codewords of the buffer (R160 to R164, R169, R170) -/

section
namespace Sys2Proof.Machine

/-! ### Bits of a number -/

theorem getD_bitsOf {v n j : Nat} (h : j < n) : (bitsOf v n).getD j false = v.testBit (n - 1 - j) := by
  simp [bitsOf, List.getD_eq_getElem?_getD, h]

/-- Where a list of bits begins with those of a number, its first entries are that number's bits. -/
theorem getD_bitsOf_append {v n j : Nat} (bs : List Bool) (h : j < n) :
    (bitsOf v n ++ bs).getD j false = v.testBit (n - 1 - j) := by
  have inside : j < (bitsOf v n).length := by rwa [length_bitsOf]
  rw [← getD_bitsOf h, List.getD_eq_getElem?_getD, List.getD_eq_getElem?_getD, List.getElem?_append_left inside]

/-- Entry `n + j` of `n` bits followed by others is entry `j` of the others. -/
theorem getD_append_add (as bs : List Bool) (j : Nat) : (as ++ bs).getD (as.length + j) false = bs.getD j false := by
  rw [List.getD_eq_getElem?_getD, List.getD_eq_getElem?_getD, List.getElem?_append_right (Nat.le_add_right ..),
    Nat.add_sub_cancel_left]

/-- A suffix that is not empty, from its first entry on. -/
theorem drop_eq_getD_cons {ch : List Byte} {n : Nat} (h : n < ch.length) :
    ch.drop n = ch.getD n 0 :: ch.drop (n + 1) := by
  rw [List.drop_eq_getElem_cons h, List.getElem_eq_getD 0]

/-! ### Payloads (R162 to R164) -/

/-- The bits of group `k` of a numeric payload begin the payload of what follows the first `k` groups. -/
theorem getD_numericPayload (ch : List Byte) (k j : Nat) (h : 3 * k ≤ ch.length) :
    (numericPayload ch).getD (10 * k + j) false = (numericPayload (ch.drop (3 * k))).getD j false := by
  induction k generalizing ch with
  | zero => simp
  | succ k ih =>
    match ch with
    | d0 :: d1 :: d2 :: rest =>
      have shift : 10 * (k + 1) + j = (bitsOf (100 * digitValue d0 + 10 * digitValue d1 + digitValue d2) 10).length +
          (10 * k + j) := by rw [length_bitsOf]; omega
      rw [numericPayload, shift, getD_append_add, ih rest (by simp at h; omega)]
      rfl
    | [] | [_] | [_, _] => simp at h <;> omega

theorem getD_alnumPayload (ch : List Byte) (k j : Nat) (h : 2 * k ≤ ch.length) :
    (alnumPayload ch).getD (11 * k + j) false = (alnumPayload (ch.drop (2 * k))).getD j false := by
  induction k generalizing ch with
  | zero => simp
  | succ k ih =>
    match ch with
    | c0 :: c1 :: rest =>
      have shift : 11 * (k + 1) + j = (bitsOf (45 * alnumOf c0 + alnumOf c1) 11).length + (11 * k + j) := by
        rw [length_bitsOf]; omega
      rw [alnumPayload, shift, getD_append_add, ih rest (by simp at h; omega)]
      rfl
    | [] | [_] => simp at h <;> omega

theorem getD_bytePayload (ch : List Byte) (k j : Nat) (hk : k < ch.length) (hj : j < 8) :
    (bytePayload ch).getD (8 * k + j) false = (ch.getD k 0).toNat.testBit (7 - j) := by
  induction ch generalizing k with
  | nil => simp at hk
  | cons c ch ih =>
    rw [bytePayload, List.flatMap_cons]
    match k with
    | 0 => simpa using getD_bitsOf_append _ hj
    | k + 1 =>
      have shift : 8 * (k + 1) + j = (bitsOf c.toNat 8).length + (8 * k + j) := by rw [length_bitsOf]; omega
      rw [shift, getD_append_add]
      exact ih k (by simpa using hk)

section
variable (ch : List Byte) (k j : Nat)

/-- Three digits in 10 bits (R162). -/
theorem getD_numericPayload_three (h : 3 * k + 2 < ch.length) (hj : j < 10) :
    (numericPayload ch).getD (10 * k + j) false =
      (100 * digitValue (ch.getD (3 * k) 0) + 10 * digitValue (ch.getD (3 * k + 1) 0)
        + digitValue (ch.getD (3 * k + 2) 0)).testBit (9 - j) := by
  rw [getD_numericPayload ch k j (by omega), drop_eq_getD_cons (by omega), drop_eq_getD_cons (by omega),
    drop_eq_getD_cons h, numericPayload, getD_bitsOf_append _ hj]

/-- The last two digits in 7 bits (R162). -/
theorem getD_numericPayload_two (h : ch.length = 3 * k + 2) (hj : j < 7) :
    (numericPayload ch).getD (10 * k + j) false =
      (10 * digitValue (ch.getD (3 * k) 0) + digitValue (ch.getD (3 * k + 1) 0)).testBit (6 - j) := by
  rw [getD_numericPayload ch k j (by omega), drop_eq_getD_cons (by omega), drop_eq_getD_cons (by omega),
    List.drop_of_length_le (by omega), numericPayload, getD_bitsOf hj]

/-- The last digit in 4 bits (R162). -/
theorem getD_numericPayload_one (h : ch.length = 3 * k + 1) (hj : j < 4) :
    (numericPayload ch).getD (10 * k + j) false = (digitValue (ch.getD (3 * k) 0)).testBit (3 - j) := by
  rw [getD_numericPayload ch k j (by omega), drop_eq_getD_cons (by omega), List.drop_of_length_le (by omega),
    numericPayload, getD_bitsOf hj]

/-- Two symbols in 11 bits (R163). -/
theorem getD_alnumPayload_two (h : 2 * k + 1 < ch.length) (hj : j < 11) :
    (alnumPayload ch).getD (11 * k + j) false =
      (45 * alnumOf (ch.getD (2 * k) 0) + alnumOf (ch.getD (2 * k + 1) 0)).testBit (10 - j) := by
  rw [getD_alnumPayload ch k j (by omega), drop_eq_getD_cons (by omega), drop_eq_getD_cons h, alnumPayload,
    getD_bitsOf_append _ hj]

/-- The last symbol in 6 bits (R163). -/
theorem getD_alnumPayload_one (h : ch.length = 2 * k + 1) (hj : j < 6) :
    (alnumPayload ch).getD (11 * k + j) false = (alnumOf (ch.getD (2 * k) 0)).testBit (5 - j) := by
  rw [getD_alnumPayload ch k j (by omega), drop_eq_getD_cons (by omega), List.drop_of_length_le (by omega),
    alnumPayload, getD_bitsOf hj]

end

theorem idxOf?_of_mem {x : Nat} {l : List Nat} (h : x ∈ l) : l.idxOf? x = some (l.idxOf x) := by
  induction l with
  | nil => cases h
  | cons y l ih =>
    rw [List.idxOf?_cons, List.idxOf_cons]
    by_cases hy : y = x
    · simp only [hy, beq_self_eq_true, if_true, cond_true]
    · have hx : x ∈ l := (List.mem_cons.1 h).resolve_left (Ne.symm hy)
      simp only [beq_eq_false_iff_ne.2 hy, Bool.false_eq_true, if_false, cond_false, ih hx, Option.map_some]

theorem alnumValue_of_mem {c : Byte} (h : c.toNat ∈ alnumTable) : alnumValue c = some (alnumTable.idxOf c.toNat) :=
  idxOf?_of_mem h

/-! ### BAPP and BSEG -/

/-- BSEG's character check is the mode's own (R161). -/
theorem all_carries {m : Mode} {ch : List Byte} (hm : m ≠ .kanji)
    (hnum : m = .numeric → ∀ c ∈ ch, 0x30 ≤ c.toNat ∧ c.toNat ≤ 0x39)
    (haln : m = .alphanumeric → ∀ c ∈ ch, c.toNat ∈ alnumTable) : ch.all (carries m) = true := by
  rw [List.all_eq_true]
  intro c hc
  cases m with
  | numeric => simpa [carries] using hnum rfl c hc
  | alphanumeric => simp [carries, alnumValue_of_mem (haln rfl c hc)]
  | byte => rfl
  | kanji => exact absurd rfl hm

/-- Settles O33: every check of BAPP and of BSEG passes, and the payloads are read group by group. -/
theorem segmentCommandsComplete : Obligations.SegmentCommandsComplete := by
  refine ⟨fun s m rs1 rs2 hs => ⟨fun h32 hv hroom => ?_, fun ch hch hver hm h1 hrun hcc hnum haln hroom => ?_⟩,
    fun ch d hd _ => ?_, by decide, fun ch a ha hmem => ?_, getD_bytePayload⟩
  · calc exec (.bapp rs1 rs2) s
      _ = runCommand (.bapp rs1 rs2) s _ := rfl
      _ = _ := runCommand_bind_ok (require_pos hs _)
      _ = _ := runCommand_bind_ok (natUpTo_eq_ok.2 ⟨h32, rfl⟩)
      _ = _ := runCommand_bind_ok (require_pos (.inr hv) _)
      _ = _ := runCommand_bind_ok (require_pos hroom _)
  · subst hch
    calc exec (.bseg m rs1 rs2) s
      _ = runCommand (.bseg m rs1 rs2) s _ := rfl
      _ = _ := runCommand_bind_ok (require_pos hver _)
      _ = _ := runCommand_bind_ok (require_pos hs _)
      _ = _ := runCommand_bind_ok (require_pos hm _)
      _ = _ := runCommand_bind_ok (require_pos h1 _)
      _ = _ := runCommand_bind_ok (require_pos hrun _)
      _ = _ := runCommand_bind_ok (require_pos hcc _)
      _ = _ := runCommand_bind_ok (require_pos (all_carries hm hnum haln) _)
      _ = _ := runCommand_bind_ok (require_pos hroom _)
      _ = _ := by cases m <;> rfl
  · have hdigit : ∀ i, digitValue (ch.getD i 0) = d i := fun i => (hd i).symm
    refine ⟨fun k j h hj => ?_, fun k j h hj => ?_, fun k j h hj => ?_⟩
    · rw [getD_numericPayload_three ch k j h hj, hdigit, hdigit, hdigit]
    · rw [getD_numericPayload_two ch k j h hj, hdigit, hdigit]
    · rw [getD_numericPayload_one ch k j h hj, hdigit]
  · have hsymbol : ∀ i, i < ch.length → alnumOf (ch.getD i 0) = a i := by
      intro i hi
      have hin : ch.getD i 0 ∈ ch := List.getElem_eq_getD (h := hi) 0 ▸ List.getElem_mem hi
      rw [ha, alnumOf, alnumValue_of_mem (hmem _ hin), Option.getD_some]
    refine ⟨fun k j h hj => ?_, fun k j h hj => ?_⟩
    · rw [getD_alnumPayload_two ch k j h hj, hsymbol _ (by omega), hsymbol _ h]
    · rw [getD_alnumPayload_one ch k j h hj, hsymbol _ (by omega)]

/-! ### BFLUSH -/

/-- The number whose bits, least significant first, are a list's. -/
theorem testBit_foldr_bits (bs : List Bool) (i : Nat) :
    (bs.foldr (fun (b : Bool) acc => 2 * acc + b.toNat) 0).testBit i = bs.getD i false := by
  induction bs generalizing i with
  | nil => exact Nat.zero_testBit i
  | cons b bs ih =>
    rw [List.foldr_cons]
    cases i with
    | zero =>
      rw [Nat.testBit_zero, Nat.mul_add_mod]
      cases b <;> rfl
    | succ i =>
      have hb := b.toNat_lt
      have half : ∀ n, (2 * n + b.toNat) / 2 = n := fun n => by omega
      rw [Nat.testBit_add_one, half, ih, List.getD_cons_succ]

/-- The number that a list of bits makes, most significant first, has those bits. -/
theorem testBit_foldl_bits {bs : List Bool} {i : Nat} (h : i < bs.length) :
    (bs.foldl (fun acc (b : Bool) => 2 * acc + b.toNat) 0).testBit i = bs.getD (bs.length - 1 - i) false := by
  have reversed := testBit_foldr_bits bs.reverse i
  rwa [List.foldr_reverse, List.getD_eq_getElem?_getD, List.getElem?_reverse h, ← List.getD_eq_getElem?_getD] at reversed

/-- The eight bits of codeword `k` of a buffer, zero past its end (R169). -/
def codewordBits (bs : List Bool) (k : Nat) : List Bool :=
  ((bs.drop (8 * k)).take 8 ++ List.replicate (8 * k + 8 - bs.length) false).take 8

theorem length_codewordBits (bs : List Bool) (k : Nat) : (codewordBits bs k).length = 8 := by
  simp [codewordBits]
  omega

theorem getD_codewordBits (bs : List Bool) (k : Nat) {j : Nat} (hj : j < 8) :
    (codewordBits bs k).getD j false = bs.getD (8 * k + j) false := by
  simp only [codewordBits, List.getD_eq_getElem?_getD, List.getElem?_take_of_lt hj, List.getElem?_append,
    List.getElem?_drop, List.length_take, List.length_drop]
  split
  · rfl
  · rw [List.getElem?_eq_none (l := bs) (by omega), List.getElem?_replicate]
    split <;> rfl

/-- Bit `8k + j` of the buffer is bit `7 - j` of codeword `k`, zero past the end (R169). -/
theorem getLsbD_codewordAt (bs : List Bool) (k : Nat) {j : Nat} (hj : j < 8) :
    (codewordAt bs k).getLsbD (7 - j) = bs.getD (8 * k + j) false := by
  have number : codewordAt bs k = BitVec.ofNat 8 ((codewordBits bs k).foldl (fun acc b => 2 * acc + b.toNat) 0) := rfl
  have inside : 7 - j < (codewordBits bs k).length := by
    rw [length_codewordBits]
    omega
  have low : 7 - j < 8 := Nat.lt_of_le_of_lt (Nat.sub_le ..) (by decide)
  have mirrored : (codewordBits bs k).length - 1 - (7 - j) = j := by
    rw [length_codewordBits]
    omega
  rw [number, BitVec.getLsbD_ofNat, testBit_foldl_bits inside, mirrored, getD_codewordBits _ _ hj,
    decide_eq_true low, Bool.true_and]

/-- Settles O35: the codewords are stored as one run from address 0. -/
theorem bflushStoresCodewords : Obligations.BflushStoresCodewords := by
  intro s h
  obtain ⟨⟨-, ⟨hwf, -⟩, -⟩, -⟩ := h
  refine ⟨s.dcw.writeAll 0 (codewords s.bb), rfl, fun k j hk hj => ?_, fun b hb => ?_⟩
  · rw [Memory.read_writeAll hwf, if_pos ⟨Nat.zero_le k, by simpa using hk⟩]
    have stored : (codewords s.bb).getD (k - 0) 0 = codewordAt s.bb k := by
      simp [codewords, List.getD_eq_getElem?_getD, hk]
    rw [stored, getLsbD_codewordAt _ _ hj]
  · rw [Memory.read_writeAll hwf, if_neg fun hn => ?_]
    have := hn.2
    rw [length_codewords] at this
    omega

end Sys2Proof.Machine
end

/-! # LDB, STB, PLD and PST on the byte memories, and the frame of the memories (R60 to R67, R120, R121, R265, R266) -/

section
namespace Sys2Proof.Machine

section
variable {s : State} {sp : Space} {n : Nat}

/-! ### Spaces and checks -/

/-- The number of addresses of an accepted space is its limit. -/
theorem limit_of_ramSize (h : RamSize sp n) : Space.limit sp = some n := by
  obtain ⟨rfl, rfl⟩ | ⟨rfl | rfl, rfl⟩ := h <;> rfl

theorem ramLimit_of_ramSize (h : RamSize sp n) : ramLimit sp = .ok n := ramLimit_eq_ok.2 (limit_of_ramSize h)

theorem MemoriesOk.ram_wf (h : MemoriesOk s) (sp : Space) : (ram s sp).wf := by
  obtain ⟨⟨hinp, -⟩, ⟨hdcw, -⟩, ⟨hfcw, -⟩⟩ := h
  cases sp with
  | inp => exact hinp
  | dcw => exact hdcw
  | fcw => exact hfcw
  | exp | log | mat | bb => exact ⟨.nil, nofun⟩

theorem require_bind_pos {c : Prop} [Decidable c] {α : Type} {e : ErrCode} {k : Unit → Except ErrCode α} (h : c) :
    (require c e >>= k) = k () := by rw [require_bind, if_pos h]

theorem require_bind_neg {c : Prop} [Decidable c] {α : Type} {e : ErrCode} {k : Unit → Except ErrCode α} (h : ¬c) :
    (require c e >>= k) = .error e := by rw [require_bind, if_neg h]

/-- An operand or an access that is not accepted makes the command fault. -/
theorem runCommand_bind_error {i : Instr} {α : Type} {r : Except ErrCode α} {k : α → Except ErrCode State} {e : ErrCode}
    (h : r = .error e) : runCommand i s (r >>= k) = .next (enterFault e (encode i) s) := by
  rw [h]
  rfl

/-- A command whose effect is one memory replaced counts on from the count before it. -/
theorem runCommand_setRam (i : Instr) (s : State) (sp : Space) (m : Memory) :
    runCommand i s (.ok (setRam s sp m)) = .next { setRam s sp m with cmdcnt := s.cmdcnt + 1 } := by
  rw [runCommand_ok, complete, setRam_cmdcnt]

end

/-! ### Stores -/

/-- Settles O54: both checks of STB pass, and the write is read back. -/
theorem stbStoresOneByte : Obligations.StbStoresOneByte := by
  intro s sp limit rs1 rs2 hsp hmem ha hv
  refine ⟨(ram s sp).write (readX s rs1).toNat ((readX s rs2).setWidth 8), ?_, Memory.read_write (hmem.ram_wf sp) _ _⟩
  calc exec (.stb sp rs1 rs2) s
    _ = runCommand (.stb sp rs1 rs2) s _ := rfl
    _ = _ := runCommand_bind_ok (ramLimit_of_ramSize hsp)
    _ = _ := runCommand_bind_ok (require_pos ha _)
    _ = _ := runCommand_bind_ok (fieldElement_eq_ok.2 ⟨hv, rfl⟩)
    _ = _ := congrArg _ (memWrite_eq_ok.2 ⟨limit, limit_of_ramSize hsp, ha, rfl⟩)
    _ = _ := runCommand_setRam ..

/-- Settles O22: the checks of PLD and of PST pass; a run read is `Memory.readAll`, and a run written is read back. -/
theorem polyMemoryCommandsComplete : Obligations.PolyMemoryCommandsComplete := by
  intro s sp limit k rs1 rs2 hsp
  refine ⟨fun h1 h4096 hrun => ?_, fun hmem hrun => ?_⟩
  · calc exec (.pld k sp rs1 rs2) s
      _ = runCommand (.pld k sp rs1 rs2) s _ := rfl
      _ = _ := runCommand_bind_ok (ramLimit_of_ramSize hsp)
      _ = _ := runCommand_bind_ok (require_pos ⟨h1, h4096⟩ _)
      _ = _ := runCommand_bind_ok (require_pos hrun _)
  · refine ⟨(ram s sp).writeAll (readX s rs1).toNat (readP s k), ?_, Memory.read_writeAll (hmem.ram_wf sp) _ _⟩
    calc exec (.pst k sp rs1) s
      _ = runCommand (.pst k sp rs1) s _ := rfl
      _ = _ := runCommand_bind_ok (ramLimit_of_ramSize hsp)
      _ = _ := runCommand_bind_ok (require_pos hrun _)
      _ = _ := runCommand_setRam ..

/-! ### The frame of the memories -/

/-- The space IN, DCW or FCW that a command other than CLEAR writes (R61). -/
def destRam : Instr → Option Space
  | .stb sp .. | .pst _ sp _ => some sp
  | .bflush => some .dcw
  | .rsenc => some .fcw
  | .gfadd .. | .gfmul .. | .gfdiv .. | .gfpow .. | .gfexp .. | .gflog .. => none
  | .pld .. | .pmov .. | .pdeg .. | .padd .. | .pmul .. | .pscl .. | .peval .. => none
  | .rsgen .. | .rsrem .. | .rssyn .. => none
  | .bapp .. | .bseg .. | .bterm | .balign | .bpad => none
  | .minit | .mfind | .mtime | .malign | .mrsv | .mdata | .mmask .. | .mpen .. | .msel => none
  | .ifmt | .iver | .bchf .. | .bchv .. => none
  | .nop | .halt | .clear | .ldi .. | .mov .. | .ldb .. | .csrr .. | .csrw .. => none

theorem ram_setRam_other (s : State) {sp target : Space} (m : Memory) (h : target ≠ sp) :
    ram (setRam s target m) sp = ram s sp := by
  cases sp with
  | inp => exact (setRam_inp ..).trans (if_neg h)
  | dcw => exact (setRam_dcw ..).trans (if_neg h)
  | fcw => exact (setRam_fcw ..).trans (if_neg h)
  | exp | log | mat | bb => rfl

/-- A completing command but CLEAR writes no byte memory but its target (R61). -/
theorem Effect.ram_frame {i : Instr} {s u : State} (h : Effect s u i) (hi : i ≠ .clear) {sp : Space}
    (hsp : destRam i ≠ some sp) : ram u sp = ram s sp := by
  have other {target : Space} (ht : destRam i = some target) (m : Memory) : ram (setRam s target m) sp = ram s sp :=
    ram_setRam_other s m fun e => hsp (e ▸ ht)
  cases i with
  | pst =>
    obtain ⟨n, -, -, rfl⟩ := h
    exact other rfl _
  | stb =>
    obtain ⟨n, v, -, -, rfl⟩ := h
    exact other rfl _
  | rsenc =>
    obtain ⟨out, -, -, -, rfl⟩ := h
    exact other rfl _
  | bflush =>
    subst h
    exact other rfl _
  | gfadd | gfmul | gfdiv | gfpow | gfexp | gflog | pdeg | peval | bchf | bchv | ldi | mov | ldb | csrr =>
    obtain ⟨v, rfl⟩ := h
    rfl
  | pld | rsgen | pscl | pmul | rsrem =>
    obtain ⟨l, rfl, -⟩ := h
    rfl
  | pmov | padd | nop | halt =>
    subst h
    rfl
  | rssyn =>
    obtain ⟨v, l, rfl, -⟩ := h
    rfl
  | bapp =>
    obtain ⟨bs, -, -, rfl⟩ := h
    rfl
  | minit =>
    obtain ⟨-, -, rfl⟩ := h
    rfl
  | bseg | bterm =>
    obtain ⟨-, -, -, -, rfl⟩ := h
    rfl
  | balign | bpad | mfind | mtime | malign | mrsv | msel | ifmt =>
    obtain ⟨-, rfl⟩ := h
    rfl
  | mdata =>
    obtain ⟨-, -, ws, rfl⟩ := h
    rfl
  | mmask =>
    obtain ⟨-, k, -, rfl⟩ := h
    rfl
  | mpen =>
    obtain ⟨-, v, rfl⟩ := h
    rfl
  | iver =>
    obtain ⟨-, ws, w, rfl⟩ := h
    rfl
  | csrw =>
    obtain ⟨-, -, -, -, rfl⟩ | ⟨-, -, -, rfl⟩ | ⟨-, -, rfl⟩ | ⟨-, -, rfl⟩ := h <;> rfl
  | clear => exact absurd rfl hi

/-- The commands that write a space are the four of R61. -/
theorem eq_of_destRam {i : Instr} {sp : Space} (h : destRam i = some sp) :
    (∃ r r', i = .stb sp r r') ∨ (∃ k r, i = .pst k sp r) ∨ (i = .bflush ∧ sp = .dcw) ∨ (i = .rsenc ∧ sp = .fcw) := by
  cases i with
  | stb =>
    cases h
    exact .inl ⟨_, _, rfl⟩
  | pst =>
    cases h
    exact .inr (.inl ⟨_, _, rfl⟩)
  | bflush =>
    cases h
    exact .inr (.inr (.inl ⟨rfl, rfl⟩))
  | rsenc =>
    cases h
    exact .inr (.inr (.inr ⟨rfl, rfl⟩))
  | _ => cases h

/-- No command but CLEAR and the writers of a space changes the space, whether it completes or faults (R61, R71). -/
theorem exec_ram_frame {i : Instr} {s t : State} (h : exec i s = .next t) (hi : i ≠ .clear) {sp : Space}
    (hstb : ∀ r r', i ≠ .stb sp r r') (hpst : ∀ k r, i ≠ .pst k sp r) (hbflush : sp = .dcw → i ≠ .bflush)
    (hrsenc : sp = .fcw → i ≠ .rsenc) : ram t sp = ram s sp := by
  obtain ⟨e, rfl⟩ | ⟨u, rfl, hu⟩ := exec_inversion h
  · rfl
  · refine hu.ram_frame hi fun hdest => ?_
    obtain ⟨r, r', rfl⟩ | ⟨k, r, rfl⟩ | ⟨rfl, rfl⟩ | ⟨rfl, rfl⟩ := eq_of_destRam hdest
    · exact hstb r r' rfl
    · exact hpst k r rfl
    · exact hbflush rfl rfl
    · exact hrsenc rfl rfl

/-- Settles O58: each byte memory by its own frame, the matrix by the frame of a completing command. -/
theorem memoryFrame : Obligations.MemoryFrame := by
  intro s t i h hi
  refine ⟨fun hstb hpst a => ?_, fun hstb hpst hbflush a => ?_, fun hstb hpst hrsenc a => ?_, fun hw => ?_⟩
  · exact congrArg (Memory.read · a) (exec_ram_frame (sp := .inp) h hi hstb hpst nofun nofun)
  · exact congrArg (Memory.read · a) (exec_ram_frame (sp := .dcw) h hi hstb hpst (fun _ => hbflush) nofun)
  · exact congrArg (Memory.read · a) (exec_ram_frame (sp := .fcw) h hi hstb hpst nofun fun _ => hrsenc)
  · obtain ⟨e, rfl⟩ | ⟨u, rfl, hu⟩ := exec_inversion h
    · rfl
    · exact (hu.frame hi).mat hw

end Sys2Proof.Machine
end

/-! # A step of the running engine; LDB, and the faults of LDB, STB and CSRW (R64, R66, R74, R240, R265 to R269) -/

section
namespace Sys2Proof.Machine

/-! ### The running engine -/

theorem command_of_decode {s : State} {cw : Word} {i : Instr} (hr : Running s) (hd : decode cw = .ok i) :
    command cw s = exec i s := by
  simp only [command, stopped_eq_false_iff.2 hr, hd, Bool.false_eq_true, if_false]

theorem decode_of_decodeTableWord {nbits w : Nat} {i : Instr} (h : decodeTableWord nbits w = some i) :
    decode (BitVec.ofNat 32 (w % 2 ^ nbits)) = .ok i := by
  unfold decodeTableWord at h
  cases hd : decode (BitVec.ofNat 32 (w % 2 ^ nbits)) with
  | ok j =>
    rw [hd] at h
    cases h
    rfl
  | error why =>
    rw [hd] at h
    cases h

/-- Settles O4: the next transaction is a command word, and the running engine executes what it decodes to. -/
theorem stepRunsDecodedCommand : Obligations.StepRunsDecodedCommand := by
  have executed (s : State) (cw : Word) (rest : List HostTx) (i : Instr) (hp : s.pending = .command cw :: rest)
      (hr : Running s) (hd : decode cw = .ok i) : step s = exec i { s with pending := rest, reply := .noData } :=
    (step_of_pending hp).trans (command_of_decode hr hd)
  exact ⟨executed, fun s w i hr hd => executed (s.withFetchWord 32 w) _ s.pending i rfl hr (decode_of_decodeTableWord hd)⟩

/-! ### LDB -/

section
variable {s : State} {sp : Space} {rd rs1 : XReg}

theorem exec_ldb_of_ok {v : Byte} (h : memRead s sp (readX s rs1).toNat = .ok v) :
    exec (.ldb rd sp rs1) s = .next { writeX s rd v.zext with cmdcnt := s.cmdcnt + 1 } :=
  runCommand_bind_ok h

theorem exec_ldb_of_error {e : ErrCode} (h : memRead s sp (readX s rs1).toNat = .error e) :
    exec (.ldb rd sp rs1) s = .next { s with fault := some e, errcmd := encode (.ldb rd sp rs1) } :=
  runCommand_bind_error h

/-- An address 1..255 of LOG holds the exponent that EXP takes back to it (R34). -/
theorem exists_romLog_of_range {a : Nat} (h1 : 1 ≤ a) (h255 : a ≤ 255) :
    ∃ i, i ≤ 254 ∧ romLog (BitVec.ofNat 8 a) = some i ∧ (romExp i).toNat = a := by
  have hnat : (BitVec.ofNat 8 a).toNat = a := by
    rw [BitVec.toNat_ofNat]
    omega
  have hne : BitVec.ofNat 8 a ≠ 0 := fun h0 => by
    rw [h0] at hnat
    exact absurd hnat (Nat.ne_of_lt h1)
  obtain ⟨i, hi, hlog, hexp⟩ := exists_romLog _ hne
  exact ⟨i, Nat.le_of_lt_succ hi, hlog, hexp ▸ hnat⟩

theorem memRead_log_of_romLog {a i : Nat} (h1 : 1 ≤ a) (h255 : a ≤ 255) (hlog : romLog (BitVec.ofNat 8 a) = some i) :
    memRead s .log a = .ok (BitVec.ofNat 8 i) := by
  rw [memRead, require_bind_pos (Nat.ne_of_gt h1), require_bind_pos h255, hlog]

theorem zext_ofNat {i : Nat} (h : i ≤ 254) : Byte.zext (BitVec.ofNat 8 i) = BitVec.ofNat 32 i := by
  apply BitVec.eq_of_toNat_eq
  simp only [BitVec.toNat_setWidth, BitVec.toNat_ofNat]
  omega

theorem memRead_bb {a : Nat} (h : a < s.bb.length) : memRead s .bb a = .ok (if s.bb[a] then 1 else 0) := by
  rw [List.getElem_eq_getD false]
  exact require_bind_pos h

end

/-- Settles O53: every space's own check passes; LOG and BB hold a number and a bit. -/
theorem ldbReadsEverySpace : Obligations.LdbReadsEverySpace := by
  rintro s rd rs1 _ rfl
  refine ⟨fun h => exec_ldb_of_ok (require_bind_pos h),
    fun h => ⟨exec_ldb_of_ok (require_bind_pos h), exec_ldb_of_ok (require_bind_pos h)⟩,
    fun h => exec_ldb_of_ok (require_bind_pos h), fun h1 h255 => ?_, fun h => exec_ldb_of_ok (require_bind_pos h),
    fun h => ?_⟩
  · obtain ⟨i, hi, hlog, hexp⟩ := exists_romLog_of_range h1 h255
    refine ⟨i, hi, hexp, ?_⟩
    rw [exec_ldb_of_ok (memRead_log_of_romLog h1 h255 hlog), zext_ofNat hi]
  · rw [exec_ldb_of_ok (memRead_bb h)]
    cases s.bb[(readX s rs1).toNat] <;> rfl

/-! ### Faults -/

theorem memRead_ram_error {s : State} {sp : Space} {n a : Nat} (hsp : RamSize sp n) (h : n ≤ a) :
    memRead s sp a = .error .rangeError := by
  obtain ⟨rfl, rfl⟩ | ⟨rfl | rfl, rfl⟩ := hsp <;> exact require_bind_neg (by omega)

/-- `window()` tests that the bit buffer is empty, by its length (R269). -/
theorem writeWindow_iff {s : State} : writeWindow s ↔ s.phase = 0 ∧ s.bb = [] ∧ s.flen = 0 := by
  simp only [writeWindow, bbLen, List.length_eq_zero_iff]

/-- Settles O55: each fault is the first check that fails. -/
theorem systemCommandsFault : Obligations.SystemCommandsFault := by
  intro s rd rs1 rs2 sp limit
  refine ⟨fun hsp h => exec_ldb_of_error (memRead_ram_error hsp h),
    fun h => exec_ldb_of_error (require_bind_neg (Nat.not_le.2 h)), fun h => exec_ldb_of_error ?_,
    fun h => exec_ldb_of_error (require_bind_neg ?_), fun h => exec_ldb_of_error (require_bind_neg (Nat.not_lt.2 h)),
    fun h => exec_ldb_of_error (require_bind_neg (Nat.not_lt.2 h)), fun hsp h => ?_, fun h => ?_,
    fun hp hb hf => ?_, fun h => ⟨runCommand_require_neg (Nat.not_le.2 h), runCommand_require_neg (Nat.not_le.2 h)⟩⟩
  · have nonzero : (readX s rs1).toNat ≠ 0 := by omega
    exact (require_bind_pos nonzero).trans (require_bind_neg (Nat.not_le.2 h))
  · rw [h]
    decide
  · refine (runCommand_bind_ok (ramLimit_of_ramSize hsp)).trans ?_
    by_cases ha : (readX s rs1).toNat < limit
    · have hv : ¬(readX s rs2).toNat ≤ 255 := Nat.not_le.2 (h.resolve_left (Nat.not_le.2 ha))
      exact (runCommand_bind_ok (require_pos ha _)).trans (runCommand_bind_error (fieldElement_eq_error.2 ⟨hv, rfl⟩))
    · exact runCommand_require_neg ha
  · have closed : ¬writeWindow s := fun hw => by
      obtain ⟨hphase, hbb, hflen⟩ := writeWindow_iff.1 hw
      exact h.elim (absurd hphase) fun h => h.elim (absurd hbb) (absurd hflen)
    exact ⟨runCommand_require_neg closed, runCommand_require_neg closed⟩
  · have opened : writeWindow s := writeWindow_iff.2 ⟨hp, hb, hf⟩
    refine ⟨fun h => (runCommand_bind_ok (require_pos opened _)).trans (runCommand_require_neg ?_),
      fun h => (runCommand_bind_ok (require_pos opened _)).trans (runCommand_require_neg (Nat.not_le.2 h))⟩
    rintro ⟨h1, h40⟩
    obtain h0 | h41 := h
    · rw [h0] at h1
      cases h1
    · omega

end Sys2Proof.Machine
end

/-! # The command word: decode and encode agree, and what an illegal word does (R81 to R91, R284) -/

section
namespace Sys2Proof.Laws.Opcode

/-- The family put together: the opcode byte of every command's word is the opcode map's. -/
theorem opcode_encode : ∀ i : Instr, bits (encode i) 31 24 = table i
  | .gfadd .. => gfadd .. | .gfmul .. => gfmul .. | .gfdiv .. => gfdiv .. | .gfpow .. => gfpow ..
  | .gfexp .. => gfexp .. | .gflog .. => gflog ..
  | .pld .. => pld .. | .pst .. => pst .. | .pmov .. => pmov .. | .pdeg .. => pdeg .. | .padd .. => padd ..
  | .pmul .. => pmul .. | .pscl .. => pscl .. | .peval .. => peval ..
  | .rsgen .. => rsgen .. | .rsrem .. => rsrem .. | .rsenc => rsenc | .rssyn .. => rssyn ..
  | .bapp .. => bapp .. | .bseg .. => bseg .. | .bterm => bterm | .balign => balign | .bpad => bpad | .bflush => bflush
  | .minit => minit | .mfind => mfind | .mtime => mtime | .malign => malign | .mrsv => mrsv | .mdata => mdata
  | .mmask .. => mmask .. | .mpen .. => mpen .. | .msel => msel
  | .ifmt => ifmt | .iver => iver | .bchf .. => bchf .. | .bchv .. => bchv ..
  | .nop => nop | .halt => halt | .clear => clear | .ldi .. => ldi .. | .mov .. => mov .. | .ldb .. => ldb ..
  | .stb .. => stb .. | .csrr .. => csrr .. | .csrw .. => csrw ..

end Sys2Proof.Laws.Opcode
end

section
namespace Sys2Proof

/-! ### The fields of a word as numbers (R81) -/

@[simp] theorem val_fieldRd (cw : Word) : (fieldRd cw).val = bits cw 23 20 :=
  Nat.mod_eq_of_lt (Nat.mod_lt _ (by decide))

@[simp] theorem val_fieldRs1 (cw : Word) : (fieldRs1 cw).val = bits cw 19 16 :=
  Nat.mod_eq_of_lt (Nat.mod_lt _ (by decide))

@[simp] theorem val_fieldRs2 (cw : Word) : (fieldRs2 cw).val = bits cw 15 12 :=
  Nat.mod_eq_of_lt (Nat.mod_lt _ (by decide))

@[simp] theorem val_fieldPd (cw : Word) : (fieldPd cw).val = bits cw 11 10 :=
  Nat.mod_eq_of_lt (Nat.mod_lt _ (by decide))

@[simp] theorem val_fieldPa (cw : Word) : (fieldPa cw).val = bits cw 9 8 :=
  Nat.mod_eq_of_lt (Nat.mod_lt _ (by decide))

@[simp] theorem val_fieldPb (cw : Word) : (fieldPb cw).val = bits cw 7 6 :=
  Nat.mod_eq_of_lt (Nat.mod_lt _ (by decide))

@[simp] theorem toNat_fieldImm16 (cw : Word) : (fieldImm16 cw).toNat = bits cw 15 0 :=
  Nat.mod_eq_of_lt (Nat.mod_lt _ (by decide))

/-! ### Packed words -/

/-- A slice below bit `w` depends on the low `w` bits only. -/
theorem slice_mod_two_pow (n : Nat) {w hi lo : Nat} (h : hi < w) :
    n % 2 ^ w / 2 ^ lo % 2 ^ (hi + 1 - lo) = n / 2 ^ lo % 2 ^ (hi + 1 - lo) := by
  apply Nat.eq_of_testBit_eq
  intro k
  simp only [Nat.testBit_mod_two_pow, Nat.testBit_div_two_pow]
  by_cases hk : k < hi + 1 - lo
  · simp only [show k + lo < w by omega, decide_true, Bool.true_and]
  · simp only [hk, decide_false, Bool.false_and]

/-- A slice of a packed word below its opcode. -/
theorem bits_pack (op rd rs1 low lo : Nat) {hi : Nat} (h : hi < 24) :
    bits (pack op rd rs1 low) hi lo = (rd * 2 ^ 20 + rs1 * 2 ^ 16 + low) / 2 ^ lo % 2 ^ (hi + 1 - lo) := by
  have low24 : (pack op rd rs1 low).toNat % 2 ^ 24 = (rd * 2 ^ 20 + rs1 * 2 ^ 16 + low) % 2 ^ 24 := by
    simp only [pack, BitVec.toNat_ofNat]
    omega
  rw [bits, ← slice_mod_two_pow _ h, low24, slice_mod_two_pow _ h]

/-- A word is determined by its opcode, its two upper fields and its low half. -/
theorem pack_eq_of_fields {cw : Word} {op rd rs1 low : Nat} (hop : bits cw 31 24 = op) (hrd : bits cw 23 20 = rd)
    (hrs1 : bits cw 19 16 = rs1) (hlow : bits cw 15 0 = low) : pack op rd rs1 low = cw := by
  subst hop hrd hrs1 hlow
  have sum : bits cw 31 24 * 2 ^ 24 + bits cw 23 20 * 2 ^ 20 + bits cw 19 16 * 2 ^ 16 + bits cw 15 0 = cw.toNat := by
    simp only [bits]
    omega
  rw [pack, sum, BitVec.ofNat_toNat, BitVec.setWidth_eq]

/-! ### Restricted numbers (R86, R268) -/

theorem Space.ofRamNumber_number (sp : Space) :
    Space.ofRamNumber sp.number = if sp.isRam then some sp else none := by
  rw [Space.ofRamNumber, Space.ofNumber_number, Option.filter_some]

theorem Space.number_of_ofRamNumber {n : Nat} {sp : Space} (h : Space.ofRamNumber n = some sp) : sp.number = n :=
  Space.number_of_ofNumber (Option.filter_eq_some_iff.1 h).1

theorem Csr.ofWritableNumber_number (c : Csr) :
    Csr.ofWritableNumber c.number = if c.isWritable then some c else none := by
  rw [Csr.ofWritableNumber, Csr.ofNumber_number, Option.filter_some]

theorem Csr.number_of_ofWritableNumber {n : Nat} {c : Csr} (h : Csr.ofWritableNumber n = some c) : c.number = n :=
  Csr.number_of_ofNumber (Option.filter_eq_some_iff.1 h).1

/-! ### Decoding an encoding -/

theorem whenZero_of_bits {cw : Word} {zero : List (Nat × Nat)} (h : ∀ z ∈ zero, bits cw z.1 z.2 = 0)
    (r : Except Illegal Instr) : whenZero cw zero r = r :=
  if_pos (List.all_eq_true.2 fun z hz => beq_iff_eq.2 (h z hz))

/-- Where the word holds the number `m` of the operand `a`, the command is read if its numbering accepts `a`. -/
theorem orIllegal_of_number {α : Type} {of : Nat → Option α} {f : α → Instr} {why : Illegal} {n m : Nat} {ok : Bool}
    {a : α} {i : Instr} (hn : n = m) (ha : of m = if ok then some a else none) (hf : f a = i) :
    orIllegal ((of n).map f) why = if ok then .ok i else .error why := by
  subst hn hf
  rw [ha]
  cases ok <;> rfl

/-- Why the word of a command that is not well-formed is illegal: CSRW names a CSR that is read-only, STB, PLD and PST a
space they do not accept (R86, R87). -/
def Instr.refusal : Instr → Illegal
  | .csrw .. => .csr
  | _ => .selector

/-- In the arm of the command's opcode, the must-be-zero bits of its word are zero and the fields are its operands; the
arms with a space, mode or CSR read its number back. The word is kept apart from `encode i` until the arm is chosen. -/
theorem decode_of_encode_eq {i : Instr} {cw : Word} (h : encode i = cw) :
    decode cw = if i.wellFormed then .ok i else .error i.refusal := by
  have op : bits cw 31 24 = Laws.Opcode.table i := h ▸ Laws.Opcode.opcode_encode i
  unfold decode
  rw [op]
  cases i
  case' pld sp _ _ | pst sp _ | stb sp _ _ =>
    have number := sp.number_le
    refine (whenZero_of_bits ?_ _).trans (orIllegal_of_number ?_ sp.ofRamNumber_number ?_)
  case' ldb sp _ =>
    have number := sp.number_le
    refine (whenZero_of_bits ?_ _).trans (orIllegal_of_number (ok := true) ?_ sp.ofNumber_number ?_)
  case' bseg mode _ _ =>
    have number := mode.number_le
    refine (whenZero_of_bits ?_ _).trans (orIllegal_of_number (ok := true) ?_ mode.ofNumber_number ?_)
  case' csrr c =>
    have number := c.number_lt
    refine (whenZero_of_bits ?_ _).trans (orIllegal_of_number (ok := true) ?_ c.ofNumber_number ?_)
  case' csrw c _ =>
    have number := c.number_lt
    refine (whenZero_of_bits ?_ _).trans (orIllegal_of_number ?_ c.ofWritableNumber_number ?_)
  case' gfadd | gfmul | gfdiv | gfpow | gfexp | gflog | pmov | pdeg | padd | pmul | pscl | peval | rsgen | rsrem | rsenc
      | rssyn | bapp | bterm | balign | bpad | bflush | minit | mfind | mtime | malign | mrsv | mdata | mmask | mpen
      | msel | ifmt | iver | bchf | bchv | nop | halt | clear | ldi | mov =>
    refine (whenZero_of_bits ?_ _).trans (congrArg Except.ok ?_)
  all_goals
    subst h
    simp [encode, packLow, bits_pack, Fin.ext_iff, ← BitVec.toNat_inj] <;> omega

theorem decode_encode (i : Instr) : decode (encode i) = if i.wellFormed then .ok i else .error i.refusal :=
  decode_of_encode_eq rfl

/-! ### Encoding a decoding -/

/-- The opcodes of the 46 commands (R91). -/
def assignedOpcodes : List Nat :=
  [0x00, 0x01, 0x02, 0x03, 0x04, 0x05, 0x06, 0x07, 0x08, 0x10, 0x11, 0x12, 0x13, 0x14, 0x15, 0x20, 0x21, 0x22,
   0x23, 0x24, 0x25, 0x26, 0x27, 0x30, 0x31, 0x32, 0x33, 0x40, 0x41, 0x42, 0x43, 0x44, 0x45, 0x50, 0x51, 0x52,
   0x53, 0x54, 0x55, 0x56, 0x57, 0x58, 0x60, 0x61, 0x62, 0x63]

/-- What the arm of an assigned opcode may answer of the word `cw`: a command whose word is `cw`, or an illegality of a
later step of R90. -/
def Faithful (cw : Word) : Except Illegal Instr → Prop
  | .ok i => encode i = cw
  | .error why => why ≠ .opcode

theorem faithful_whenZero {cw : Word} {zero : List (Nat × Nat)} {r : Except Illegal Instr}
    (h : (∀ z ∈ zero, bits cw z.1 z.2 = 0) → Faithful cw r) : Faithful cw (whenZero cw zero r) := by
  unfold whenZero
  split
  next hz => exact h fun z hmem => beq_iff_eq.1 (List.all_eq_true.1 hz z hmem)
  next => exact nofun

theorem faithful_orIllegal {α : Type} {cw : Word} {o : Option α} {f : α → Instr} {why : Illegal}
    (hwhy : why ≠ .opcode) (h : ∀ a, o = some a → encode (f a) = cw) : Faithful cw (orIllegal (o.map f) why) := by
  cases o with
  | none => exact hwhy
  | some a => exact h a rfl

/-- A word has an unassigned opcode, or the arm of its opcode answers faithfully: the fields read and the bits that are
zero make up the whole word (R81, R90). -/
theorem decode_cases (cw : Word) :
    bits cw 31 24 ∉ assignedOpcodes ∧ decode cw = .error .opcode ∨
    bits cw 31 24 ∈ assignedOpcodes ∧ Faithful cw (decode cw) := by
  unfold decode
  split
  case h_47 =>
    refine .inl ⟨?_, rfl⟩
    simp only [assignedOpcodes, List.mem_cons, List.not_mem_nil, or_false, not_or]
    and_intros <;> assumption
  all_goals
    rename_i op
    refine .inr ⟨by rw [op]; decide, faithful_whenZero fun zeros => ?_⟩
  case' h_6 => -- LDB
    refine faithful_orIllegal (by decide) fun sp hsp => ?_
    rw [encode, Space.number_of_ofNumber hsp]
  case' h_7 | h_16 | h_17 => -- STB, PLD, PST
    refine faithful_orIllegal (by decide) fun sp hsp => ?_
    rw [encode, Space.number_of_ofRamNumber hsp]
  case' h_8 => -- CSRR
    refine faithful_orIllegal (by decide) fun c hc => ?_
    rw [encode, Csr.number_of_ofNumber hc]
  case' h_9 => -- CSRW
    refine faithful_orIllegal (by decide) fun c hc => ?_
    rw [encode, Csr.number_of_ofWritableNumber hc]
  case' h_29 => -- BSEG
    refine faithful_orIllegal (by decide) fun mode hmode => ?_
    rw [encode, Mode.number_of_ofNumber hmode]
  all_goals
    simp only [List.forall_mem_cons, List.not_mem_nil, false_imp_iff, implies_true, and_true, bits, Nat.reduceAdd,
      Nat.reduceSub, Nat.reducePow] at zeros
    refine pack_eq_of_fields op ?_ ?_ ?_ <;> simp [packLow, bits] <;> omega

theorem encode_of_decode {cw : Word} {i : Instr} (h : decode cw = .ok i) : encode i = cw := by
  obtain ⟨-, hd⟩ | ⟨-, hf⟩ := decode_cases cw
  · rw [hd] at h
    cases h
  · rwa [h] at hf

/-- A decoded command is well-formed, for the word of one that is not does not decode. -/
theorem wellFormed_of_decode {cw : Word} {i : Instr} (h : decode cw = .ok i) : i.wellFormed = true := by
  rw [decode_of_encode_eq (encode_of_decode h)] at h
  cases hw : i.wellFormed with
  | true => rfl
  | false =>
    rw [hw, if_neg Bool.false_ne_true] at h
    cases h

theorem decode_eq_opcode_iff {cw : Word} : decode cw = .error .opcode ↔ bits cw 31 24 ∉ assignedOpcodes := by
  obtain ⟨hop, hd⟩ | ⟨hop, hf⟩ := decode_cases cw
  · exact iff_of_true hd hop
  · refine iff_of_false (fun hd => ?_) (not_not_intro hop)
    rw [hd] at hf
    exact hf rfl

end Sys2Proof

namespace Sys2Proof.Machine

/-! ### Illegal words and ill-formed commands (R90, R284; log 11) -/

theorem command_of_illegal {s : State} {cw : Word} {why : Illegal} (hr : Running s) (hd : decode cw = .error why) :
    command cw s = .next (enterFault .illegalCommand cw s) := by
  simp only [command, stopped_eq_false_iff.2 hr, hd, Bool.false_eq_true, if_false]

theorem csrWrite_of_not_isWritable {c : Csr} (h : c.isWritable = false) (s : State) (v : Nat) :
    csrWrite s c v = .error .illegalCommand := by
  cases c with
  | ver | ecl | dlen | flen => cases h
  | _ => rfl

theorem exec_of_not_wellFormed {i : Instr} (h : i.wellFormed = false) (s : State) :
    exec i s = .next (enterFault .illegalCommand (encode i) s) := by
  cases i with
  | pld | pst | stb => exact runCommand_bind_error (ramLimit_eq_error.2 ⟨h, rfl⟩)
  | csrw c rs1 => exact congrArg (runCommand (.csrw c rs1) s) (csrWrite_of_not_isWritable h s _)
  | _ => cases h

/-- Settles O2: every operand is read back from its field, and the must-be-zero bits are zero. -/
theorem decodeOfEncode : Obligations.DecodeOfEncode := fun i h => (decode_encode i).trans (if_pos h)

/-- Settles O3: the fields read and the zero bits make up the word. -/
theorem encodeOfDecode : Obligations.EncodeOfDecode := fun _ _ h => ⟨wellFormed_of_decode h, encode_of_decode h⟩

/-- Settles O1: each of these words is decoded by evaluation. -/
theorem sampleWordsDecode : Obligations.SampleWordsDecode :=
  ⟨rfl, rfl, rfl, rfl, rfl, rfl, rfl, rfl, rfl, rfl, rfl⟩

/-- Settles O5: the boundary faults on a word that does not decode; an ill-formed command fails its first check. -/
theorem illegalWordFaults : Obligations.IllegalWordFaults := by
  refine ⟨fun s cw rest why hp hr hd => (step_of_pending hp).trans (command_of_illegal hr hd),
    fun cw => decode_eq_opcode_iff, fun i s h => ⟨?_, exec_of_not_wellFormed h s⟩⟩
  rw [decode_encode, h, if_neg Bool.false_ne_true]
  cases i with
  | csrw => exact .inr rfl
  | _ => exact .inl rfl

end Sys2Proof.Machine
end


/-! # The GF unit: the field laws, and its six commands with their faults (R100 to R109)

Every element is 0 or an entry of `EXP`, and on those entries `gf_mul`, `gf_div` and `gf_pow` are arithmetic of the
exponents modulo 255. -/

section
namespace Sys2Proof.Machine

/-! ### Elements by exponent (R33, R34) -/

theorem eq_zero_or_exists_romExp (a : Byte) : a = 0#8 ∨ ∃ i, a = romExp (i % 255) := by
  by_cases ha : a = 0
  · exact .inl ha
  · obtain ⟨i, hi, -, hexp⟩ := exists_romLog a ha
    exact .inr ⟨i, by rw [Nat.mod_eq_of_lt hi, hexp]⟩

theorem exists_romExp_of_ne_zero {a : Byte} (ha : a ≠ 0) : ∃ i, a = romExp (i % 255) :=
  (eq_zero_or_exists_romExp a).resolve_left ha

theorem romLog_romExp_mod (i : Nat) : romLog (romExp (i % 255)) = some (i % 255) :=
  romLog_romExp _ (Nat.mod_lt _ (by decide))

theorem gfMul_romExp (i j : Nat) : gfMul (romExp (i % 255)) (romExp (j % 255)) = romExp ((i + j) % 255) := by
  rw [gfMul_of_romLog (romLog_romExp_mod i) (romLog_romExp_mod j), ← Nat.add_mod]

theorem gfDiv_romExp (i j : Nat) :
    gfDiv (romExp (i % 255)) (romExp (j % 255)) = .ok (romExp ((i % 255 + 255 - j % 255) % 255)) := by
  simp only [gfDiv, romLog_romExp_mod]

theorem gfPow_romExp (i n : Nat) : gfPow (romExp (i % 255)) n = romExp (i * n % 255) := by
  by_cases hn : n = 0
  · rw [hn, Nat.mul_zero]
    rfl
  · simp only [gfPow, if_neg hn, romLog_romExp_mod, Nat.mod_mul_mod]

/-! ### The field laws (R108) -/

theorem gfMul_comm (a b : Byte) : gfMul a b = gfMul b a := by
  obtain rfl | ⟨i, rfl⟩ := eq_zero_or_exists_romExp a
  · simp
  obtain rfl | ⟨j, rfl⟩ := eq_zero_or_exists_romExp b
  · simp
  · rw [gfMul_romExp, gfMul_romExp, Nat.add_comm]

theorem gfMul_assoc (a b c : Byte) : gfMul (gfMul a b) c = gfMul a (gfMul b c) := by
  obtain rfl | ⟨i, rfl⟩ := eq_zero_or_exists_romExp a
  · simp
  obtain rfl | ⟨j, rfl⟩ := eq_zero_or_exists_romExp b
  · simp
  obtain rfl | ⟨k, rfl⟩ := eq_zero_or_exists_romExp c
  · simp
  · simp only [gfMul_romExp, Nat.add_assoc]

theorem gfMul_one (a : Byte) : gfMul a 1 = a := by
  obtain rfl | ⟨i, rfl⟩ := eq_zero_or_exists_romExp a
  · rfl
  · exact gfMul_romExp i 0

theorem timesX_xor (n : Nat) (a b : Byte) : timesX n (a ^^^ b) = timesX n a ^^^ timesX n b := by
  induction n with
  | zero => rfl
  | succ n ih => simp only [timesX_succ', ih, timesXOnce_xor]

/-- Multiplying by `EXP[i]` is doubling `i` times, and doubling is linear. -/
theorem gfMul_gfAdd (a b c : Byte) : gfMul a (gfAdd b c) = gfAdd (gfMul a b) (gfMul a c) := by
  obtain rfl | ⟨i, rfl⟩ := eq_zero_or_exists_romExp a
  · simp [gfAdd]
  · simp only [gfMul_eq_timesX (romLog_romExp_mod i), gfAdd, timesX_xor]

theorem gfDiv_gfMul (a : Byte) {b : Byte} (hb : b ≠ 0) : gfDiv (gfMul a b) b = .ok a := by
  obtain ⟨j, rfl⟩ := exists_romExp_of_ne_zero hb
  obtain rfl | ⟨i, rfl⟩ := eq_zero_or_exists_romExp a
  · simp only [gfMul_zero_left, gfDiv, romLog_romExp_mod]
    rfl
  · have exponent : ((i + j) % 255 + 255 - j % 255) % 255 = i % 255 := by omega
    rw [gfMul_romExp, gfDiv_romExp, exponent]

theorem exists_gfMul_eq_one {a : Byte} (ha : a ≠ 0) : ∃ c, gfMul c a = 1 := by
  obtain ⟨i, rfl⟩ := exists_romExp_of_ne_zero ha
  have exponent : (255 - i % 255 + i) % 255 = 0 := by omega
  exact ⟨romExp ((255 - i % 255) % 255), by rw [gfMul_romExp, exponent]; rfl⟩

/-- The quotient exists and is determined by the product: it is `a` times the inverse of `b`. -/
theorem exists_gfDiv (a : Byte) {b : Byte} (hb : b ≠ 0) : ∃ q, gfDiv a b = .ok q ∧ gfMul q b = a := by
  obtain ⟨c, hc⟩ := exists_gfMul_eq_one hb
  have product : gfMul (gfMul a c) b = a := by rw [gfMul_assoc, hc, gfMul_one]
  exact ⟨gfMul a c, by rw [← gfDiv_gfMul (gfMul a c) hb, product], product⟩

theorem gfPow_255 {a : Byte} (ha : a ≠ 0) : gfPow a 255 = 1 := by
  obtain ⟨i, rfl⟩ := exists_romExp_of_ne_zero ha
  rw [gfPow_romExp, Nat.mul_mod_left]
  rfl

theorem gfPow_one (a : Byte) : gfPow a 1 = a := by
  obtain rfl | ⟨i, rfl⟩ := eq_zero_or_exists_romExp a
  · rfl
  · rw [gfPow_romExp, Nat.mul_one]

/-- The element 2 is `EXP[1]`, the generator of R33. -/
theorem gfPow_two (i : Nat) : gfPow 2 i = romExp (i % 255) :=
  (gfPow_romExp 1 i).trans (by rw [Nat.one_mul])

/-- Settles O18: the laws of the product are those of the exponents modulo 255; the product distributes because doubling
is linear. -/
theorem fieldLaws : Obligations.FieldLaws := by
  refine ⟨fun a b c => ⟨BitVec.xor_comm a b, BitVec.xor_assoc a b c, BitVec.xor_zero, BitVec.xor_self, gfMul_comm a b,
    gfMul_assoc a b c, gfMul_one a, gfMul_zero_right a, gfMul_gfAdd a b c⟩, fun a _ hb => gfDiv_gfMul a hb,
    fun a ha => ⟨?_, gfPow_255 ha⟩, gfPow_one, gfPow_two⟩
  obtain ⟨q, hdiv, hmul⟩ := exists_gfDiv 1 ha
  exact ⟨q, hdiv, (gfMul_comm a q).trans hmul⟩

/-! ### Operands (R107) -/

theorem zext_setWidth {w : Word} (h : w.toNat ≤ 255) : Byte.zext (w.setWidth 8) = w := by
  apply BitVec.eq_of_toNat_eq
  simp only [BitVec.toNat_setWidth]
  omega

theorem setWidth_ne_zero {w : Word} (h1 : 1 ≤ w.toNat) (h255 : w.toNat ≤ 255) : w.setWidth 8 ≠ (0 : Byte) := fun h0 => by
  rw [← zext_setWidth h255, h0] at h1
  exact absurd h1 (by decide)

section
variable {i : Instr} {s : State} {rs1 rs2 : XReg}

theorem runCommand_fieldElement_ok {k : Byte → Except ErrCode State} (h : (readX s rs1).toNat ≤ 255) :
    runCommand i s (fieldElement s rs1 >>= k) = runCommand i s (k ((readX s rs1).setWidth 8)) :=
  runCommand_bind_ok (fieldElement_eq_ok.2 ⟨h, rfl⟩)

theorem runCommand_fieldElement_error {k : Byte → Except ErrCode State} (h : 255 < (readX s rs1).toNat) :
    runCommand i s (fieldElement s rs1 >>= k) = .next (enterFault .rangeError (encode i) s) :=
  runCommand_bind_error (fieldElement_eq_error.2 ⟨Nat.not_le.2 h, rfl⟩)

/-- A command on two field elements faults where either is not one, whatever it computes from them. -/
theorem runCommand_fieldElements_error {k : Byte → Byte → Except ErrCode State}
    (h : 255 < (readX s rs1).toNat ∨ 255 < (readX s rs2).toNat) :
    runCommand i s (fieldElement s rs1 >>= fun a => fieldElement s rs2 >>= k a) =
      .next (enterFault .rangeError (encode i) s) := by
  by_cases h1 : (readX s rs1).toNat ≤ 255
  · exact (runCommand_fieldElement_ok h1).trans (runCommand_fieldElement_error (h.resolve_left (Nat.not_lt.2 h1)))
  · exact runCommand_fieldElement_error (Nat.not_le.1 h1)

end

/-! ### The commands (R100 to R105) -/

/-- Settles O20: every operand is accepted; the quotient and the logarithm are those of the field. -/
theorem gfCommandsComplete : Obligations.GfCommandsComplete := by
  intro s rd rs1 rs2
  refine ⟨fun h1 h2 => ⟨?_, (runCommand_fieldElement_ok h1).trans (runCommand_fieldElement_ok h2)⟩,
    fun h1 hpos h2 => ?_, runCommand_fieldElement_ok, fun h => runCommand_bind_ok (natUpTo_eq_ok.2 ⟨h, rfl⟩),
    fun hpos h1 => ?_⟩
  · have sum : Byte.zext (gfAdd ((readX s rs1).setWidth 8) ((readX s rs2).setWidth 8)) =
        readX s rs1 ^^^ readX s rs2 :=
      BitVec.setWidth_xor.trans (congr (congrArg _ (zext_setWidth h1)) (zext_setWidth h2))
    rw [← sum]
    exact (runCommand_fieldElement_ok h1).trans (runCommand_fieldElement_ok h2)
  · obtain ⟨q, hdiv, hmul⟩ := exists_gfDiv ((readX s rs1).setWidth 8) (setWidth_ne_zero hpos h2)
    refine ⟨q, hmul, ?_⟩
    calc exec (.gfdiv rd rs1 rs2) s
      _ = runCommand (.gfdiv rd rs1 rs2) s _ := rfl
      _ = _ := runCommand_fieldElement_ok h1
      _ = _ := runCommand_fieldElement_ok h2
      _ = _ := runCommand_bind_ok hdiv
  · obtain ⟨i, hi, hlog, hexp⟩ := exists_romLog _ (setWidth_ne_zero hpos h1)
    refine ⟨i, Nat.le_of_lt_succ hi, by rw [hexp, zext_setWidth h1], ?_⟩
    calc exec (.gflog rd rs1) s
      _ = runCommand (.gflog rd rs1) s _ := rfl
      _ = _ := runCommand_fieldElement_ok h1
      _ = _ := by rw [hlog]; rfl

/-- Settles O21: an operand outside the field is the first check that fails; a zero has no logarithm, so no element is
divided by it. -/
theorem gfCommandsFault : Obligations.GfCommandsFault := by
  intro s rd rs1 rs2
  refine ⟨fun h => ⟨runCommand_fieldElements_error h, runCommand_fieldElements_error h, runCommand_fieldElements_error h⟩,
    fun h => ⟨runCommand_fieldElement_error h, runCommand_fieldElement_error h⟩,
    fun h => runCommand_bind_error (natUpTo_eq_error.2 ⟨Nat.not_le.2 h, rfl⟩), fun h1 h0 => ?_, fun h0 => ?_⟩
  · have h2 : (readX s rs2).toNat ≤ 255 := by rw [h0]; decide
    calc exec (.gfdiv rd rs1 rs2) s
      _ = runCommand (.gfdiv rd rs1 rs2) s _ := rfl
      _ = _ := runCommand_fieldElement_ok h1
      _ = _ := runCommand_fieldElement_ok h2
      _ = _ := runCommand_bind_error (by rw [h0]; rfl)
  · have h1 : (readX s rs1).toNat ≤ 255 := by rw [h0]; decide
    calc exec (.gflog rd rs1) s
      _ = runCommand (.gflog rd rs1) s _ := rfl
      _ = _ := runCommand_fieldElement_ok h1
      _ = _ := by rw [h0]; rfl

end Sys2Proof.Machine
end

/-! # The polynomial unit: sum, product and evaluation by coefficient, the register commands and the range faults
(R120 to R130)

Every round of the loops of R128 adds to one coefficient, so a coefficient of the product is the field sum of what the
rounds added to it; Horner's rule is that sum with the powers distributed. -/

section
namespace Sys2Proof.Machine

/-! ### Field sums -/

theorem gfSum_congr {n : Nat} {f g : Nat → Byte} (h : ∀ i, i < n → f i = g i) : gfSum n f = gfSum n g := by
  induction n with
  | zero => rfl
  | succ n ih => rw [gfSum_succ, gfSum_succ, ih fun i hi => h i (Nat.lt_succ_of_lt hi), h n (Nat.lt_succ_self n)]

theorem gfMul_gfSum (t : Byte) (n : Nat) (f : Nat → Byte) : gfMul t (gfSum n f) = gfSum n fun i => gfMul t (f i) := by
  induction n with
  | zero => simp
  | succ n ih =>
    have distrib : gfMul t (gfSum n f ^^^ f n) = gfMul t (gfSum n f) ^^^ gfMul t (f n) := gfMul_gfAdd ..
    rw [gfSum_succ, gfSum_succ, distrib, ih]

theorem gfPow_succ (t : Byte) (n : Nat) : gfPow t (n + 1) = gfMul t (gfPow t n) := by
  obtain rfl | ⟨i, rfl⟩ := eq_zero_or_exists_romExp t
  · rw [gfMul_zero_left]
    rfl
  · rw [gfPow_romExp, gfPow_romExp, gfMul_romExp, Nat.mul_succ, Nat.add_comm]

/-! ### The sum (R124, R128) -/

theorem getD_eq_zero_of_length_le {l : List Byte} {k : Nat} (h : l.length ≤ k) : l.getD k 0 = 0 := by
  rw [List.getD_eq_getElem?_getD, List.getElem?_eq_none h, Option.getD_none]

theorem getD_append_of_lt {l : List Byte} {k : Nat} (h : k < l.length) (m : List Byte) :
    (l ++ m).getD k 0 = l.getD k 0 := by
  rw [List.getD_eq_getElem?_getD, List.getElem?_append_left h, List.getD_eq_getElem?_getD]

theorem getD_zeros (n k : Nat) : (zeros n).getD k 0 = 0 := by
  rw [zeros, List.getD_eq_getElem?_getD, List.getElem?_replicate]
  split <;> rfl

theorem getD_append_zeros (l : List Byte) (n k : Nat) : (l ++ zeros n).getD k 0 = l.getD k 0 := by
  by_cases hk : k < l.length
  · exact getD_append_of_lt hk _
  · have past := Nat.not_lt.1 hk
    rw [List.getD_eq_getElem?_getD, List.getElem?_append_right past, ← List.getD_eq_getElem?_getD, getD_zeros,
      getD_eq_zero_of_length_le past]

theorem getD_zipWith_gfAdd {l m : List Byte} (h : l.length = m.length) (k : Nat) :
    (List.zipWith gfAdd l m).getD k 0 = l.getD k 0 ^^^ m.getD k 0 := by
  simp only [List.getD_eq_getElem?_getD, List.getElem?_zipWith]
  by_cases hk : k < l.length
  · have hk' : k < m.length := h ▸ hk
    rw [List.getElem?_eq_getElem hk, List.getElem?_eq_getElem hk']
    rfl
  · have hk' : ¬k < m.length := h ▸ hk
    rw [List.getElem?_eq_none (Nat.not_lt.1 hk), List.getElem?_eq_none (Nat.not_lt.1 hk')]
    rfl

/-- Counted from the constant term, a sum has the sum of its operands' coefficients: the leading zeros of R128 stand
behind them. -/
theorem getD_reverse_polyAdd (a b : List Byte) (k : Nat) :
    (polyAdd a b).reverse.getD k 0 = a.reverse.getD k 0 ^^^ b.reverse.getD k 0 := by
  have padded {l : List Byte} {n : Nat} (h : l.length ≤ n) : (zeros (n - l.length) ++ l).length = n := by
    rw [List.length_append, length_zeros, Nat.sub_add_cancel h]
  have reversed (l : List Byte) (n : Nat) : (zeros n ++ l).reverse = l.reverse ++ zeros n := by
    rw [List.reverse_append, zeros, List.reverse_replicate]
  have aligned := (padded (Nat.le_max_left a.length b.length)).trans (padded (Nat.le_max_right a.length b.length)).symm
  have mirrored := List.length_reverse.trans (aligned.trans List.length_reverse.symm)
  rw [polyAdd, List.reverse_zipWith aligned, getD_zipWith_gfAdd mirrored, reversed, reversed, getD_append_zeros,
    getD_append_zeros]

/-! ### The product (R125, R128) -/

theorem getD_addAt {r : List Byte} {k : Nat} (hk : k < r.length) (i : Nat) (v : Byte) :
    (addAt r i v).getD k 0 = r.getD k 0 ^^^ if i = k then v else 0 := by
  by_cases hi : i = k
  · subst hi
    simp [addAt, gfAdd, List.getD_eq_getElem?_getD, hk]
  · simp [addAt, List.getD_eq_getElem?_getD, hi]

/-- A loop whose round `i` adds `f i` to coefficient `k` adds the field sum of the `f i`. -/
theorem getD_foldl_range {step : List Byte → Nat → List Byte} {f : Nat → Byte} {r : List Byte} {k : Nat}
    (hstep : ∀ r i, k < r.length → (step r i).getD k 0 = r.getD k 0 ^^^ f i)
    (hlength : ∀ r i, (step r i).length = r.length) (hk : k < r.length) (n : Nat) :
    ((List.range n).foldl step r).getD k 0 = r.getD k 0 ^^^ gfSum n f := by
  induction n with
  | zero => simp
  | succ n ih =>
    have inside : k < ((List.range n).foldl step r).length := by rwa [length_foldl step hlength]
    rw [List.range_succ, List.foldl_append, List.foldl_cons, List.foldl_nil, hstep _ _ inside, ih, gfSum_succ,
      BitVec.xor_assoc]

/-- A field sum with one term that may differ from zero. -/
theorem gfSum_single (n i k : Nat) (f : Nat → Byte) :
    (gfSum n fun j => if i + j = k then f j else 0) = if i ≤ k ∧ k < i + n then f (k - i) else 0 := by
  induction n with
  | zero => exact (if_neg (by omega)).symm
  | succ n ih =>
    rw [gfSum_succ, ih]
    by_cases hk : i + n = k
    · subst hk
      simp
    · rw [if_neg hk]
      exact BitVec.xor_zero.trans (ite_congr (propext (by omega)) (fun _ => rfl) fun _ => rfl)

/-- Row `i` of the double loop of R128. -/
def addRow (a b r : List Byte) (i : Nat) : List Byte :=
  (List.range b.length).foldl (fun r j => addAt r (i + j) (gfMul (a.getD i 0) (b.getD j 0))) r

theorem polyMul_eq_addRow (a b : List Byte) :
    polyMul a b = (List.range a.length).foldl (addRow a b) (zeros (a.length + b.length - 1)) := rfl

theorem length_addRow (a b r : List Byte) (i : Nat) : (addRow a b r i).length = r.length :=
  length_foldl _ (fun _ _ => length_addAt ..) _ _

/-- Row `i` adds to coefficient `k` its one term of the convolution; past the end of `b` that term is zero. -/
theorem getD_addRow (a b : List Byte) {r : List Byte} {k : Nat} (hk : k < r.length) (i : Nat) :
    (addRow a b r i).getD k 0 = r.getD k 0 ^^^ if i ≤ k then gfMul (a.getD i 0) (b.getD (k - i) 0) else 0 := by
  have round (r : List Byte) (j : Nat) (h : k < r.length) :=
    getD_addAt h (i + j) (gfMul (a.getD i 0) (b.getD j 0))
  rw [addRow, getD_foldl_range round (fun _ _ => length_addAt ..) hk,
    gfSum_single b.length i k fun j => gfMul (a.getD i 0) (b.getD j 0)]
  congr 1
  by_cases hi : i ≤ k
  · by_cases hj : k < i + b.length
    · rw [if_pos ⟨hi, hj⟩, if_pos hi]
    · rw [if_neg (hj ·.2), if_pos hi, getD_eq_zero_of_length_le (l := b) (by omega)]
      exact (gfMul_zero_right _).symm
  · rw [if_neg (hi ·.1), if_neg hi]

theorem getD_polyMul (a b : List Byte) {k : Nat} (hk : k < a.length + b.length - 1) :
    (polyMul a b).getD k 0 = gfSum a.length fun i => if i ≤ k then gfMul (a.getD i 0) (b.getD (k - i) 0) else 0 := by
  rw [polyMul_eq_addRow, getD_foldl_range (fun _ i h => getD_addRow a b h i) (length_addRow a b)
    (by rwa [length_zeros]), getD_zeros]
  exact BitVec.zero_xor

/-! ### Evaluation (R127, R128) -/

theorem polyEval_append_singleton (a : List Byte) (c t : Byte) :
    polyEval (a ++ [c]) t = gfMul t (polyEval a t) ^^^ c := by
  rw [polyEval, List.foldl_append, gfMul_comm]
  rfl

/-- Horner's rule by the last coefficient: one more multiplication by `t` raises every power. -/
theorem polyEval_eq_gfSum (a : List Byte) (t : Byte) :
    polyEval a t = gfSum a.length fun i => gfMul (a.getD i 0) (gfPow t (a.length - 1 - i)) := by
  rw [← a.reverse_reverse]
  induction a.reverse with
  | nil => rfl
  | cons c r ih =>
    rw [List.reverse_cons]
    generalize r.reverse = a at ih ⊢
    have raised : ∀ i, i < a.length →
        gfMul t (gfMul (a.getD i 0) (gfPow t (a.length - 1 - i))) =
          gfMul ((a ++ [c]).getD i 0) (gfPow t (a.length - i)) := by
      intro i hi
      have exponent : a.length - i = a.length - 1 - i + 1 := by omega
      rw [getD_append_of_lt hi, exponent, gfPow_succ, ← gfMul_assoc, ← gfMul_assoc, gfMul_comm t]
    have constant : gfMul ((a ++ [c]).getD a.length 0) (gfPow t (a.length - a.length)) = c := by
      rw [List.getD_eq_getElem?_getD, List.getElem?_concat_length, Option.getD_some, Nat.sub_self]
      exact gfMul_one c
    rw [polyEval_append_singleton, ih, gfMul_gfSum, gfSum_congr raised, List.length_append, List.length_singleton,
      gfSum_succ, Nat.add_sub_cancel, constant]

/-- Settles O24: the sum by its padding, the product by the rows of its loop, the evaluation by Horner's rule. -/
theorem polyFunctionsByCoefficient : Obligations.PolyFunctionsByCoefficient := fun a b _ _ =>
  ⟨length_polyAdd a b, getD_reverse_polyAdd a b, length_polyMul a b, fun _ => getD_polyMul a b, polyEval_eq_gfSum a⟩

/-! ### The commands (R120 to R127) -/

/-- Settles O23: PMOV, PDEG and PADD check nothing, and the one check of PMUL, PSCL and PEVAL passes. -/
theorem polyRegisterCommandsComplete : Obligations.PolyRegisterCommandsComplete := fun _ _ _ _ _ _ =>
  ⟨rfl, rfl, rfl, fun h => runCommand_bind_ok (require_pos h _),
    fun h => ⟨runCommand_fieldElement_ok h, runCommand_fieldElement_ok h⟩⟩

/-- Settles O25: PLD tests its length before its run; every other command has one check that can fail. -/
theorem polyCommandsFault : Obligations.PolyCommandsFault := by
  intro s sp limit rd rs1 rs2 pd pa pb
  refine ⟨fun hsp h => ?_, fun hsp h => ?_, fun h => runCommand_require_neg (Nat.not_le.2 h),
    fun h => ⟨runCommand_fieldElement_error h, runCommand_fieldElement_error h⟩⟩
  · refine (runCommand_bind_ok (ramLimit_of_ramSize hsp)).trans ?_
    by_cases hn : 1 ≤ (readX s rs2).toNat ∧ (readX s rs2).toNat ≤ Config.pMax
    · have hrun : ¬(readX s rs1).toNat + (readX s rs2).toNat ≤ limit := by
        obtain h0 | h4096 | hlimit := h
        · rw [h0] at hn
          exact absurd hn.1 (by decide)
        · exact absurd hn.2 (Nat.not_le.2 h4096)
        · exact Nat.not_le.2 hlimit
      exact (runCommand_bind_ok (require_pos hn _)).trans (runCommand_require_neg hrun)
    · exact runCommand_require_neg hn
  · exact (runCommand_bind_ok (ramLimit_of_ramSize hsp)).trans (runCommand_require_neg (Nat.not_le.2 h))

end Sys2Proof.Machine
end

/-! # The Reed-Solomon unit: generators, remainders, the interleaved stream and the four commands (R140 to R148)

A row of the product of R128 and the inner loop of the long division of R145 are one loop: it adds a shifted multiple of
a polynomial. At a point, that adds the multiple of the polynomial's value there, so a product has the product of the
values, and subtracting multiples of a generator changes no value at its roots. -/

section
namespace Sys2Proof.Machine

/-! ### Field sums and powers -/

theorem gfMul_xor (a b c : Byte) : gfMul a (b ^^^ c) = gfMul a b ^^^ gfMul a c := gfMul_gfAdd a b c

theorem gfSum_xor (n : Nat) (f g : Nat → Byte) : (gfSum n fun i => f i ^^^ g i) = gfSum n f ^^^ gfSum n g := by
  induction n with
  | zero => simp
  | succ n ih =>
    simp only [gfSum_succ, ih]
    ac_rfl

theorem gfPow_zero (t : Byte) : gfPow t 0 = 1 := rfl

theorem gfPow_add (t : Byte) (m n : Nat) : gfPow t (m + n) = gfMul (gfPow t m) (gfPow t n) := by
  induction m with
  | zero => rw [Nat.zero_add, gfPow_zero, gfMul_comm, gfMul_one]
  | succ m ih => rw [Nat.succ_add, gfPow_succ, ih, gfPow_succ, gfMul_assoc]

/-! ### Values (R127, R128) -/

@[simp] theorem polyEval_zeros (n : Nat) (t : Byte) : polyEval (zeros n) t = 0#8 := by
  induction n with
  | zero => rfl
  | succ n ih =>
    rw [zeros, List.replicate_succ', polyEval_append_singleton, ← zeros, ih, gfMul_zero_right]
    rfl

theorem polyEval_append (a b : List Byte) (t : Byte) :
    polyEval (a ++ b) t = gfMul (polyEval a t) (gfPow t b.length) ^^^ polyEval b t := by
  rw [← b.reverse_reverse]
  induction b.reverse with
  | nil =>
    rw [List.reverse_nil, List.append_nil, List.length_nil, gfPow_zero, gfMul_one]
    exact BitVec.xor_zero.symm
  | cons c r ih =>
    rw [List.reverse_cons]
    generalize r.reverse = b at ih ⊢
    rw [← List.append_assoc, polyEval_append_singleton, polyEval_append_singleton, ih, gfMul_xor, gfMul_comm t,
      gfMul_assoc, List.length_append, List.length_singleton, gfPow_succ, gfMul_comm t (gfPow t b.length),
      BitVec.xor_assoc]

/-- Adding `v` to coefficient `i` adds `v` times the power of that coefficient. -/
theorem polyEval_addAt {r : List Byte} {i : Nat} (hi : i < r.length) (v t : Byte) :
    polyEval (addAt r i v) t = polyEval r t ^^^ gfMul v (gfPow t (r.length - 1 - i)) := by
  have term : ∀ k, k < r.length →
      gfMul ((addAt r i v).getD k 0) (gfPow t (r.length - 1 - k)) =
        gfMul (r.getD k 0) (gfPow t (r.length - 1 - k)) ^^^
          if 0 + k = i then gfMul v (gfPow t (r.length - 1 - k)) else 0 := by
    intro k hk
    rw [getD_addAt hk, gfMul_comm, gfMul_xor, gfMul_comm (gfPow t _)]
    congr 1
    by_cases hik : i = k
    · rw [if_pos hik, if_pos (by omega), gfMul_comm]
    · rw [if_neg hik, if_neg (by omega)]
      exact gfMul_zero_right _
  rw [polyEval_eq_gfSum, polyEval_eq_gfSum, length_addAt, gfSum_congr term, gfSum_xor,
    gfSum_single r.length 0 i fun k => gfMul v (gfPow t (r.length - 1 - k)), if_pos (by omega), Nat.sub_zero]

/-- A loop whose round `i` adds `f i` to the value adds the field sum of the `f i`. -/
theorem polyEval_foldl_range {step : List Byte → Nat → List Byte} {f : Nat → Byte} {r : List Byte} {t : Byte} (n : Nat)
    (hstep : ∀ r' i, r'.length = r.length → i < n → polyEval (step r' i) t = polyEval r' t ^^^ f i)
    (hlength : ∀ r i, (step r i).length = r.length) :
    polyEval ((List.range n).foldl step r) t = polyEval r t ^^^ gfSum n f := by
  induction n with
  | zero => simp
  | succ n ih =>
    rw [List.range_succ, List.foldl_append, List.foldl_cons, List.foldl_nil,
      hstep _ _ (length_foldl step hlength _ _) (Nat.lt_succ_self n),
      ih fun r' i h hi => hstep r' i h (Nat.lt_succ_of_lt hi), gfSum_succ, BitVec.xor_assoc]

/-! ### The shared loop (R128, R145) -/

/-- Row `i` of a product is the inner loop of the division, with coefficient `i` for the quotient's. -/
theorem addRow_eq_subtractMultiple (a b r : List Byte) (i : Nat) :
    addRow a b r i = subtractMultiple b r i (a.getD i 0) := by
  simp only [addRow, subtractMultiple, gfMul_comm (a.getD i 0)]

theorem getD_subtractMultiple (g : List Byte) {w : List Byte} {k : Nat} (hk : k < w.length) (i : Nat) (f : Byte) :
    (subtractMultiple g w i f).getD k 0 = w.getD k 0 ^^^ if i ≤ k then gfMul f (g.getD (k - i) 0) else 0 := by
  have coefficient : (List.replicate (i + 1) f).getD i 0 = f := by simp [List.getD_eq_getElem?_getD]
  have h := getD_addRow (List.replicate (i + 1) f) g hk i
  rwa [addRow_eq_subtractMultiple, coefficient] at h

/-- The multiple that is added at position `i` is shifted by the coefficients behind its end. -/
theorem polyEval_subtractMultiple {g w : List Byte} {i : Nat} (h : i + g.length ≤ w.length) (f t : Byte) :
    polyEval (subtractMultiple g w i f) t =
      polyEval w t ^^^ gfMul (gfMul f (gfPow t (w.length - (i + g.length)))) (polyEval g t) := by
  have round : ∀ w' j, w'.length = w.length → j < g.length →
      polyEval (addAt w' (i + j) (gfMul (g.getD j 0) f)) t = polyEval w' t ^^^
        gfMul (gfMul f (gfPow t (w.length - (i + g.length)))) (gfMul (g.getD j 0) (gfPow t (g.length - 1 - j))) := by
    intro w' j hw hj
    have exponent : w'.length - 1 - (i + j) = w.length - (i + g.length) + (g.length - 1 - j) := by omega
    rw [polyEval_addAt (by omega), exponent, gfPow_add, gfMul_comm (g.getD j 0), gfMul_assoc, gfMul_assoc,
      ← gfMul_assoc (g.getD j 0), gfMul_comm (g.getD j 0), gfMul_assoc]
  rw [subtractMultiple, polyEval_foldl_range _ round fun _ _ => length_addAt .., ← gfMul_gfSum, ← polyEval_eq_gfSum]

/-- The value of a product is the product of the values: each row adds one coefficient's multiple. -/
theorem polyEval_polyMul (a b : List Byte) (t : Byte) : polyEval (polyMul a b) t = gfMul (polyEval a t) (polyEval b t) := by
  have row : ∀ r i, r.length = (zeros (a.length + b.length - 1)).length → i < a.length →
      polyEval (addRow a b r i) t =
        polyEval r t ^^^ gfMul (polyEval b t) (gfMul (a.getD i 0) (gfPow t (a.length - 1 - i))) := by
    intro r i hr hi
    rw [length_zeros] at hr
    have exponent : r.length - (i + b.length) = a.length - 1 - i := by omega
    rw [addRow_eq_subtractMultiple, polyEval_subtractMultiple (by omega), exponent, gfMul_comm (polyEval b t)]
  rw [polyMul_eq_addRow, polyEval_foldl_range _ row (length_addRow a b), polyEval_zeros, BitVec.zero_xor, ← gfMul_gfSum,
    ← polyEval_eq_gfSum, gfMul_comm]

/-! ### Generators (R144) -/

theorem rsGen_succ (n : Nat) : rsGen (n + 1) = polyMul (rsGen n) [1, romExp n] := by
  rw [rsGen, List.range_succ, List.foldl_append]
  rfl

theorem getD_zero_polyMul {a b : List Byte} (ha : 1 ≤ a.length) (hb : 1 ≤ b.length) :
    (polyMul a b).getD 0 0 = gfMul (a.getD 0 0) (b.getD 0 0) := by
  have first : ∀ i, i < a.length → (if i ≤ 0 then gfMul (a.getD i 0) (b.getD (0 - i) 0) else 0) =
      if 0 + i = 0 then gfMul (a.getD i 0) (b.getD (0 - i) 0) else 0 :=
    fun i _ => ite_congr (propext (by omega)) (fun _ => rfl) fun _ => rfl
  rw [getD_polyMul a b (by omega), gfSum_congr first,
    gfSum_single a.length 0 0 fun i => gfMul (a.getD i 0) (b.getD (0 - i) 0), if_pos (by omega)]

theorem getD_zero_rsGen (n : Nat) : (rsGen n).getD 0 0 = 1 := by
  induction n with
  | zero => rfl
  | succ n ih =>
    rw [rsGen_succ, getD_zero_polyMul (by simp) (by simp), ih]
    exact gfMul_one 1

theorem polyEval_linear (c t : Byte) : polyEval [1, c] t = t ^^^ c := by
  have leading : polyEval [1] t = 1 := (congrArg (· ^^^ 1) (gfMul_zero_left t)).trans BitVec.zero_xor
  exact (polyEval_append_singleton [1] c t).trans (by rw [leading, gfMul_one])

/-- The factor of root `i` is zero there, and stays a factor. -/
theorem polyEval_rsGen {n i : Nat} (hi : i < n) : polyEval (rsGen n) (romExp i) = 0#8 := by
  induction n with
  | zero => exact absurd hi (Nat.not_lt_zero i)
  | succ n ih =>
    rw [rsGen_succ, polyEval_polyMul, polyEval_linear]
    obtain hlt | rfl := Nat.lt_succ_iff_lt_or_eq.1 hi
    · rw [ih hlt, gfMul_zero_left]
    · rw [BitVec.xor_self, gfMul_zero_right]

/-- Settles O26: a generator has the length of its degree, the first coefficient 1, and a factor for each root. -/
theorem generatorHasItsRoots : Obligations.GeneratorHasItsRoots := fun n _ _ =>
  ⟨length_rsGen n, getD_zero_rsGen n, fun _ => polyEval_rsGen⟩

/-! ### Remainders (R145) -/

theorem length_pos_of_getD_ne_zero {g : List Byte} (hg : g.getD 0 0 ≠ 0) : 1 ≤ g.length :=
  List.length_pos_iff.2 fun h => hg (h ▸ rfl)

theorem getD_of_lt {l : List Byte} {k : Nat} (h : k < l.length) : l.getD k 0 = l[k] := by
  rw [List.getD_eq_getElem?_getD, List.getElem?_eq_getElem h, Option.getD_some]

theorem addAt_zero (r : List Byte) (i : Nat) : addAt r i 0#8 = r := by
  unfold addAt gfAdd
  rw [BitVec.xor_zero]
  refine List.ext_getElem (by simp) fun k hk _ => ?_
  rw [List.getElem_set]
  split
  · subst k
    exact getD_of_lt _
  · rfl

theorem subtractMultiple_zero (g w : List Byte) (i : Nat) : subtractMultiple g w i 0#8 = w := by
  simp only [subtractMultiple, gfMul_zero_right, addAt_zero]
  induction List.range g.length with
  | nil => rfl
  | cons _ l ih => exact ih

/-- With a leading coefficient to divide by, a round subtracts the multiple that cancels entry `i`; for an entry 0 that
is the multiple by 0. -/
theorem exists_divisionRound {g : List Byte} (hg : g.getD 0 0 ≠ 0) (w : List Byte) (i : Nat) :
    ∃ f, gfMul f (g.getD 0 0) = w.getD i 0 ∧ divisionRound g w i = .ok (subtractMultiple g w i f) := by
  by_cases hw : w.getD i 0 = 0
  · refine ⟨0#8, (gfMul_zero_left _).trans hw.symm, ?_⟩
    rw [divisionRound, if_pos hw, subtractMultiple_zero]
  · obtain ⟨f, hdiv, hmul⟩ := exists_gfDiv (w.getD i 0) hg
    refine ⟨f, hmul, ?_⟩
    rw [divisionRound, if_neg hw, hdiv]
    rfl

/-- The long division runs to its end: it clears the entries it passes, and adds only multiples of the divisor. -/
theorem exists_divisionRounds {g : List Byte} (hg : g.getD 0 0 ≠ 0) (w : List Byte) (n : Nat)
    (hroom : n + g.length ≤ w.length + 1) :
    ∃ w', (List.range n).foldlM (divisionRound g) w = .ok w' ∧ (∀ k, k < n → w'.getD k 0 = 0) ∧
      ∀ t, polyEval g t = 0 → polyEval w' t = polyEval w t := by
  induction n with
  | zero => exact ⟨w, rfl, nofun, fun _ _ => rfl⟩
  | succ n ih =>
    obtain ⟨w', hw', hcleared, hvalue⟩ := ih (by omega)
    obtain ⟨f, hf, hround⟩ := exists_divisionRound hg w' n
    have hlength : w'.length = w.length := length_divisionRounds _ hw'
    refine ⟨subtractMultiple g w' n f, ?_, fun k hk => ?_, fun t ht => ?_⟩
    · rw [List.range_succ, List.foldlM_append]
      exact bind_eq_ok.2 ⟨w', hw', bind_eq_ok.2 ⟨_, hround, rfl⟩⟩
    · have hpos := length_pos_of_getD_ne_zero hg
      rw [getD_subtractMultiple g (by omega)]
      obtain hlt | rfl := Nat.lt_succ_iff_lt_or_eq.1 hk
      · rw [hcleared k hlt, if_neg (by omega)]
        rfl
      · rw [if_pos (Nat.le_refl k), Nat.sub_self, hf]
        exact BitVec.xor_self
    · have added : gfMul (gfMul f (gfPow t (w'.length - (n + g.length)))) (polyEval g t) = 0#8 := by
        rw [ht]
        exact gfMul_zero_right _
      rw [polyEval_subtractMultiple (by omega), added, BitVec.xor_zero, hvalue t ht]

/-- A list whose first `n` entries are 0 is `zeros n` and the rest. -/
theorem eq_zeros_append_drop {w : List Byte} {n : Nat} (hn : n ≤ w.length) (h : ∀ k, k < n → w.getD k 0 = 0) :
    w = zeros n ++ w.drop n := by
  have cleared : w.take n = zeros n := by
    refine List.ext_getElem (by simp [hn]) fun k hk _ => ?_
    have hk' : k < n := by simpa [hn] using hk
    have entry := h k hk'
    rw [getD_of_lt (Nat.lt_of_lt_of_le hk' hn)] at entry
    rw [List.getElem_take, entry]
    simp [zeros]
  rw [← cleared, List.take_append_drop]

/-- The remainder exists, and the data followed by it is 0 wherever the divisor is: there the division keeps the value
of the data followed by zeros, and all that is left of it is the remainder. -/
theorem exists_rsRem {g : List Byte} (hg : g.getD 0 0 ≠ 0) (d : List Byte) :
    ∃ e, rsRem d g = .ok e ∧ ∀ t, polyEval g t = 0 → polyEval (d ++ e) t = 0#8 := by
  have hpos := length_pos_of_getD_ne_zero hg
  have hroom : (d ++ zeros (g.length - 1)).length = d.length + (g.length - 1) := by simp
  obtain ⟨w, hw, hcleared, hvalue⟩ := exists_divisionRounds hg (d ++ zeros (g.length - 1)) d.length (by omega)
  have hrem : rsRem d g = .ok (w.drop d.length) := bind_eq_ok.2 ⟨w, hw, rfl⟩
  have hsplit := eq_zeros_append_drop (by rw [length_divisionRounds _ hw]; omega) hcleared
  refine ⟨_, hrem, fun t ht => ?_⟩
  have value := hvalue t ht
  rw [hsplit, polyEval_append, polyEval_append, polyEval_zeros, polyEval_zeros, gfMul_zero_left, BitVec.zero_xor,
    BitVec.xor_zero, length_zeros] at value
  rw [polyEval_append, length_rsRem hrem, ← value, BitVec.xor_self]

theorem getD_zero_rsGen_ne_zero (n : Nat) : (rsGen n).getD 0 0 ≠ 0 := by
  rw [getD_zero_rsGen]
  decide

/-- Settles O27: the generator is monic, so the division by it runs to its end, and its roots are those of the data
followed by the remainder. -/
theorem remainderPassesSyndromeCheck : Obligations.RemainderPassesSyndromeCheck := by
  intro d n _ _ _
  obtain ⟨e, he, hroots⟩ := exists_rsRem (getD_zero_rsGen_ne_zero n) d
  refine ⟨e, he, ?_, fun i hi => hroots _ (polyEval_rsGen hi)⟩
  rw [length_rsRem he, length_rsGen, Nat.add_sub_cancel]

/-! ### Blocks (R146) -/

theorem length_splitBlocks (data : List Byte) (B : Nat) : (splitBlocks data B).length = B := by
  rw [splitBlocks, List.length_map, List.length_range]

theorem getElem_splitBlocks (data : List Byte) (B : Nat) {b : Nat} (hb : b < (splitBlocks data B).length) :
    (splitBlocks data B)[b] = (data.drop (blockOff data.length B b)).take (blockLen data.length B b) := by
  simp only [splitBlocks, List.getElem_map, List.getElem_range]

theorem length_getElem_splitBlocks (data : List Byte) {B : Nat} (hB : 1 ≤ B) {b : Nat}
    (hb : b < (splitBlocks data B).length) : (splitBlocks data B)[b].length = blockLen data.length B b := by
  have lengths := congrArg (·[b]?) (map_length_splitBlocks data hB)
  rw [length_splitBlocks] at hb
  simpa [hb, length_splitBlocks] using lengths

theorem getD_block (data : List Byte) {off len i : Nat} (hi : i < len) :
    ((data.drop off).take len).getD i 0 = data.getD (off + i) 0 := by
  simp only [List.getD_eq_getElem?_getD, List.getElem?_take_of_lt hi, List.getElem?_drop]

theorem blockLen_of_short {D B b : Nat} (h : b < B - D % B) : blockLen D B b = D / B := by
  rw [blockLen, if_neg (Nat.not_le.2 h), Nat.add_zero]

theorem blockLen_of_long {D B b : Nat} (h : B - D % B ≤ b) : blockLen D B b = D / B + 1 := by
  rw [blockLen, if_pos h]

theorem le_blockLen (D B b : Nat) : D / B ≤ blockLen D B b := Nat.le_add_right ..

/-! ### Rounds (R147) -/

theorem roundRobin_succ (blocks : List (List Byte)) (n : Nat) :
    roundRobin blocks (n + 1) = roundRobin blocks n ++ blocks.filterMap (·[n]?) := by
  simp only [roundRobin, List.range_succ, List.flatMap_append, List.flatMap_singleton]

/-- A round in which no block has run out takes one codeword from every block. -/
theorem filterMap_getElem?_of_lt {blocks : List (List Byte)} {n : Nat} (h : ∀ c ∈ blocks, n < c.length) :
    blocks.filterMap (·[n]?) = blocks.map (·.getD n 0) := by
  induction blocks with
  | nil => rfl
  | cons c blocks ih =>
    obtain ⟨hc, hblocks⟩ := List.forall_mem_cons.1 h
    simp only [List.filterMap_cons, List.map_cons, List.getElem?_eq_getElem hc, getD_of_lt hc, ih hblocks]

theorem filterMap_getElem?_of_le {blocks : List (List Byte)} {n : Nat} (h : ∀ c ∈ blocks, c.length ≤ n) :
    blocks.filterMap (·[n]?) = [] :=
  List.filterMap_eq_nil_iff.2 fun c hc => List.getElem?_eq_none (h c hc)

/-- In the rounds before any block runs out, every round is as long as the number of blocks. -/
theorem length_roundRobin_of_le {blocks : List (List Byte)} {B n : Nat} (hcount : blocks.length = B)
    (h : ∀ c ∈ blocks, n ≤ c.length) : (roundRobin blocks n).length = n * B := by
  induction n with
  | zero => rw [Nat.zero_mul]; rfl
  | succ n ih =>
    rw [roundRobin_succ, List.length_append, ih fun c hc => Nat.le_of_succ_le (h c hc), filterMap_getElem?_of_lt h,
      List.length_map, hcount, Nat.succ_mul]

/-- Entry `b` of round `i` stands before round `n`. -/
theorem round_index_lt {B n i b : Nat} (hi : i < n) (hb : b < B) : i * B + b < n * B := by
  calc i * B + b
    _ < i * B + B := Nat.add_lt_add_left hb _
    _ = (i + 1) * B := (Nat.succ_mul i B).symm
    _ ≤ n * B := Nat.mul_le_mul_right B hi

theorem getD_append_of_length {l : List Byte} {n : Nat} (h : l.length = n) (m : List Byte) (k : Nat) :
    (l ++ m).getD (n + k) 0 = m.getD k 0 := by
  subst h
  rw [List.getD_eq_getElem?_getD, List.getElem?_append_right (Nat.le_add_right ..), Nat.add_sub_cancel_left,
    ← List.getD_eq_getElem?_getD]

/-- In those rounds, codeword `i` of block `b` is entry `b` of round `i`. -/
theorem getD_roundRobin {blocks : List (List Byte)} {B n i b : Nat} (hcount : blocks.length = B)
    (h : ∀ c ∈ blocks, n ≤ c.length) (hi : i < n) (hb : b < blocks.length) :
    (roundRobin blocks n).getD (i * B + b) 0 = blocks[b].getD i 0 := by
  induction n with
  | zero => exact absurd hi (Nat.not_lt_zero i)
  | succ n ih =>
    have before : ∀ c ∈ blocks, n ≤ c.length := fun c hc => Nat.le_of_succ_le (h c hc)
    have hlength := length_roundRobin_of_le hcount before
    rw [roundRobin_succ]
    obtain hlt | rfl := Nat.lt_succ_iff_lt_or_eq.1 hi
    · have inside : i * B + b < (roundRobin blocks n).length := hlength ▸ round_index_lt hlt (hcount ▸ hb)
      rw [getD_append_of_lt inside, ih before hlt]
    · rw [getD_append_of_length hlength, filterMap_getElem?_of_lt h, getD_of_lt (by rwa [List.length_map]),
        List.getElem_map]

/-! ### The stream (R147) -/

section
variable {data out : List Byte} {B E b i : Nat}

theorem le_length_of_mem_splitBlocks (hB : 1 ≤ B) : ∀ c ∈ splitBlocks data B, data.length / B ≤ c.length := by
  intro c hc
  obtain ⟨k, hk, rfl⟩ := List.mem_iff_getElem.1 hc
  exact length_getElem_splitBlocks data hB hk ▸ le_blockLen ..

/-- The last data round finds codewords in the long blocks only, and those come last. -/
theorem filterMap_splitBlocks_last (data : List Byte) (hB : 1 ≤ B) :
    (splitBlocks data B).filterMap (·[data.length / B]?) =
      ((splitBlocks data B).drop (B - data.length % B)).map (·.getD (data.length / B) 0) := by
  have short : ∀ c ∈ (splitBlocks data B).take (B - data.length % B), c.length ≤ data.length / B := by
    intro c hc
    obtain ⟨k, hk, rfl⟩ := List.mem_iff_getElem.1 hc
    rw [List.length_take] at hk
    exact Nat.le_of_eq (by rw [List.getElem_take, length_getElem_splitBlocks data hB, blockLen_of_short (by omega)])
  have long : ∀ c ∈ (splitBlocks data B).drop (B - data.length % B), data.length / B < c.length := by
    intro c hc
    obtain ⟨k, hk, rfl⟩ := List.mem_iff_getElem.1 hc
    rw [List.getElem_drop, length_getElem_splitBlocks data hB, blockLen_of_long (Nat.le_add_right ..)]
    exact Nat.lt_succ_self _
  calc (splitBlocks data B).filterMap (·[data.length / B]?)
    _ = ((splitBlocks data B).take (B - data.length % B) ++
          (splitBlocks data B).drop (B - data.length % B)).filterMap (·[data.length / B]?) := by
      rw [List.take_append_drop]
    _ = _ := by
      rw [List.filterMap_append, filterMap_getElem?_of_le short, List.nil_append, filterMap_getElem?_of_lt long]

/-- The data rounds take all the data codewords. -/
theorem length_roundRobin_splitBlocks (data : List Byte) (hB : 1 ≤ B) :
    (roundRobin (splitBlocks data B) (data.length / B + 1)).length = data.length := by
  rw [length_roundRobin, map_length_splitBlocks data hB, sum_blockLen _ hB, blockOff_last _ hB]
  intro c hc
  obtain ⟨k, hk, rfl⟩ := List.mem_iff_getElem.1 hc
  exact length_getElem_splitBlocks data hB hk ▸ blockLen_le ..

/-- Data codeword `i` of block `b`, in the rounds that serve every block. -/
theorem getD_dataRounds (data : List Byte) (hb : b < B) (hi : i < data.length / B) :
    (roundRobin (splitBlocks data B) (data.length / B + 1)).getD (i * B + b) 0 =
      data.getD (blockOff data.length B b + i) 0 := by
  have hB : 1 ≤ B := Nat.zero_lt_of_lt hb
  have hcount := length_splitBlocks data B
  have served := le_length_of_mem_splitBlocks (data := data) hB
  have inside : i * B + b < (roundRobin (splitBlocks data B) (data.length / B)).length :=
    length_roundRobin_of_le hcount served ▸ round_index_lt hi hb
  rw [roundRobin_succ, getD_append_of_lt inside, getD_roundRobin hcount served hi (hcount.symm ▸ hb),
    getElem_splitBlocks, getD_block data (Nat.lt_of_lt_of_le hi (le_blockLen ..))]

/-- The last data codeword of a long block, in the round after those. -/
theorem getD_dataRounds_last (data : List Byte) (hb : b < B) (hlong : B - data.length % B ≤ b) :
    (roundRobin (splitBlocks data B) (data.length / B + 1)).getD
        (data.length / B * B + (b - (B - data.length % B))) 0 =
      data.getD (blockOff data.length B b + data.length / B) 0 := by
  have hB : 1 ≤ B := Nat.zero_lt_of_lt hb
  have hlength := length_roundRobin_of_le (length_splitBlocks data B) (le_length_of_mem_splitBlocks hB)
  have inside : b - (B - data.length % B) < ((splitBlocks data B).drop (B - data.length % B)).length := by
    rw [List.length_drop, length_splitBlocks]
    omega
  have index : B - data.length % B + (b - (B - data.length % B)) = b := Nat.add_sub_cancel' hlong
  rw [roundRobin_succ, getD_append_of_length hlength, filterMap_splitBlocks_last data hB,
    getD_of_lt (by rwa [List.length_map]), List.getElem_map, List.getElem_drop]
  simp only [index]
  rw [getElem_splitBlocks, getD_block data (by rw [blockLen_of_long hlong]; exact Nat.lt_succ_self _)]

/-- A `mapM` that answers gives the answers in the order of the entries. -/
theorem getElem_of_mapM {α β : Type} {f : α → Except ErrCode β} {l : List α} {r : List β} (h : l.mapM f = .ok r)
    {b : Nat} (hl : b < l.length) (hr : b < r.length) : f l[b] = .ok r[b] := by
  induction l generalizing r b with
  | nil => exact absurd hl (Nat.not_lt_zero b)
  | cons a l ih =>
    rw [List.mapM_cons] at h
    obtain ⟨c, hc, h⟩ := bind_eq_ok.1 h
    obtain ⟨cs, hcs, h⟩ := bind_eq_ok.1 h
    cases h
    cases b with
    | zero => exact hc
    | succ b => exact ih hcs (Nat.lt_of_succ_lt_succ hl) (Nat.lt_of_succ_lt_succ hr)

theorem exists_mapM {α β : Type} {f : α → Except ErrCode β} {l : List α} (h : ∀ a ∈ l, ∃ b, f a = .ok b) :
    ∃ r, l.mapM f = .ok r := by
  induction l with
  | nil => exact ⟨[], rfl⟩
  | cons a l ih =>
    obtain ⟨⟨b, hb⟩, hl⟩ := List.forall_mem_cons.1 h
    obtain ⟨r, hr⟩ := ih hl
    rw [List.mapM_cons]
    exact ⟨b :: r, bind_eq_ok.2 ⟨b, hb, bind_eq_ok.2 ⟨r, hr, rfl⟩⟩⟩

/-- What a stream consists of: the data rounds, then the rounds over the remainders, one of `E` codewords per block. -/
theorem interleaved_eq_ok (h : interleaved data B E = .ok out) :
    ∃ eccs, eccs.length = B ∧ (∀ e ∈ eccs, e.length = E) ∧
      (∀ b (hl : b < (splitBlocks data B).length) (hr : b < eccs.length),
        rsRem (splitBlocks data B)[b] (rsGen E) = .ok eccs[b]) ∧
      out = roundRobin (splitBlocks data B) (data.length / B + 1) ++ roundRobin eccs E := by
  obtain ⟨eccs, heccs, hout⟩ := bind_eq_ok.1 h
  cases hout
  obtain ⟨hcount, hmem⟩ := mapM_eq_ok heccs
  refine ⟨eccs, hcount.trans (length_splitBlocks data B), fun e he => ?_, fun b => getElem_of_mapM heccs, rfl⟩
  obtain ⟨c, -, hc⟩ := hmem e he
  rw [length_rsRem hc, length_rsGen, Nat.add_sub_cancel]

/-- Every block has its remainder, as the generator is monic. -/
theorem exists_interleaved (data : List Byte) (B E : Nat) : ∃ out, interleaved data B E = .ok out := by
  have remainders : ∀ c ∈ splitBlocks data B, ∃ e, rsRem c (rsGen E) = .ok e := fun c _ =>
    (exists_rsRem (getD_zero_rsGen_ne_zero E) c).imp fun _ h => h.1
  obtain ⟨eccs, heccs⟩ := exists_mapM remainders
  exact ⟨_, bind_eq_ok.2 ⟨eccs, heccs, rfl⟩⟩

end

/-- Settles O30: the data rounds end before the ECC rounds begin, and every ECC round serves every block. -/
theorem interleavingPositions : Obligations.InterleavingPositions := by
  intro data out B E hB h
  refine ⟨length_interleaved hB h, fun b hb => ?_⟩
  obtain ⟨eccs, hcount, hlength, heccs, rfl⟩ := interleaved_eq_ok h
  have hdata := length_roundRobin_splitBlocks data hB
  refine ⟨fun i hi => ?_, fun hlong => ?_, ?_⟩
  · have inside : i * B + b < (roundRobin (splitBlocks data B) (data.length / B + 1)).length := by
      rw [hdata]
      exact Nat.lt_of_lt_of_le (round_index_lt hi hb) (Nat.div_mul_le_self ..)
    exact (getD_append_of_lt inside _).trans (getD_dataRounds data hb hi)
  · have inside : data.length / B * B + (b - (B - data.length % B)) <
        (roundRobin (splitBlocks data B) (data.length / B + 1)).length := by
      have division := Nat.div_add_mod' data.length B
      have remainder := Nat.mod_lt data.length hB
      omega
    exact (getD_append_of_lt inside _).trans (getD_dataRounds_last data hb hlong)
  · have hb' : b < (splitBlocks data B).length := by rwa [length_splitBlocks]
    have hrem := heccs b hb' (hcount.symm ▸ hb)
    rw [getElem_splitBlocks] at hrem
    refine ⟨_, hrem, fun i hi => ?_⟩
    rw [Nat.add_assoc, getD_append_of_length hdata]
    exact getD_roundRobin hcount (fun e he => Nat.le_of_eq (hlength e he).symm) hi _

/-! ### The commands (R140 to R143) -/

/-- RSGEN and RSSYN take their degree first (R148). -/
theorem runCommand_degree_ok {i : Instr} {s : State} {r : XReg} {k : Nat → Except ErrCode State}
    (h1 : 1 ≤ (readX s r).toNat) (h255 : (readX s r).toNat ≤ 255) :
    runCommand i s (degree s r >>= k) = runCommand i s (k (readX s r).toNat) :=
  runCommand_bind_ok (degree_eq_ok.2 ⟨⟨h1, h255⟩, rfl⟩)

theorem runCommand_degree_error {i : Instr} {s : State} {r : XReg} {k : Nat → Except ErrCode State}
    (h : readX s r = 0 ∨ 255 < (readX s r).toNat) :
    runCommand i s (degree s r >>= k) = .next (enterFault .rangeError (encode i) s) := by
  refine runCommand_bind_error (degree_eq_error.2 ⟨fun ⟨h1, h255⟩ => ?_, rfl⟩)
  obtain h0 | habove := h
  · rw [h0] at h1
    exact absurd h1 (by decide)
  · exact Nat.not_le.2 habove h255

/-- The count of RSSYN is that of the roots where the code word is not zero. -/
theorem length_filter_syndromes (c : List Byte) (n : Nat) :
    ((syndromes c n).filter (· ≠ 0)).length = (List.range n).countP fun i => polyEval c (romExp i) ≠ 0 := by
  rw [← List.countP_eq_length_filter, syndromes, List.countP_map]
  rfl

/-- Settles O28: the degree is accepted; RSREM's three checks pass, and the division runs to its end. -/
theorem rsRegisterCommandsComplete : Obligations.RsRegisterCommandsComplete := by
  intro s rd rs1 pd pa pb
  refine ⟨fun h1 h255 => ⟨runCommand_degree_ok h1 h255, ?_⟩, fun h2 hsum hlead => ?_⟩
  · rw [← length_filter_syndromes]
    exact runCommand_degree_ok h1 h255
  · obtain ⟨e, he, -⟩ := exists_rsRem hlead (readP s pa)
    refine ⟨e, he, length_rsRem he, ?_⟩
    calc exec (.rsrem pd pa pb) s
      _ = runCommand (.rsrem pd pa pb) s _ := rfl
      _ = _ := runCommand_bind_ok (require_pos h2 _)
      _ = _ := runCommand_bind_ok (require_pos hsum _)
      _ = _ := runCommand_bind_ok (require_pos hlead _)
      _ = _ := runCommand_bind_ok he

/-- Settles O31: RSREM tests the lengths before the leading coefficient, RSENC the version before `DLEN`. -/
theorem rsCommandsFault : Obligations.RsCommandsFault := by
  intro s rd rs1 pd pa pb
  refine ⟨fun h => ⟨runCommand_degree_error h, runCommand_degree_error h⟩, fun h => ?_, fun h2 hsum h0 => ?_, fun h => ?_⟩
  · by_cases h2 : (readP s pb).length ≥ 2
    · exact (runCommand_bind_ok (require_pos h2 _)).trans
        (runCommand_require_neg (Nat.not_le.2 (h.resolve_left (Nat.not_lt.2 h2))))
    · exact runCommand_require_neg h2
  · calc exec (.rsrem pd pa pb) s
      _ = runCommand (.rsrem pd pa pb) s _ := rfl
      _ = _ := runCommand_bind_ok (require_pos h2 _)
      _ = _ := runCommand_bind_ok (require_pos hsum _)
      _ = _ := runCommand_require_neg (Decidable.not_not.2 h0)
  · by_cases hv : s.ver = 0
    · exact runCommand_require_neg (Decidable.not_not.2 hv)
    · exact (runCommand_bind_ok (require_pos hv _)).trans (runCommand_require_neg (h.resolve_left hv))

theorem readAll_zero (m : Memory) (n : Nat) : m.readAll 0 n = (List.range n).map fun i => m.read i := by
  simp only [Memory.readAll, Nat.zero_add]

/-- Settles O29: both checks of RSENC pass, and the stream it writes is as long as the capacity tables say. -/
theorem rsencComplete : Obligations.RsencComplete := by
  intro s hinv hver hdlen
  obtain ⟨⟨-, -, hfcw, -⟩, -, -, ⟨hv, -, -⟩, -⟩ := hinv
  have hv1 : 1 ≤ s.ver.toNat := Nat.pos_of_ne_zero fun h0 => hver (BitVec.eq_of_toNat_eq h0)
  obtain ⟨-, -, hB, htotal, -⟩ := capacityOk hv1 hv (level s)
  obtain ⟨out, hout⟩ := exists_interleaved (s.dcw.readAll 0 s.dlen.toNat) (nblk s.ver.toNat (level s))
    (eccPerBlock s.ver.toNat (level s))
  have hlength : out.length = totalCw s.ver.toNat := by
    rw [length_interleaved hB hout, Memory.length_readAll, hdlen, Nat.mul_comm, htotal]
  refine ⟨out, s.fcw.writeAll 0 out, readAll_zero s.dcw _ ▸ hout, hlength, ?_, fun b => ?_⟩
  · calc exec .rsenc s
      _ = runCommand .rsenc s _ := rfl
      _ = _ := runCommand_bind_ok (require_pos hver _)
      _ = _ := runCommand_bind_ok (require_pos hdlen _)
      _ = _ := runCommand_bind_ok hout
  · rw [Memory.read_writeAll hfcw, hlength, Nat.zero_add, Nat.sub_zero]
    exact ite_congr (propext (and_iff_right (Nat.zero_le b))) (fun _ => rfl) fun _ => rfl

end Sys2Proof.Machine
end

/-! # The packer: terminator, alignment, padding and the faults; the write window (R160, R161, R165 to R172, R269) -/

section
namespace Sys2Proof.Machine

/-- Settles O32: each payload has the bits that `payloadBits` counts for its mode. -/
theorem payloadLengths : Obligations.PayloadLengths := fun ch =>
  ⟨length_numericPayload ch, length_alnumPayload ch, length_bytePayload ch⟩

/-! ### BTERM, BALIGN and BPAD -/

/-- The terminator and the alignment bits are zeros (R166, R167). -/
theorem bitsOf_zero (n : Nat) : bitsOf 0 n = List.replicate n false := by
  simp [bitsOf, List.map_const']

/-- Pad codeword `k` is 0xEC where `k` is even and 0x11 where it is odd, most significant bit first (R168). -/
theorem getD_padBits {n k j : Nat} (hk : k < n) (hj : j < 8) :
    (padBits n).getD (8 * k + j) false = Nat.testBit (if k % 2 = 0 then 0xEC else 0x11) (7 - j) := by
  induction n with
  | zero => cases hk
  | succ n ih =>
    have grown : padBits (n + 1) = padBits n ++ bitsOf (if n % 2 = 0 then 0xEC else 0x11) 8 := by
      simp [padBits, List.range_succ]
    obtain hk | rfl := Nat.lt_succ_iff_lt_or_eq.1 hk
    · have inside : 8 * k + j < (padBits n).length := by
        rw [length_padBits]
        omega
      rw [grown, List.getD_eq_getElem?_getD, List.getElem?_append_left inside, ← List.getD_eq_getElem?_getD, ih hk]
    · rw [grown, ← length_padBits k, getD_append_add, getD_bitsOf hj]

/-- In stage 2 the pad codewords fill the capacity, which is what the invariant says of stage 3 (R168). -/
theorem EngineInv.length_append_padBits {s : State} (h : EngineInv s) (hs : s.bstage = 2) :
    s.bb.length + (padBits (dataCwNow s - bbLen s / 8)).length = capBits s := by
  obtain ⟨-, -, -, filled⟩ := (h.bpad ⟨hs, rfl⟩).buffer
  exact List.length_append.symm.trans (filled rfl)

/-- Settles O34: every check passes, and what is appended is read off the bits of zero and of the pad codewords. -/
theorem closingCommandsComplete : Obligations.ClosingCommandsComplete := by
  intro s
  refine ⟨fun hver hs h1 hcap => ?_, fun hs => ?_, fun hs h => ⟨_, runCommand_bind_ok (require_pos hs _),
    h.length_append_padBits hs, fun k j hj hk => getD_padBits ?_ hj⟩⟩
  · rw [← bitsOf_zero]
    calc exec .bterm s
      _ = runCommand .bterm s _ := rfl
      _ = _ := runCommand_bind_ok (require_pos hver _)
      _ = _ := runCommand_bind_ok (require_pos hs _)
      _ = _ := runCommand_bind_ok (require_pos h1 _)
      _ = _ := runCommand_bind_ok (require_pos hcap _)
  · rw [← bitsOf_zero]
    exact runCommand_bind_ok (require_pos hs _)
  · rw [length_padBits] at hk
    omega

/-! ### The write window -/

theorem not_writeWindow_iff {s : State} : ¬writeWindow s ↔ s.phase ≠ 0 ∨ s.bb ≠ [] ∨ s.flen ≠ 0 := by
  rw [writeWindow_iff, Decidable.not_and_iff_or_not, Decidable.not_and_iff_or_not]

/-- A write to `VER` or `ECL` completes inside the write window only (R269). -/
theorem Effect.writeWindow {s u : State} {c : Csr} {r : XReg} (h : Effect s u (.csrw c r)) (hc : c = .ver ∨ c = .ecl) :
    writeWindow s := by
  obtain ⟨-, hw, -⟩ | ⟨-, hw, -⟩ | ⟨rfl, -⟩ | ⟨rfl, -⟩ := h
  · exact hw
  · exact hw
  · exact hc.elim nofun nofun
  · exact hc.elim nofun nofun

/-- The capacity depends on `VER` and `ECL` only (R172). -/
theorem capBits_congr {s t : State} (hver : t.ver = s.ver) (hecl : t.ecl = s.ecl) : capBits t = capBits s := by
  rw [capBits, dataCwNow, level, hver, hecl]

/-- Settles O56: a fault leaves `VER` and `ECL` alone, and a completing command that writes one is inside the window. -/
theorem versionFrozenOutsideWindow : Obligations.VersionFrozenOutsideWindow := by
  intro s t i h hi hclosed
  have closed : ¬writeWindow s := not_writeWindow_iff.2 hclosed
  obtain ⟨e, rfl⟩ | ⟨u, rfl, hu⟩ := exec_inversion h
  · exact ⟨rfl, rfl, rfl⟩
  · have hver : u.ver = s.ver := (hu.frame hi).ver fun r hr => closed ((hr ▸ hu).writeWindow (.inl rfl))
    have hecl : u.ecl = s.ecl := (hu.frame hi).ecl fun r hr => closed ((hr ▸ hu).writeWindow (.inr rfl))
    exact ⟨hver, hecl, capBits_congr (t := complete u) hver hecl⟩

/-! ### The faults -/

/-- The fault of a command whose first check is `c`, read off a list of failed checks in the order tested: `e` where `c`
fails, and the fault of the rest where it holds. -/
theorem runCommand_fault_of_ite {i : Instr} {s : State} {c failing : Prop} [Decidable c] [Decidable failing] {e : ErrCode}
    {k : Unit → Except ErrCode State} {rest : Option ErrCode} (hc : failing ↔ ¬c)
    (hrest : c → ∀ e', rest = some e' → runCommand i s (k ()) = .next (enterFault e' (encode i) s)) :
    ∀ e', (if failing then some e else rest) = some e' →
      runCommand i s (require c e >>= k) = .next (enterFault e' (encode i) s) := by
  intro e' he
  by_cases h : c
  · rw [if_neg (fun hf => hc.1 hf h)] at he
    exact (runCommand_bind_ok (require_pos h e)).trans (hrest h e' he)
  · rw [if_pos (hc.2 h)] at he
    cases he
    exact runCommand_require_neg h

/-- Two checks with one fault are one entry of a list of failed checks, or two. -/
theorem ite_or_eq_ite_ite {α : Type} {p q : Prop} [Decidable p] [Decidable q] (x y : α) :
    (if p ∨ q then x else y) = if p then x else if q then x else y := by
  by_cases hp : p
  · rw [if_pos hp, if_pos (.inl hp)]
  · simp only [hp, false_or, if_false]

/-- BSEG's character check fails where some character is no digit, or not in the table (R161). -/
theorem not_all_carries_iff {m : Mode} {ch : List Byte} (hm : m ≠ .kanji) :
    ((m = .numeric ∧ ∃ c ∈ ch, c.toNat < 0x30 ∨ 0x39 < c.toNat) ∨
      (m = .alphanumeric ∧ ∃ c ∈ ch, c.toNat ∉ alnumTable)) ↔ ¬ch.all (carries m) = true := by
  cases m with
  | numeric => simp [carries, -not_and, Decidable.not_and_iff_or_not]
  | alphanumeric => simp [carries, alnumValue]
  | byte => simp [carries]
  | kanji => exact absurd rfl hm

/-- BAPP's value fits its width: a width of 32 holds every register (R160). -/
theorem bapp_fits_iff (v : Word) {n : Nat} : (n = 32 ∨ v.toNat < 2 ^ n) ↔ v.toNat < 2 ^ n :=
  or_iff_right_of_imp fun h => h ▸ v.isLt

/-- Settles O36: each fault is that of the first check that fails; BSEG's seven are read in order. -/
theorem packerCommandsFault : Obligations.PackerCommandsFault := by
  intro s m rs1 rs2
  refine ⟨runCommand_require_neg, fun hs h => ?_, fun hs h32 hv hroom => ?_, ?_, fun h => ?_, fun hver hs hbb => ?_,
    fun hver hs hbb hcap => ?_, runCommand_require_neg, runCommand_require_neg⟩
  · refine (runCommand_bind_ok (require_pos hs _)).trans ?_
    by_cases h32 : (readX s rs2).toNat ≤ 32
    · have wide : ¬(readX s rs1).toNat < 2 ^ (readX s rs2).toNat := Nat.not_lt.2 (h.resolve_left (Nat.not_lt.2 h32))
      exact (runCommand_bind_ok (natUpTo_eq_ok.2 ⟨h32, rfl⟩)).trans
        (runCommand_require_neg (mt (bapp_fits_iff _).1 wide))
    · exact runCommand_bind_error (natUpTo_eq_error.2 ⟨h32, rfl⟩)
  · calc exec (.bapp rs1 rs2) s
      _ = runCommand (.bapp rs1 rs2) s _ := rfl
      _ = _ := runCommand_bind_ok (require_pos hs _)
      _ = _ := runCommand_bind_ok (natUpTo_eq_ok.2 ⟨h32, rfl⟩)
      _ = _ := runCommand_bind_ok (require_pos (.inr hv) _)
      _ = _ := runCommand_require_neg (Nat.not_le.2 hroom)
  · obtain ⟨t, ht⟩ : ∃ t, exec (.bseg m rs1 rs2) s = .next t := runCommand_next ..
    refine ⟨t, ht, fun e he => Host.Outcome.next.inj (ht.symm.trans ?_)⟩
    revert e
    simp only [ite_or_eq_ite_ite (p := s.ver = 0)]
    exact runCommand_fault_of_ite Decidable.not_not.symm fun _ =>
      runCommand_fault_of_ite Iff.rfl fun _ =>
      runCommand_fault_of_ite Decidable.not_not.symm fun hm =>
      runCommand_fault_of_ite (Nat.lt_one_iff.symm.trans Nat.not_le.symm) fun _ =>
      runCommand_fault_of_ite Nat.not_le.symm fun _ =>
      runCommand_fault_of_ite Nat.not_lt.symm fun _ =>
      runCommand_fault_of_ite (not_all_carries_iff hm) fun _ =>
      runCommand_fault_of_ite Nat.not_le.symm fun _ => nofun
  · by_cases hver : s.ver = 0
    · exact runCommand_require_neg (Decidable.not_not.2 hver)
    · exact (runCommand_bind_ok (require_pos hver _)).trans (runCommand_require_neg (h.resolve_left hver))
  · calc exec .bterm s
      _ = runCommand .bterm s _ := rfl
      _ = _ := runCommand_bind_ok (require_pos hver _)
      _ = _ := runCommand_bind_ok (require_pos hs _)
      _ = _ := runCommand_require_neg (by simp [hbb])
  · calc exec .bterm s
      _ = runCommand .bterm s _ := rfl
      _ = _ := runCommand_bind_ok (require_pos hver _)
      _ = _ := runCommand_bind_ok (require_pos hs _)
      _ = _ := runCommand_bind_ok (require_pos (List.length_pos_iff.2 hbb) _)
      _ = _ := runCommand_require_neg (Nat.not_le.2 hcap)

end Sys2Proof.Machine
end

/-! # The function patterns: five commands, one phase each, and the map they make (R180 to R185, R188, R190) -/

section
namespace Sys2Proof.Machine

/-- The side of a version fits the `SIZE` register (R30, R180). -/
theorem toNat_sideOf {v : Nat} (h40 : v ≤ 40) : (BitVec.ofNat 8 (sideOf v)).toNat = sideOf v := by
  rw [BitVec.toNat_ofNat, sideOf]
  omega

section
variable {s : State}

/-- MINIT with a version set, in phase 0 (R180). -/
theorem exec_minit (hv : s.ver ≠ 0) (hp : s.phase = 0) :
    exec .minit s = .next (complete { s with
      size := BitVec.ofNat 8 (sideOf s.ver.toNat), mat := emptyGrid (sideOf s.ver.toNat), mask := 0, phase := 1 }) :=
  (runCommand_bind_ok (require_pos hv _)).trans (runCommand_bind_ok (require_pos hp _))

/-- MFIND in phase 1 (R181). -/
theorem exec_mfind (hp : s.phase = 1) :
    exec .mfind s =
      .next (complete { s with mat := s.mat.setfAll (finderCells s.size.toNat), phase := 2 }) :=
  runCommand_bind_ok (require_pos hp _)

/-- MTIME in phase 2 (R182). -/
theorem exec_mtime (hp : s.phase = 2) :
    exec .mtime s =
      .next (complete { s with mat := s.mat.setfAll (timingCells s.size.toNat), phase := 3 }) :=
  runCommand_bind_ok (require_pos hp _)

/-- MALIGN in phase 3 (R183). -/
theorem exec_malign (hp : s.phase = 3) :
    exec .malign s =
      .next (complete { s with mat := s.mat.setfAll (alignmentCells s.size.toNat s.ver.toNat), phase := 4 }) :=
  runCommand_bind_ok (require_pos hp _)

/-- MRSV in phase 4 (R185). -/
theorem exec_mrsv (hp : s.phase = 4) :
    exec .mrsv s =
      .next (complete { s with
        mat := ((s.mat.reserveAll (formatCells s.size.toNat)).setf (s.size.toNat - 8, 8) .dark).reserveAll
          (versionCells s.size.toNat s.ver.toNat)
        phase := 5 }) :=
  runCommand_bind_ok (require_pos hp _)

end

/-- Settles O38: each command leaves the phase the next one asks for, and `SIZE` reads back as the version's side. -/
theorem patternCommandsComplete : Obligations.PatternCommandsComplete := by
  refine ⟨fun s hv h40 hp => ?_, fun s => ⟨exec_minit, exec_mfind, exec_mtime, exec_malign, exec_mrsv⟩⟩
  refine ⟨_, _, _, _, _, exec_minit hv hp, exec_mfind rfl, exec_mtime rfl, exec_malign rfl, exec_mrsv rfl, ?_,
    toNat_sideOf h40, rfl⟩
  simp only [complete, toNat_sideOf h40, functionPattern]

/-- Settles O39: the map is computed, all 441 cells of it. -/
theorem version1FunctionMap : Obligations.Version1FunctionMap := by
  unfold Obligations.Version1FunctionMap
  decide +kernel

end Sys2Proof.Machine
end

/-! # The scan and MDATA: strips, zigzag order, the stream's bits in the scan's cells (R200, R201) -/

section
namespace Sys2Proof.Machine

/-! ### Strips on a matrix of any side -/

/-- The strips go left, each past the two columns of the one before it. -/
theorem stripsFrom_descend (fuel right : Nat) (up : Bool) :
    (∀ t ∈ stripsFrom fuel right up, 1 ≤ t.1 ∧ t.1 ≤ right) ∧
    (stripsFrom fuel right up).Pairwise fun t u => u.1 + 2 ≤ t.1 := by
  induction fuel generalizing right up with
  | zero => exact ⟨nofun, .nil⟩
  | succ fuel ih =>
    rw [stripsFrom]
    split
    · next hright =>
      obtain ⟨range, order⟩ := ih ((if right = 6 then 5 else right) - 2) (!up)
      have first : 1 ≤ (if right = 6 then 5 else right) ∧ (if right = 6 then 5 else right) ≤ right := by
        split <;> omega
      refine ⟨List.forall_mem_cons.2 ⟨first, fun t ht => ?_⟩, List.pairwise_cons.2 ⟨fun t ht => ?_, order⟩⟩
      · have := range t ht
        omega
      · have := range t ht
        show t.1 + 2 ≤ if right = 6 then 5 else right
        omega
    · exact ⟨nofun, .nil⟩

/-- The rows of a strip in the order it sweeps them (R201). -/
def sweep (S : Nat) (up : Bool) : List Nat := if up then (List.range S).reverse else List.range S

theorem mem_sweep {S r : Nat} {up : Bool} : r ∈ sweep S up ↔ r < S := by
  cases up <;> simp [sweep]

theorem stripCells_eq (g : Grid) (S right : Nat) (up : Bool) :
    stripCells g S right up =
      (sweep S up).flatMap fun r => [(r, right), (r, right - 1)].filter fun rc => !(g.cell rc.1 rc.2).reserved := rfl

/-- A strip holds the unreserved cells of its two columns. -/
theorem mem_stripCells {g : Grid} {S right r c : Nat} {up : Bool} :
    (r, c) ∈ stripCells g S right up ↔ r < S ∧ (c = right ∨ c = right - 1) ∧ (g.cell r c).reserved = false := by
  simp only [stripCells_eq, List.mem_flatMap, mem_sweep, List.mem_filter, List.mem_cons, List.not_mem_nil, or_false,
    Prod.mk.injEq, Bool.not_eq_true']
  constructor
  · rintro ⟨r', hr, ⟨rfl, rfl⟩ | ⟨rfl, rfl⟩, hm⟩
    · exact ⟨hr, .inl rfl, hm⟩
    · exact ⟨hr, .inr rfl, hm⟩
  · rintro ⟨hr, rfl | rfl, hm⟩
    · exact ⟨r, hr, .inl ⟨rfl, rfl⟩, hm⟩
    · exact ⟨r, hr, .inr ⟨rfl, rfl⟩, hm⟩

theorem mem_scanOrder {g : Grid} {S r c : Nat} :
    (r, c) ∈ scanOrder g S ↔
      (∃ t ∈ stripsFrom S (S - 1) true, c = t.1 ∨ c = t.1 - 1) ∧ r < S ∧ (g.cell r c).reserved = false := by
  simp only [scanOrder, List.mem_flatMap, mem_stripCells]
  constructor
  · rintro ⟨t, ht, hr, hc, hm⟩
    exact ⟨⟨t, ht, hc⟩, hr, hm⟩
  · rintro ⟨⟨t, ht, hc⟩, hr, hm⟩
    exact ⟨t, ht, hr, hc, hm⟩

/-- The scan stays in the matrix, on cells that are not reserved. -/
theorem of_mem_scanOrder {g : Grid} {S r c : Nat} (h : (r, c) ∈ scanOrder g S) :
    r < S ∧ c < S ∧ (g.cell r c).reserved = false := by
  obtain ⟨⟨t, ht, hc⟩, hr, hm⟩ := mem_scanOrder.1 h
  have := (stripsFrom_descend S (S - 1) true).1 t ht
  exact ⟨hr, by omega, hm⟩

/-- A strip whose cells are compared row by row, and in a row the right cell before the left, is in order. -/
theorem pairwise_stripCells {R : Nat × Nat → Nat × Nat → Prop} {g : Grid} {S right : Nat} {up : Bool}
    (hrow : ∀ r, r < S → R (r, right) (r, right - 1))
    (hrows : (sweep S up).Pairwise fun r r' =>
      ∀ c c', (c = right ∨ c = right - 1) → (c' = right ∨ c' = right - 1) → R (r, c) (r', c')) :
    (stripCells g S right up).Pairwise R := by
  rw [stripCells_eq, List.pairwise_flatMap]
  refine ⟨fun r hr => List.Pairwise.filter _ ?_, hrows.imp fun h x hx y hy => ?_⟩
  · simpa using hrow r (mem_sweep.1 hr)
  · have hx := (List.mem_filter.1 hx).1
    have hy := (List.mem_filter.1 hy).1
    simp only [List.mem_cons, List.not_mem_nil, or_false] at hx hy
    obtain rfl | rfl := hx <;> obtain rfl | rfl := hy <;> exact h _ _ (by simp) (by simp)

theorem pairwise_lt_sweep_false (S : Nat) : (sweep S false).Pairwise (· < ·) := List.pairwise_lt_range

theorem pairwise_gt_sweep_true (S : Nat) : (sweep S true).Pairwise (· > ·) :=
  List.pairwise_reverse.2 List.pairwise_lt_range

theorem nodup_sweep (S : Nat) (up : Bool) : (sweep S up).Nodup := by
  cases up with
  | false => exact (pairwise_lt_sweep_false S).imp Nat.ne_of_lt
  | true => exact (pairwise_gt_sweep_true S).imp Nat.ne_of_gt

/-- No cell is visited twice, on a matrix of any side. -/
theorem nodup_scanOrder (g : Grid) (S : Nat) : (scanOrder g S).Nodup := by
  obtain ⟨range, order⟩ := stripsFrom_descend S (S - 1) true
  refine List.pairwise_flatMap.2 ⟨fun t ht => pairwise_stripCells (fun r _ he => ?_) ?_, order.imp ?_⟩
  · have := range t ht
    have := congrArg Prod.snd he
    simp only at this
    omega
  · exact (nodup_sweep S t.2).imp fun hne c c' _ _ he => hne (congrArg Prod.fst he)
  · rintro t u htu ⟨r, c⟩ hx ⟨r', c'⟩ hy he
    obtain ⟨-, hc, -⟩ := mem_stripCells.1 hx
    obtain ⟨-, hc', -⟩ := mem_stripCells.1 hy
    have := congrArg Prod.snd he
    simp only at this
    omega

/-! ### Strips on a matrix of a version's side -/

/-- The right-hand column of the strip after which `n - 1` more follow: column 6 belongs to none. -/
def stripRight (n : Nat) : Nat := if 4 ≤ n then 2 * n else 2 * n - 1

/-- The column at which the scan stands with `n` strips to go: 6 before the strip that skips column 6. -/
def scanColumn (n : Nat) : Nat := if 3 ≤ n then 2 * n else 2 * n - 1

theorem skip_scanColumn (n : Nat) : (if scanColumn (n + 1) = 6 then 5 else scanColumn (n + 1)) = stripRight (n + 1) := by
  unfold scanColumn stripRight
  split <;> split <;> split <;> omega

theorem stripRight_sub_two (n : Nat) : stripRight (n + 1) - 2 = scanColumn n := by
  unfold scanColumn stripRight
  split <;> split <;> omega

/-- The strips from number `first` on, with `n` to go; the even ones are swept upward. -/
theorem stripsFrom_scanColumn {n fuel : Nat} (h : n ≤ fuel) (first : Nat) :
    stripsFrom fuel (scanColumn n) (decide (first % 2 = 0)) =
      (List.range n).map fun k => (stripRight (n - k), decide ((first + k) % 2 = 0)) := by
  induction n generalizing fuel first with
  | zero => cases fuel <;> rfl
  | succ n ih =>
    obtain _ | fuel := fuel
    · omega
    have flip : (!decide (first % 2 = 0)) = decide ((first + 1) % 2 = 0) := by
      rw [← decide_not, decide_eq_decide]
      omega
    have positive : 1 ≤ scanColumn (n + 1) := by
      unfold scanColumn
      split <;> omega
    rw [stripsFrom, if_pos positive]
    simp only [skip_scanColumn, stripRight_sub_two, flip, ih (Nat.le_of_succ_le_succ h)]
    rw [List.range_succ_eq_map, List.map_cons, List.map_map]
    simp [Function.comp_def, Nat.add_comm, Nat.add_left_comm]

/-- The strips of a version's side, by their number from the right. -/
theorem strips_sideOf (v : Nat) :
    stripsFrom (sideOf v) (sideOf v - 1) true =
      (List.range (2 * v + 8)).map fun k => (stripRight (2 * v + 8 - k), decide (k % 2 = 0)) := by
  have side : sideOf v - 1 = scanColumn (2 * v + 8) := by
    unfold sideOf scanColumn
    split <;> omega
  have strips := stripsFrom_scanColumn (n := 2 * v + 8) (fuel := sideOf v) (by unfold sideOf; omega) 0
  simpa only [side, Nat.zero_add, Nat.zero_mod, decide_true] using strips

/-- Row `r` of strip `k`, in the order of the sweep. -/
def sweepRow (S k r : Nat) : Nat := if k % 2 = 0 then S - 1 - r else r

theorem sweepRow_lt {S r : Nat} (k : Nat) (h : r < S) : sweepRow S k r < S := by
  unfold sweepRow
  split <;> omega

/-- The sweep of strip `k` takes the rows in the order of `sweepRow`. -/
theorem pairwise_sweepRow (S k : Nat) :
    (sweep S (decide (k % 2 = 0))).Pairwise fun r r' => sweepRow S k r < sweepRow S k r' := by
  have inside : ∀ {up r}, r ∈ sweep S up → r < S := fun h => mem_sweep.1 h
  by_cases h : k % 2 = 0
  · simp only [h, decide_true, sweepRow, if_true]
    refine (pairwise_gt_sweep_true S).imp_of_mem fun hr hr' hgt => ?_
    have := inside hr
    omega
  · simp only [h, decide_false, sweepRow, if_false]
    exact pairwise_lt_sweep_false S

/-- The place in the zigzag of the cells of strip `k`: two places for each row. -/
theorem zigzagRank_strip {v k r c : Nat} (hk : k < 2 * v + 8)
    (hc : c = stripRight (2 * v + 8 - k) ∨ c = stripRight (2 * v + 8 - k) - 1) :
    zigzagRank (sideOf v) (r, c) =
      2 * (k * sideOf v + sweepRow (sideOf v) k r) + if c = stripRight (2 * v + 8 - k) then 0 else 1 := by
  have fromRight : sideOf v - 1 - c - (if c < 6 then 1 else 0) =
      2 * k + if c = stripRight (2 * v + 8 - k) then 0 else 1 := by
    unfold stripRight sideOf at *
    split at hc <;> split <;> split <;> omega
  have half : ∀ b : Nat, b < 2 → (2 * k + b) / 2 = k ∧ (2 * k + b) % 2 = b := by omega
  obtain ⟨hstrip, hside⟩ := half (if c = stripRight (2 * v + 8 - k) then 0 else 1) (by split <;> omega)
  simp only [zigzagRank, fromRight, hstrip, hside, sweepRow]

/-- The scan of a version's side is in zigzag order (R201). -/
theorem scanOrder_sorted (g : Grid) (v : Nat) :
    (scanOrder g (sideOf v)).Pairwise fun a b => zigzagRank (sideOf v) a < zigzagRank (sideOf v) b := by
  rw [scanOrder, strips_sideOf, List.pairwise_flatMap]
  refine ⟨fun t ht => ?_, List.pairwise_map.2 (List.pairwise_lt_range.imp_of_mem fun {k l} hk hl hkl => ?_)⟩
  · obtain ⟨k, hk, rfl⟩ := List.mem_map.1 ht
    have hk := List.mem_range.1 hk
    have positive : 1 ≤ stripRight (2 * v + 8 - k) := by unfold stripRight; split <;> omega
    refine pairwise_stripCells (fun r hr => ?_) ((pairwise_sweepRow _ k).imp fun hlt c c' hc hc' => ?_)
    · rw [zigzagRank_strip hk (.inl rfl), zigzagRank_strip hk (.inr rfl), if_pos rfl, if_neg (by omega)]
      omega
    · rw [zigzagRank_strip hk hc, zigzagRank_strip hk hc']
      split <;> split <;> omega
  · rintro ⟨r, c⟩ hx ⟨r', c'⟩ hy
    obtain ⟨hr, hc, -⟩ := mem_stripCells.1 hx
    obtain ⟨-, hc', -⟩ := mem_stripCells.1 hy
    have row := sweepRow_lt k hr
    have strip : (k + 1) * sideOf v ≤ l * sideOf v := Nat.mul_le_mul_right _ hkl
    rw [Nat.succ_mul] at strip
    rw [zigzagRank_strip (List.mem_range.1 hk) hc, zigzagRank_strip (List.mem_range.1 hl) hc']
    split <;> split <;> omega

/-- The strips cover every column of a version's side but column 6. -/
theorem column_in_strip {v c : Nat} :
    (∃ t ∈ stripsFrom (sideOf v) (sideOf v - 1) true, c = t.1 ∨ c = t.1 - 1) ↔ c < sideOf v ∧ c ≠ 6 := by
  rw [strips_sideOf]
  constructor
  · rintro ⟨t, ht, hc⟩
    obtain ⟨k, hk, rfl⟩ := List.mem_map.1 ht
    have hk := List.mem_range.1 hk
    unfold stripRight sideOf at *
    split at hc <;> omega
  · rintro ⟨hc, h6⟩
    refine ⟨_, List.mem_map_of_mem (a := 2 * v + 8 - (if c ≤ 5 then c / 2 + 1 else (c + 1) / 2)) ?_, ?_⟩
    · rw [List.mem_range]
      split <;> omega
    · unfold stripRight sideOf at *
      split <;> split <;> omega

/-- Settles O41: the strips cover the columns but column 6, and the order of the visits excludes a second one. -/
theorem scanVisitsUnreservedCells : Obligations.ScanVisitsUnreservedCells := by
  intro g v _ _ _
  refine ⟨nodup_scanOrder g _, fun r c => ?_, scanOrder_sorted g v⟩
  rw [mem_scanOrder, column_in_strip]
  exact ⟨fun ⟨⟨hc, h6⟩, hr, hm⟩ => ⟨hr, hc, h6, hm⟩, fun ⟨hr, hc, h6, hm⟩ => ⟨⟨hc, h6⟩, hr, hm⟩⟩

/-! ### Painted cells -/

/-- A cell that is not the one changed is kept, wherever either lies. -/
theorem Grid.cell_modify_other (g : Grid) {i j r c : Nat} (f : MatCell → MatCell) (h : (i, j) ≠ (r, c)) :
    Grid.cell (Grid.modify g i j f) r c = Grid.cell g r c := by
  simp only [Grid.cell, Grid.modify, List.getD_eq_getElem?_getD, List.getElem?_modify]
  cases g[r]? with
  | none => rfl
  | some row =>
    by_cases hi : i = r
    · have hj : j ≠ c := fun hj => h (by rw [hi, hj])
      cases hm : row[c]? <;> simp [hi, hj, hm]
    · simp [hi]

theorem Grid.cell_paintAll_of_not_mem {r c : Nat} {ws : List ((Nat × Nat) × Colour)} (h : (r, c) ∉ ws.map Prod.fst)
    (g : Grid) : Grid.cell (g.paintAll ws) r c = Grid.cell g r c := by
  induction ws generalizing g with
  | nil => rfl
  | cons w ws ih =>
    rw [List.map_cons, List.mem_cons, not_or] at h
    obtain ⟨hw, hws⟩ := h
    rw [Grid.paintAll, List.foldl_cons]
    exact (ih hws _).trans (g.cell_modify_other _ (Ne.symm hw))

/-- Where no cell is painted twice, a painted cell has the colour of its own entry. -/
theorem Grid.cell_paintAll_of_mem {g : Grid} {S r c : Nat} {v : Colour} (hg : GridOk g S) (hr : r < S) (hc : c < S)
    {ws : List ((Nat × Nat) × Colour)} (hnodup : (ws.map Prod.fst).Nodup) (h : ((r, c), v) ∈ ws) :
    Grid.cell (g.paintAll ws) r c = ⟨v, (Grid.cell g r c).reserved⟩ := by
  induction ws generalizing g with
  | nil => cases h
  | cons w ws ih =>
    rw [List.map_cons, List.nodup_cons] at hnodup
    obtain ⟨hw, hnodup⟩ := hnodup
    rw [Grid.paintAll, List.foldl_cons]
    obtain rfl | h := List.mem_cons.1 h
    · exact (Grid.cell_paintAll_of_not_mem hw _).trans ((Grid.cell_modify hg hr hc r c _).trans (if_pos ⟨rfl, rfl⟩))
    · have other : w.1 ≠ (r, c) := fun he => hw (he ▸ List.mem_map_of_mem h)
      refine (ih (hg.paint ..) hnodup h).trans ?_
      rw [Grid.paint, g.cell_modify_other _ other]

/-! ### MDATA -/

/-- Bit `k` of the stream, read from the codewords: bit 7 of each first (R200). -/
theorem getD_streamBits (cws : List Byte) (k : Nat) :
    (streamBits cws).getD k false = (cws.getD (k / 8) 0).getLsbD (7 - k % 8) := by
  by_cases h : k / 8 < cws.length
  · have bits := getD_bytePayload cws (k / 8) (k % 8) h (Nat.mod_lt _ (by decide))
    rw [Nat.div_add_mod] at bits
    exact bits
  · have out : (streamBits cws).length ≤ k := by
      have := length_bytePayload cws
      simp only [payloadBits] at this
      change (bytePayload cws).length ≤ k
      omega
    rw [List.getD_eq_getElem?_getD, List.getElem?_eq_none out, List.getD_eq_getElem?_getD,
      List.getElem?_eq_none (Nat.not_lt.1 h)]
    simp

/-- Every cell of the scan is placed once. -/
theorem map_fst_placements (order : List (Nat × Nat)) (bs : List Bool) :
    (placements order bs).map Prod.fst = order :=
  List.map_fst_zip (by simp; omega)

/-- Cell `k` of the scan gets bit `k`, Light past the bits (R200). -/
theorem mem_placements {order : List (Nat × Nat)} {bs : List Bool} {k : Nat} {rc : Nat × Nat} (h : order[k]? = some rc) :
    (rc, colourOf (bs.getD k false)) ∈ placements order bs := by
  have hk : k < order.length := (List.getElem?_eq_some_iff.1 h).1
  refine List.mem_of_getElem? (i := k) (List.getElem?_zip_eq_some.2 ⟨h, ?_⟩)
  rw [List.getElem?_map, List.getD_eq_getElem?_getD, List.getElem?_append, List.getElem?_replicate]
  split
  · next hb => simp [List.getElem?_eq_getElem hb]
  · next hb => rw [if_pos (by omega), List.getElem?_eq_none (Nat.not_lt.1 hb)]; rfl

/-- Byte `i` of a run read from address 0. -/
theorem getD_readAll_zero (m : Memory) (n i : Nat) : (m.readAll 0 n).getD i 0 = if i < n then m.read i else 0 := by
  rw [readAll_zero, List.getD_eq_getElem?_getD, List.getElem?_map]
  split
  · next h => rw [List.getElem?_range h]; rfl
  · next h => rw [List.getElem?_eq_none (by simpa using h)]; rfl

/-- MDATA in phase 5 with the stream of its version (R200). -/
theorem exec_mdata {s : State} (hp : s.phase = 5) (hf : s.flen.toNat = totalCwNow s) :
    exec .mdata s = .next (complete { s with
      mat := s.mat.paintAll (placements (scanOrder s.mat s.size.toNat) (streamBits (s.fcw.readAll 0 s.flen.toNat)))
      phase := 6 }) :=
  (runCommand_bind_ok (require_pos hp _)).trans (runCommand_bind_ok (require_pos hf _))

/-- Settles O42: the scan visits no cell twice, so each of its cells keeps the colour placed there. -/
theorem mdataPlacesStream : Obligations.MdataPlacesStream := by
  intro s hg hp hf
  refine ⟨_, exec_mdata hp hf, fun k r c hk => ?_, fun r c hrc => ?_⟩
  · obtain ⟨hr, hc, hm⟩ := of_mem_scanOrder (List.mem_of_getElem? hk)
    have once := nodup_scanOrder s.mat s.size.toNat
    rw [← map_fst_placements (scanOrder s.mat s.size.toNat) (streamBits (s.fcw.readAll 0 s.flen.toNat))] at once
    rw [Grid.cell_paintAll_of_mem hg hr hc once (mem_placements hk), hm, getD_streamBits, getD_readAll_zero, colourOf]
    have inside : k / 8 < s.flen.toNat ↔ k < 8 * s.flen.toNat := by omega
    by_cases h : k < 8 * s.flen.toNat
    · simp [h, inside]
    · simp [h, inside]
  · exact Grid.cell_paintAll_of_not_mem (by rwa [map_fst_placements]) _

end Sys2Proof.Machine
end

/-! # Masks: MMASK inverts the cells of its condition, MSEL takes the mask of least penalty (R202 to R204, R210) -/

section
namespace Sys2Proof.Machine

/-! ### One mask -/

@[simp] theorem MatCell.reserved_invert (m : MatCell) : m.invert.reserved = m.reserved := rfl

/-- Inverting a cell that is set twice restores it (R202). -/
theorem MatCell.invert_invert {m : MatCell} (h : m.colour ≠ .unset) : m.invert.invert = m := by
  obtain ⟨colour, reserved⟩ := m
  cases colour with
  | unset => exact absurd rfl h
  | light | dark => rfl

/-- A mask changes a cell by its own position (R202). -/
theorem Grid.cell_applyMask {g : Grid} {S r c : Nat} (h : GridOk g S) (hr : r < S) (hc : c < S) (k : Nat) :
    Grid.cell (applyMask g k) r c =
      if !(g.cell r c).reserved && maskCond k r c then (g.cell r c).invert else g.cell r c := by
  obtain ⟨hrows, hcols⟩ := h
  have hr' : r < g.length := hrows ▸ hr
  have hc' : c < g[r].length := by rw [hcols _ (List.getElem_mem hr')]; exact hc
  simp [Grid.cell, applyMask, hr', hc']

/-- A mask applied twice restores a matrix whose unreserved cells are all set (R202). -/
theorem applyMask_applyMask {g : Grid} (h : ∀ row ∈ g, ∀ m ∈ row, m.reserved = false → m.colour ≠ .unset) (k : Nat) :
    applyMask (applyMask g k) k = g := by
  refine List.ext_getElem (by simp [applyMask]) fun r _ hr => List.ext_getElem (by simp [applyMask]) fun c _ hc => ?_
  have set := h _ (List.getElem_mem hr) _ (List.getElem_mem hc)
  simp only [applyMask, List.getElem_mapIdx]
  by_cases hm : (!g[r][c].reserved && maskCond k r c) = true
  · have unreserved : g[r][c].reserved = false := by simpa using (Bool.and_eq_true_iff.1 hm).1
    simp only [hm, if_true, MatCell.reserved_invert]
    exact MatCell.invert_invert (set unreserved)
  · rw [if_neg hm, if_neg hm]

/-- MMASK in phase 6 with a mask id (R203). -/
theorem exec_mmask {s : State} {rs1 : XReg} (hp : s.phase = 6) (hk : (readX s rs1).toNat ≤ 7) :
    exec (.mmask rs1) s = .next (complete { s with
      mat := applyMask s.mat (readX s rs1).toNat, mask := BitVec.ofNat 4 (8 + (readX s rs1).toNat), phase := 7 }) :=
  (runCommand_bind_ok (require_pos hp _)).trans (runCommand_bind_ok (require_pos hk _))

/-- Settles O43: a cell of the masked matrix is the inverted one exactly where the condition holds. -/
theorem mmaskInvertsCells : Obligations.MmaskInvertsCells := by
  refine ⟨fun s rs1 hp hk => ⟨_, exec_mmask hp hk, rfl, fun hg r c hr hc => ?_⟩,
    fun g k h => applyMask_applyMask h k, fun r c =>
      ⟨decide_eq_true_iff, decide_eq_true_iff, decide_eq_true_iff, decide_eq_true_iff, decide_eq_true_iff,
        decide_eq_true_iff, decide_eq_true_iff, decide_eq_true_iff⟩⟩
  rw [Grid.cell_applyMask hg hr hc]
  cases hm : (s.mat.cell r c).reserved with
  | true => simp
  | false => simp [MatCell.invert, hm]

/-! ### The mask of least penalty -/

/-- `bestMask` gives the first place of the least entry (R210). -/
theorem bestMask_spec {ps : List Nat} {k : Nat} (hk : k < ps.length) :
    ps.getD (bestMask ps) 0 ≤ ps.getD k 0 ∧ (k < bestMask ps → ps.getD (bestMask ps) 0 < ps.getD k 0) := by
  obtain ⟨p, qs, rfl⟩ := List.exists_cons_of_ne_nil (List.ne_nil_of_length_pos (Nat.zero_lt_of_lt hk))
  obtain ⟨hmem, hmin⟩ := List.min?_eq_some_iff.1 (List.min?_cons' (x := p) (xs := qs))
  have best : (p :: qs).getD (bestMask (p :: qs)) 0 = qs.foldl min p := by
    have place : bestMask (p :: qs) = (p :: qs).idxOf (qs.foldl min p) := by simp [bestMask]
    rw [place, ← List.getElem_eq_getD (h := List.idxOf_lt_length_of_mem hmem) 0, List.getElem_idxOf]
  rw [best, ← List.getElem_eq_getD (h := hk) 0]
  have le := hmin _ (List.getElem_mem hk)
  refine ⟨le, fun hlt => Nat.lt_of_le_of_ne le fun he => ?_⟩
  have earlier := List.not_of_lt_findIdx hlt
  simp [he] at earlier

theorem getD_maskPenalties (S : Nat) (g : Grid) {k : Nat} (hk : k < 8) :
    (maskPenalties S g).getD k 0 = penalty S (applyMask g k) := by
  simp [maskPenalties, List.getD_eq_getElem?_getD, hk]

/-- MSEL in phase 6 (R210). -/
theorem exec_msel {s : State} (hp : s.phase = 6) :
    exec .msel s = .next (complete { s with
      penv := Vector.ofFn fun k => BitVec.ofNat 32 ((maskPenalties s.size.toNat s.mat).getD k.val 0)
      pen := BitVec.ofNat 32 ((maskPenalties s.size.toNat s.mat).getD (bestMask (maskPenalties s.size.toNat s.mat)) 0)
      mat := applyMask s.mat (bestMask (maskPenalties s.size.toNat s.mat))
      mask := BitVec.ofNat 4 (8 + bestMask (maskPenalties s.size.toNat s.mat))
      phase := 7 }) :=
  runCommand_bind_ok (require_pos hp _)

/-- Settles O47: the mask applied is `bestMask` of the eight penalties. -/
theorem mselTakesLeastPenalty : Obligations.MselTakesLeastPenalty := by
  intro s hp
  have best := bestMask_maskPenalties_lt s.size.toNat s.mat
  have entry := fun {k : Nat} => getD_maskPenalties s.size.toNat s.mat (k := k)
  have least : ∀ k, k < 8 → _ := fun k hk => bestMask_spec (ps := maskPenalties s.size.toNat s.mat) (k := k)
    (by simpa [maskPenalties] using hk)
  refine ⟨bestMask (maskPenalties s.size.toNat s.mat), Nat.le_of_lt_succ best, fun k hk => ?_, fun k hk => ?_, ?_⟩
  · rw [← entry best, ← entry (Nat.lt_succ_of_le hk)]
    exact (least k (Nat.lt_succ_of_le hk)).1
  · rw [← entry best, ← entry (Nat.lt_trans hk best)]
    exact (least k (Nat.lt_trans hk best)).2 hk
  · rw [exec_msel hp, entry best]
    have penalties : ∀ k : Fin 8, _ := fun k => entry k.isLt
    simp only [penalties]
    rfl

end Sys2Proof.Machine
end

/-! # The penalty by position: blocks, finder-like windows and maximal runs (R206 to R208) -/

section
namespace Sys2Proof.Machine

/-! ### Blocks (R207) -/

/-- The columns at which two neighbouring rows hold a block of equal modules. -/
theorem equalBlocks_eq_countP {upper lower : List Bool} (h : upper.length = lower.length) :
    equalBlocks upper lower = (List.range (upper.length - 1)).countP fun c =>
      upper.getD c false = upper.getD (c + 1) false ∧ upper.getD c false = lower.getD c false ∧
        upper.getD c false = lower.getD (c + 1) false := by
  match upper, lower with
  | [], _ => rfl
  | [_], [_] => rfl
  | a :: b :: upper, c :: d :: lower =>
    have rest := equalBlocks_eq_countP (upper := b :: upper) (lower := d :: lower) (Nat.succ.inj h)
    simp only [List.length_cons, Nat.add_sub_cancel] at rest ⊢
    rw [equalBlocks, rest, List.range_succ_eq_map, List.countP_cons, List.countP_map, Nat.add_comm]
    simp [Function.comp_def]

/-- The rows from which a block goes down. -/
theorem blockCount_eq_sum (rows : List (List Bool)) :
    blockCount rows =
      ((List.range (rows.length - 1)).map fun r => equalBlocks (rows.getD r []) (rows.getD (r + 1) [])).sum := by
  match rows with
  | [] | [_] => rfl
  | upper :: lower :: rows =>
    have rest := blockCount_eq_sum (lower :: rows)
    simp only [List.length_cons, Nat.add_sub_cancel] at rest ⊢
    rw [blockCount, rest, List.range_succ_eq_map, List.map_cons, List.sum_cons, List.map_map]
    simp [Function.comp_def]

/-! ### The finder-like pattern (R208) -/

theorem finderLike_isPrefixOf_iff (line : List Bool) :
    finderLike.isPrefixOf line = true ↔ line.take 7 = [true, false, true, true, true, false, true] := by
  rw [List.isPrefixOf_iff_prefix, List.prefix_iff_eq_take, eq_comm]
  rfl

/-- The places at which a line holds the pattern. -/
theorem finderWindows_eq_countP (line : List Bool) :
    finderWindows line = (List.range (line.length - 6)).countP fun i =>
      (line.drop i).take 7 = [true, false, true, true, true, false, true] := by
  induction line with
  | nil => rfl
  | cons y ys ih =>
    simp only [finderWindows, ih, finderLike_isPrefixOf_iff]
    by_cases h : 6 ≤ ys.length
    · have length : (y :: ys).length - 6 = ys.length - 6 + 1 := by rw [List.length_cons]; omega
      rw [length, List.range_succ_eq_map, List.countP_cons, List.countP_map, Nat.add_comm]
      simp [Function.comp_def]
    · have short : (y :: ys).take 7 ≠ [true, false, true, true, true, false, true] := fun he => by
        have := congrArg List.length he
        simp at this
        omega
      have tooShort : ys.length - 6 = 0 ∧ (y :: ys).length - 6 = 0 := by rw [List.length_cons]; omega
      rw [if_neg short, tooShort.1, tooShort.2]
      rfl

section
variable {rows : List (List Bool)} {S : Nat} (hrows : ∀ row ∈ rows, row.length = S)
include hrows

/-- The blocks of a square grid, at every `(r, c)` that has a row below and a column to the right. -/
theorem penaltyB_eq_sum (hS : rows.length = S) :
    penaltyB rows =
      3 * ((List.range (S - 1)).map fun r => (List.range (S - 1)).countP fun c =>
        bitAt rows r c = bitAt rows r (c + 1) ∧ bitAt rows r c = bitAt rows (r + 1) c ∧
          bitAt rows r c = bitAt rows (r + 1) (c + 1)).sum := by
  have length : ∀ k, k < S → (rows.getD k []).length = S := fun k hk => by
    rw [← List.getElem_eq_getD (h := hS ▸ hk) []]
    exact hrows _ (List.getElem_mem _)
  rw [penaltyB, blockCount_eq_sum, hS]
  refine congrArg (3 * ·) (congrArg List.sum (List.map_congr_left fun r hr => ?_))
  have hr := List.mem_range.1 hr
  have upper := length r (by omega)
  rw [equalBlocks_eq_countP (upper.trans (length (r + 1) (by omega)).symm), upper]
  rfl

end

/-- Settles O45: blocks row by row, windows line by line. -/
theorem penaltyCountsPositions : Obligations.PenaltyCountsPositions :=
  ⟨fun _ _ hS hrows => penaltyB_eq_sum hrows hS,
    fun ls => by rw [penaltyC, List.map_congr_left fun line _ => finderWindows_eq_countP line]⟩

/-! ### Sums -/

theorem sum_map_le_sum_map {α : Type} {l : List α} {f g : α → Nat} (h : ∀ a ∈ l, f a ≤ g a) :
    (l.map f).sum ≤ (l.map g).sum := by
  induction l with
  | nil => exact Nat.le_refl _
  | cons a l ih =>
    obtain ⟨ha, hl⟩ := List.forall_mem_cons.1 h
    simp only [List.map_cons, List.sum_cons]
    exact Nat.add_le_add ha (ih hl)

/-- A sum of terms that are each at most `n`. -/
theorem sum_map_le {α : Type} {l : List α} {f : α → Nat} {n : Nat} (h : ∀ a ∈ l, f a ≤ n) :
    (l.map f).sum ≤ l.length * n :=
  sum_map_const l n ▸ sum_map_le_sum_map h

theorem sum_map_range_add (m n : Nat) (f : Nat → Nat) :
    ((List.range (m + n)).map f).sum = ((List.range m).map f).sum + ((List.range n).map fun k => f (m + k)).sum := by
  rw [List.range_add, List.map_append, List.sum_append_nat, List.map_map]
  rfl

/-- A sum over a range with one term that is not 0. -/
theorem sum_map_range_ite {n m : Nat} (h : m < n) (a : Nat) :
    ((List.range n).map fun k => if k = m then a else 0).sum = a := by
  have before : ∀ k ∈ List.range m, (if k = m then a else 0) = 0 := fun k hk =>
    if_neg (Nat.ne_of_lt (List.mem_range.1 hk))
  have after : ∀ k, (if m + 1 + k = m then a else 0) = 0 := fun k => if_neg (by omega)
  have parts : n = m + 1 + (n - (m + 1)) := by omega
  rw [parts, sum_map_range_add, sum_map_range_add, List.map_congr_left before, funext after, sum_map_const, sum_map_const]
  simp

/-! ### Maximal runs (R206) -/

/-- Module `i` of `L` equal modules followed by others. -/
theorem getElem?_run_append {y : Bool} {L : Nat} {rest : List Bool} (i : Nat) :
    (List.replicate L y ++ rest)[i]? = if i < L then some y else rest[i - L]? := by
  rw [List.getElem?_append, List.length_replicate]
  split
  · next h => simp [h]
  · rfl

/-- A run being counted takes the equal modules that follow, up to the first that differs. -/
theorem exists_runsFrom (b : Bool) (n : Nat) (line : List Bool) :
    ∃ L rest, line = List.replicate L b ++ rest ∧ rest[0]? ≠ some b ∧ runsFrom b n line = (n + L) :: runLengths rest := by
  induction line generalizing n with
  | nil => exact ⟨0, [], rfl, nofun, rfl⟩
  | cons y ys ih =>
    rw [runsFrom]
    split
    · next h =>
      obtain ⟨L, rest, hline, hrest, hruns⟩ := ih (n + 1)
      refine ⟨L + 1, rest, ?_, hrest, ?_⟩
      · rw [h, hline, List.replicate_succ, List.cons_append]
      · rw [hruns, Nat.add_assoc, Nat.add_comm 1]
    · next h => exact ⟨0, y :: ys, rfl, by simpa using h, rfl⟩

/-- A line that is not empty is its first run, followed by a line that begins with the other value. -/
theorem exists_first_run (y : Bool) (ys : List Bool) :
    ∃ L rest, y :: ys = List.replicate (L + 1) y ++ rest ∧ rest[0]? ≠ some y ∧
      runLengths (y :: ys) = (L + 1) :: runLengths rest := by
  obtain ⟨L, rest, hline, hrest, hruns⟩ := exists_runsFrom y 1 ys
  refine ⟨L, rest, ?_, hrest, ?_⟩
  · rw [hline, List.replicate_succ, List.cons_append]
  · rw [runLengths, hruns, Nat.add_comm]

/-- A run within the line, of equal modules, that neither side continues (R206). -/
theorem isMaximalRun_iff {l : List Bool} {i n : Nat} :
    isMaximalRun l i n = true ↔
      1 ≤ n ∧ i + n ≤ l.length ∧ (∀ j, j < n → l[i + j]? = l[i]?) ∧
        (i = 0 ∨ l[i - 1]? ≠ l[i]?) ∧ l[i + n]? ≠ l[i]? := by
  simp [isMaximalRun, moduleAt, and_assoc]

section
variable {y : Bool} {L : Nat} {rest : List Bool} (hrest : rest[0]? ≠ some y)
include hrest

/-- Within the first run only the run itself is maximal. -/
theorem isMaximalRun_first {i n : Nat} (hi : i < L) :
    isMaximalRun (List.replicate L y ++ rest) i n = true ↔ i = 0 ∧ n = L := by
  simp only [isMaximalRun_iff, getElem?_run_append, hi, if_true]
  constructor
  · rintro ⟨hn, hlen, hsame, hbefore, hafter⟩
    have start : i = 0 := by
      refine hbefore.resolve_right fun h => h ?_
      rw [if_pos (by omega)]
    have notShorter : ¬n < L := fun h => hafter (by rw [if_pos (by omega)])
    have notLonger : ¬L < n := fun h => by
      have := hsame L h
      rw [if_neg (by omega), start, Nat.zero_add, Nat.sub_self] at this
      exact hrest this
    omega
  · rintro ⟨rfl, rfl⟩
    refine ⟨hi, by simp, fun j hj => if_pos (by omega), .inl rfl, ?_⟩
    simpa using hrest

/-- Past the first run the maximal runs are those of the rest. -/
theorem isMaximalRun_rest (hL : 1 ≤ L) (i n : Nat) :
    isMaximalRun (List.replicate L y ++ rest) (L + i) n = isMaximalRun rest i n := by
  have past : ∀ k, (List.replicate L y ++ rest)[L + k]? = rest[k]? := fun k => by
    rw [getElem?_run_append, if_neg (by omega), Nat.add_sub_cancel_left]
  have inside : L + i + n ≤ (List.replicate L y ++ rest).length ↔ i + n ≤ rest.length := by
    rw [List.length_append, List.length_replicate]
    omega
  have begins : (L + i = 0 ∨ (List.replicate L y ++ rest)[L + i - 1]? ≠ rest[i]?) ↔ (i = 0 ∨ rest[i - 1]? ≠ rest[i]?) := by
    cases i with
    | zero =>
      have last : (List.replicate L y ++ rest)[L + 0 - 1]? = some y := by
        rw [getElem?_run_append, if_pos (by omega)]
      exact iff_of_true (.inr (last ▸ hrest.symm)) (.inl rfl)
    | succ i => simp [← Nat.add_assoc, past]
  rw [Bool.eq_iff_iff, isMaximalRun_iff, isMaximalRun_iff, inside]
  simp only [past, Nat.add_assoc] at begins ⊢
  rw [begins]

end

/-- What a run of `n` equal modules adds (R206). -/
def runValue (n : Nat) : Nat := if n ≥ 5 then n - 2 else 0

theorem runScore_eq_sum (line : List Bool) : runScore line = ((runLengths line).map runValue).sum := rfl

theorem runValue_le (n : Nat) : runValue n ≤ n := by
  unfold runValue
  split <;> omega

/-- What `n` modules from place `i` on add: the value of the run, where they are one. -/
def runTerm (l : List Bool) (i n : Nat) : Nat := if 5 ≤ n ∧ isMaximalRun l i n = true then n - 2 else 0

/-- What the runs that start at place `i` of a line add: at most one of the lengths counts. -/
def scoreAt (l : List Bool) (i : Nat) : Nat := ((List.range (l.length + 1)).map (runTerm l i)).sum

/-- The score of a line, place by place. -/
def positionScore (l : List Bool) : Nat := ((List.range l.length).map (scoreAt l)).sum

theorem runTerm_of_length_lt {l : List Bool} {n : Nat} (h : l.length < n) (i : Nat) : runTerm l i n = 0 := by
  refine if_neg fun hrun => ?_
  obtain ⟨-, inside, -⟩ := isMaximalRun_iff.1 hrun.2
  omega

section
variable {y : Bool} {L : Nat} {rest : List Bool} (hrest : rest[0]? ≠ some y)
include hrest

/-- The places of the first run add its value, once. -/
theorem scoreAt_first {i : Nat} (hi : i < L) :
    scoreAt (List.replicate L y ++ rest) i = if i = 0 then runValue L else 0 := by
  have term : ∀ n, runTerm (List.replicate L y ++ rest) i n =
      if n = L then (if i = 0 then runValue L else 0) else 0 := by
    intro n
    simp only [runTerm, isMaximalRun_first hrest hi, runValue]
    by_cases hn : n = L
    · by_cases h0 : i = 0 <;> simp [hn, h0]
    · rw [if_neg hn, if_neg fun hrun => hn hrun.2.2]
  rw [scoreAt, funext term]
  exact sum_map_range_ite (by rw [List.length_append, List.length_replicate]; omega) _

/-- The places of the rest add what they add in the rest alone. -/
theorem scoreAt_rest (hL : 1 ≤ L) (i : Nat) : scoreAt (List.replicate L y ++ rest) (L + i) = scoreAt rest i := by
  have term : runTerm (List.replicate L y ++ rest) (L + i) = runTerm rest i := funext fun n => by
    rw [runTerm, isMaximalRun_rest hrest hL, runTerm]
  have tail : (List.replicate L y ++ rest).length + 1 = rest.length + 1 + L := by
    rw [List.length_append, List.length_replicate]
    omega
  have longer : ∀ k, runTerm rest i (rest.length + 1 + k) = 0 := fun k => runTerm_of_length_lt (by omega) i
  rw [scoreAt, term, tail, sum_map_range_add]
  simp only [longer, sum_map_const, Nat.mul_zero, Nat.add_zero]
  rfl

/-- The first run adds its value; the runs of the rest add theirs. -/
theorem positionScore_append (hL : 1 ≤ L) :
    positionScore (List.replicate L y ++ rest) = runValue L + positionScore rest := by
  rw [positionScore, List.length_append, List.length_replicate, sum_map_range_add,
    List.map_congr_left fun i hi => scoreAt_first hrest (List.mem_range.1 hi), sum_map_range_ite hL]
  simp only [scoreAt_rest hrest hL]
  rfl

end

/-- The score of a line is the score of its positions. -/
theorem runScore_eq_positionScore (line : List Bool) : runScore line = positionScore line := by
  match line with
  | [] => rfl
  | y :: ys =>
    obtain ⟨L, rest, hline, hrest, hruns⟩ := exists_first_run y ys
    have shorter : rest.length < (y :: ys).length := by
      rw [hline, List.length_append, List.length_replicate]
      omega
    have ih := runScore_eq_positionScore rest
    rw [runScore_eq_sum, hruns, hline, positionScore_append hrest (Nat.le_add_left ..), ← ih, List.map_cons, List.sum_cons,
      runScore_eq_sum]
termination_by line.length
decreasing_by exact shorter

/-- Settles O46: run by run, each line's score is that of its positions. -/
theorem penaltyOfMaximalRuns : Obligations.PenaltyOfMaximalRuns := fun _ =>
  congrArg List.sum (List.map_congr_left fun line _ => runScore_eq_positionScore line)

end Sys2Proof.Machine
end

/-! # The penalty of a matrix: the sum of the four rules, its bound, and MPEN (R205, R209, R211) -/

section
namespace Sys2Proof.Machine

/-! ### Rows and columns (R205) -/

theorem darkRows_eq_rowLines {g : Grid} {S : Nat} (h : GridOk g S) : darkRows g = rowLines S g := by
  obtain ⟨hrows, hcols⟩ := h
  refine List.ext_getElem (by simp [darkRows, rowLines, hrows]) fun r hr _ => ?_
  have hr : r < g.length := by simpa [darkRows] using hr
  have length := hcols _ (List.getElem_mem hr)
  refine List.ext_getElem (by simp [darkRows, rowLines, length]) fun c hc _ => ?_
  have hc : c < g[r].length := by simpa [darkRows] using hc
  simp [darkRows, rowLines, isDark, Grid.cell, hr, hc]

theorem columnsOf_rowLines (S : Nat) (g : Grid) : columnsOf S (rowLines S g) = columnLines S g := by
  refine List.map_congr_left fun c hc => ?_
  have hc := List.mem_range.1 hc
  simp [rowLines, hc, List.getD_eq_getElem?_getD]

theorem sum_count_rowLines (S : Nat) (g : Grid) : ((rowLines S g).map fun row => row.count true).sum = darkCount S g := by
  simp [rowLines, darkCount, List.count, List.countP_map, Function.comp_def]

theorem linesOf_darkRows {g : Grid} {S : Nat} (h : GridOk g S) :
    linesOf S (darkRows g) = rowLines S g ++ columnLines S g := by
  rw [linesOf, darkRows_eq_rowLines h, columnsOf_rowLines]

/-! ### The balance (R211) -/

/-- The distance of two numbers, as the model computes it. -/
theorem sub_add_sub_eq_natAbs (a b : Nat) : (a - b) + (b - a) = ((a : Int) - b).natAbs := by omega

theorem penaltyD_darkRows {g : Grid} {S : Nat} (h : GridOk g S) :
    penaltyD S (darkRows g) = 10 * ((20 * (darkCount S g : Int) - 10 * (S * S : Int)).natAbs / (S * S)) := by
  simp only [penaltyD, darkRows_eq_rowLines h, sum_count_rowLines, sub_add_sub_eq_natAbs]
  push_cast
  rfl

/-! ### The penalty fits a register -/

/-- The runs take every module of a line. -/
theorem sum_runsFrom (b : Bool) (n : Nat) (line : List Bool) : (runsFrom b n line).sum = n + line.length := by
  induction line generalizing b n with
  | nil => rfl
  | cons y ys ih =>
    rw [runsFrom]
    split
    · rw [ih, List.length_cons]
      omega
    · rw [List.sum_cons, ih, List.length_cons]
      omega

theorem sum_runLengths (line : List Bool) : (runLengths line).sum = line.length := by
  cases line with
  | nil => rfl
  | cons y ys => rw [runLengths, sum_runsFrom, List.length_cons, Nat.add_comm]

theorem runScore_le_length (line : List Bool) : runScore line ≤ line.length := by
  calc runScore line ≤ ((runLengths line).map id).sum := sum_map_le_sum_map fun n _ => runValue_le n
    _ = line.length := by rw [List.map_id, sum_runLengths]

theorem finderWindows_le_length (line : List Bool) : finderWindows line ≤ line.length := by
  rw [finderWindows_eq_countP]
  exact Nat.le_trans List.countP_le_length (by simp)

section
variable {S : Nat} {ls : List (List Bool)} (h : ∀ line ∈ ls, line.length = S)
include h

theorem penaltyA_le : penaltyA ls ≤ ls.length * S :=
  sum_map_le fun line hl => h line hl ▸ runScore_le_length line

theorem penaltyC_le : penaltyC ls ≤ 40 * (ls.length * S) :=
  Nat.mul_le_mul_left 40 (sum_map_le fun line hl => h line hl ▸ finderWindows_le_length line)

theorem penaltyB_le (hS : ls.length = S) : penaltyB ls ≤ 3 * (S * S) := by
  rw [penaltyB_eq_sum h hS]
  refine Nat.mul_le_mul_left 3 (Nat.le_trans (sum_map_le (n := S) fun r _ => ?_) (Nat.mul_le_mul_right S (by simp)))
  exact Nat.le_trans List.countP_le_length (by simp)

end

theorem darkCount_le (S : Nat) (g : Grid) : darkCount S g ≤ S * S := by
  have row := sum_map_le (l := List.range S) (f := fun r => (List.range S).countP fun c => isDark g r c) (n := S)
    fun r _ => Nat.le_trans List.countP_le_length (by simp)
  simpa [darkCount] using row

theorem penaltyD_le {g : Grid} {S : Nat} (h : GridOk g S) : penaltyD S (darkRows g) ≤ 100 := by
  rw [penaltyD_darkRows h]
  have dark := darkCount_le S g
  have ratio : (20 * (darkCount S g : Int) - 10 * (S * S : Int)).natAbs / (S * S) ≤ 10 := by
    refine Nat.div_le_of_le_mul ?_
    rw [← Int.natCast_mul]
    omega
  omega

/-- Runs and windows over twice the modules, blocks over the modules, and the balance. -/
theorem penalty_le {g : Grid} {S : Nat} (h : GridOk g S) : penalty S g ≤ 85 * (S * S) + 100 := by
  have lines : ∀ line ∈ rowLines S g ++ columnLines S g, line.length = S := by
    simp only [List.mem_append, rowLines, columnLines, List.mem_map]
    rintro line (⟨r, -, rfl⟩ | ⟨c, -, rfl⟩) <;> simp
  have count : (rowLines S g ++ columnLines S g).length = 2 * S := by simp [rowLines, columnLines]; omega
  have runs := penaltyA_le lines
  have blocks := penaltyB_le (fun line hl => lines line (List.mem_append_left _ hl)) (by simp [rowLines])
  have windows := penaltyC_le lines
  have balance := penaltyD_le h
  rw [count, Nat.mul_assoc] at runs windows
  rw [penalty, linesOf_darkRows h]
  rw [darkRows_eq_rowLines h] at balance ⊢
  omega

/-- MPEN in phase 6 or later (R209). -/
theorem exec_mpen {s : State} (rd : XReg) (hp : 6 ≤ s.phase.toNat) :
    exec (.mpen rd) s = .next (complete { writeX s rd (BitVec.ofNat 32 (penalty s.size.toNat s.mat)) with
      pen := BitVec.ofNat 32 (penalty s.size.toNat s.mat) }) :=
  runCommand_bind_ok (require_pos hp _)

/-- Settles O44: the rows and columns the model reads are those of R205, and each rule is bounded by the modules. -/
theorem mpenScoresMatrix : Obligations.MpenScoresMatrix := by
  refine ⟨fun s rd => exec_mpen rd, fun g S h => ?_, fun g S h _ h177 => ?_⟩
  · simp only [penalty, linesOf_darkRows h, penaltyD_darkRows h]
    rw [darkRows_eq_rowLines h]
  · have bound := penalty_le h
    have area : S * S ≤ 177 * 177 := Nat.mul_le_mul h177 h177
    omega

end Sys2Proof.Machine
end

/-! # Information: the two copies of the format word and of the version word, and the BCH codes (R220 to R227) -/

section
namespace Sys2Proof.Machine

/-! ### The bits of a word, each painted at two cells -/

/-- Bit `i` of the word `w` at the cells `a i` and `b i`, for `n` bits (R222, R224). -/
def bitWrites (a b : Nat → Nat × Nat) (n w : Nat) : List ((Nat × Nat) × Colour) :=
  (List.range n).flatMap fun i => [(a i, colourOf (w.testBit i)), (b i, colourOf (w.testBit i))]

/-- The cells `a i` and `b i` of `n` bits lie in a matrix of side `S`, and no two of them are the same cell. -/
structure TwoCopies (a b : Nat → Nat × Nat) (n S : Nat) : Prop where
  inside : ∀ i, i < n → ((a i).1 < S ∧ (a i).2 < S) ∧ (b i).1 < S ∧ (b i).2 < S
  apart : ∀ i j, i < n → j < n → i ≠ j → a i ≠ a j ∧ b i ≠ b j
  disjoint : ∀ i j, i < n → j < n → a i ≠ b j

section
variable {a b : Nat → Nat × Nat} {n w i S : Nat} {rc : Nat × Nat}

theorem mem_bitWrites (hi : i < n) (h : rc = a i ∨ rc = b i) : (rc, colourOf (w.testBit i)) ∈ bitWrites a b n w := by
  refine List.mem_flatMap.2 ⟨i, List.mem_range.2 hi, ?_⟩
  obtain rfl | rfl := h <;> simp

theorem map_fst_bitWrites (a b : Nat → Nat × Nat) (n w : Nat) :
    (bitWrites a b n w).map Prod.fst = (List.range n).flatMap fun i => [a i, b i] := by
  rw [bitWrites, List.map_flatMap]
  rfl

theorem TwoCopies.nodup (h : TwoCopies a b n S) (w : Nat) : ((bitWrites a b n w).map Prod.fst).Nodup := by
  rw [map_fst_bitWrites, List.nodup_flatMap]
  refine ⟨fun i hi => ?_, List.nodup_range.imp_of_mem fun {i j} hi hj hij => ?_⟩
  · have hi := List.mem_range.1 hi
    simpa using h.disjoint i i hi hi
  · have hi := List.mem_range.1 hi
    have hj := List.mem_range.1 hj
    obtain ⟨haa, hbb⟩ := h.apart j i hj hi hij.symm
    simp [haa, hbb, h.disjoint j i hj hi, (h.disjoint i j hi hj).symm]

/-- Each of the two cells of a bit gets its colour and keeps its reservation. -/
theorem TwoCopies.cell_paintAll (h : TwoCopies a b n S) {g : Grid} (hg : GridOk g S) (w : Nat) (hi : i < n)
    (hrc : rc = a i ∨ rc = b i) :
    (g.paintAll (bitWrites a b n w)).cell rc.1 rc.2 =
      { g.cell rc.1 rc.2 with colour := if w.testBit i then .dark else .light } := by
  obtain ⟨⟨har, hac⟩, hbr, hbc⟩ := h.inside i hi
  have inside : rc.1 < S ∧ rc.2 < S := by
    obtain rfl | rfl := hrc
    · exact ⟨har, hac⟩
    · exact ⟨hbr, hbc⟩
  exact Grid.cell_paintAll_of_mem hg inside.1 inside.2 (h.nodup w) (mem_bitWrites hi hrc)

end

/-- A cell that belongs to no bit is kept. -/
theorem cell_paintAll_bitWrites_other {a b : Nat → Nat × Nat} {n r c : Nat} (g : Grid) (w : Nat)
    (h : ∀ i, i < n → (r, c) ≠ a i ∧ (r, c) ≠ b i) :
    (g.paintAll (bitWrites a b n w)).cell r c = g.cell r c := by
  refine Grid.cell_paintAll_of_not_mem (fun hmem => ?_) g
  rw [map_fst_bitWrites, List.mem_flatMap] at hmem
  obtain ⟨i, hi, hmem⟩ := hmem
  obtain ⟨ha, hb⟩ := h i (List.mem_range.1 hi)
  simp [ha, hb] at hmem

/-! ### The cells of the two words -/

/-- The first copy lies at the top-left finder (R223). -/
theorem fmt1_le : ∀ i, i < 15 → (fmt1 i).1 ≤ 8 ∧ (fmt1 i).2 ≤ 8 := by decide

theorem fmt1_ne : ∀ i, i < 15 → ∀ j, j < 15 → i ≠ j → fmt1 i ≠ fmt1 j := by decide

/-- The second copy lies at the other two finders: the right end of row 8, then the lower end of column 8 (R223). -/
theorem fmt2_cases (S i : Nat) :
    (i ≤ 7 ∧ fmt2 S i = (8, S - 1 - i)) ∨ (8 ≤ i ∧ fmt2 S i = (S - 15 + i, 8)) := by
  by_cases h : i ≤ 7
  · exact .inl ⟨h, if_pos h⟩
  · exact .inr ⟨Nat.lt_of_not_le h, if_neg h⟩

/-- From version 1 on the two copies of the format word do not meet: the second has a coordinate above 8 (R223). -/
theorem twoCopies_format {S : Nat} (hS : 21 ≤ S) : TwoCopies fmt1 (fmt2 S) 15 S where
  inside i hi := by
    have first := fmt1_le i hi
    refine ⟨⟨by omega, by omega⟩, ?_⟩
    obtain ⟨low, second⟩ | ⟨high, second⟩ := fmt2_cases S i <;> rw [second] <;> dsimp only <;> omega
  apart i j hi hj hij := by
    refine ⟨fmt1_ne i hi j hj hij, ?_⟩
    obtain ⟨_, ei⟩ | ⟨_, ei⟩ := fmt2_cases S i <;> obtain ⟨_, ej⟩ | ⟨_, ej⟩ := fmt2_cases S j <;>
      simp only [ei, ej, ne_eq, Prod.mk.injEq] <;> omega
  disjoint i j hi hj := by
    have first := fmt1_le i hi
    intro meet
    rw [meet] at first
    obtain ⟨low, second⟩ | ⟨high, second⟩ := fmt2_cases S j <;> rw [second] at first <;> dsimp only at first <;> omega

/-- From version 7 on the two blocks of the version word do not meet: only the first lies in the rows 0 to 5 (R225). -/
theorem twoCopies_version {S : Nat} (hS : 45 ≤ S) : TwoCopies (verTr S) (verBl S) 18 S where
  inside i hi := by
    simp only [verTr, verBl]
    omega
  apart i j hi hj hij := by
    simp only [verTr, verBl, ne_eq, Prod.mk.injEq]
    omega
  disjoint i j hi hj := by
    simp only [verTr, verBl, ne_eq, Prod.mk.injEq]
    omega

/-! ### IFMT and IVER -/

/-- In a phase but 0 the matrix has the side of its version (R30, R45). -/
theorem EngineInv.side_of_phase {s : State} (h : EngineInv s) (hp : s.phase ≠ 0) :
    1 ≤ s.ver.toNat ∧ s.size.toNat = 4 * s.ver.toNat + 17 := by
  obtain ⟨-, -, built, -⟩ := h.phase
  obtain ⟨hv, hside⟩ := built hp
  exact ⟨by bv_omega, hside⟩

section
variable {s : State}

/-- IFMT in phase 7 (R222). -/
theorem exec_ifmt (hp : s.phase = 7) :
    exec .ifmt s = .next (complete { s with
      mat := s.mat.paintAll (bitWrites fmt1 (fmt2 s.size.toNat) 15 (formatWord s))
      fmt := BitVec.ofNat 15 (formatWord s), phase := 8 }) :=
  runCommand_bind_ok (require_pos hp _)

/-- IVER in phase 8, from version 7 on (R224). -/
theorem exec_iver (hp : s.phase = 8) (hv : 7 ≤ s.ver.toNat) :
    exec .iver s = .next (complete { s with
      mat := s.mat.paintAll (bitWrites (verTr s.size.toNat) (verBl s.size.toNat) 18 (bchVer s.ver.toNat))
      vinf := BitVec.ofNat 18 (bchVer s.ver.toNat), phase := 9 }) :=
  (runCommand_bind_ok (require_pos hp _)).trans (congrArg (runCommand .iver s) (if_pos hv))

/-- IVER in phase 8, below version 7 (R224). -/
theorem exec_iver_of_lt (hp : s.phase = 8) (hv : s.ver.toNat < 7) :
    exec .iver s = .next (complete { s with vinf := 0, phase := 9 }) :=
  (runCommand_bind_ok (require_pos hp _)).trans (congrArg (runCommand .iver s) (if_neg (Nat.not_le.2 hv)))

end

/-- Settles O50: on every version's side the cells of a word's two copies are all different, so each keeps the colour of its
own bit. -/
theorem informationIsPlaced : Obligations.InformationIsPlaced := by
  intro s hs
  refine ⟨fun hp => ?_, fun hp hv => ?_, exec_iver_of_lt⟩
  · obtain ⟨h1, side⟩ := hs.side_of_phase (by rw [hp]; decide)
    have copies : TwoCopies fmt1 (fmt2 s.size.toNat) 15 s.size.toNat := twoCopies_format (by omega)
    have done := exec_ifmt hp
    simp only [complete, formatWord] at done
    refine ⟨_, done, fun i hi rc hrc => ?_, fun r c h => ?_⟩
    · exact copies.cell_paintAll hs.grid _ (Nat.lt_succ_of_le hi) hrc
    · exact cell_paintAll_bitWrites_other _ _ fun i hi => h i (Nat.le_of_lt_succ hi)
  · obtain ⟨-, side⟩ := hs.side_of_phase (by rw [hp]; decide)
    have copies : TwoCopies (verTr s.size.toNat) (verBl s.size.toNat) 18 s.size.toNat := twoCopies_version (by omega)
    have done := exec_iver hp hv
    simp only [complete] at done
    refine ⟨_, done, fun i hi rc hrc => ?_, fun r c h => ?_⟩
    · exact copies.cell_paintAll hs.grid _ (Nat.lt_succ_of_le hi) hrc
    · exact cell_paintAll_bitWrites_other _ _ fun i hi => h i (Nat.le_of_lt_succ hi)

/-! ### BCHF and BCHV -/

/-- Settles O51: the only check is the operand's bound, and both tables are the division computed word by word. -/
theorem bchCommands : Obligations.BchCommands := by
  refine ⟨fun s rd rs1 => ⟨fun h => ?_, fun h => ?_, fun h => ?_, fun h => ?_⟩, by decide, by decide⟩
  · exact runCommand_bind_ok (natUpTo_eq_ok.2 ⟨h, rfl⟩)
  · exact runCommand_bind_error (natUpTo_eq_error.2 ⟨Nat.not_le.2 h, rfl⟩)
  · exact runCommand_bind_ok (natUpTo_eq_ok.2 ⟨h, rfl⟩)
  · exact runCommand_bind_error (natUpTo_eq_error.2 ⟨Nat.not_le.2 h, rfl⟩)

end Sys2Proof.Machine
end

/-! # The boundary of the engine: dropped words, host writes, reads after reset (R251, R288, R313); precise faults, and the
faults a command can raise (R282, R284, R296)

A command's checks are read as a computation that may raise the faults of a list only (`Raises`), and each shared check
gets its rule once. A command's row of R282 is then its checks in order. -/

section
namespace Sys2Proof.Machine

/-! ### Words while the engine is stopped (R288) -/

theorem command_of_stopped {s : State} (hs : ¬Running s) (cw : Word) :
    command cw s = if cw = clearWord then exec .clear s else .next s := by
  simp only [command, stopped_eq_true_iff.2 hs, if_true]

theorem not_running_iff {s : State} : ¬Running s ↔ s.fault ≠ none ∨ s.halted = true := by
  rw [Running, Decidable.not_and_iff_or_not, Bool.not_eq_false]

/-- Settles O6. -/
theorem stoppedEngineDropsWords : Obligations.StoppedEngineDropsWords := by
  intro s cw rest hp hstopped
  have hs : ¬Running { s with pending := rest, reply := .noData } := not_running_iff.2 hstopped
  have hstep := (step_of_pending hp).trans (command_of_stopped hs cw)
  exact ⟨fun h => hstep.trans (if_pos h), fun h => hstep.trans (if_neg h)⟩

/-! ### Host writes (R251) -/

theorem memWrite_of_le {s : State} {sp : Space} {n addr : Nat} (hsp : RamSize sp n) (h : n ≤ addr) (v : Byte) :
    memWrite s sp addr v = .error .rangeError := by
  rw [memWrite, limit_of_ramSize hsp]
  exact require_bind_neg (Nat.not_lt.2 h)

section
variable {s : State} {sp n addr : Nat} {space : Space} (v : Byte)

theorem hostWrite_done (hsp : Space.ofRamNumber sp = some space) (hn : RamSize space n) (hr : Running s) (h : addr < n) :
    hostWrite s sp addr v = { setRam s space ((ram s space).write addr v) with reply := .done } := by
  have hw : memWrite s space addr v = .ok _ := memWrite_eq_ok.2 ⟨n, limit_of_ramSize hn, h, rfl⟩
  simp only [hostWrite, hsp, stopped_eq_false_iff.2 hr, Bool.false_eq_true, if_false, hw]

theorem hostWrite_of_stopped (hs : ¬Running s) : hostWrite s sp addr v = { s with reply := .refused } := by
  unfold hostWrite
  split
  · rfl
  · exact if_pos (stopped_eq_true_iff.2 hs)

theorem hostWrite_of_le (hsp : Space.ofRamNumber sp = some space) (hn : RamSize space n) (h : n ≤ addr) :
    hostWrite s sp addr v = { s with reply := .refused } := by
  simp only [hostWrite, hsp, memWrite_of_le hn h, ite_self]

/-- The space numbers from 3 on name no space that the host may write (R251). -/
theorem ofRamNumber_of_le {sp : Nat} (h : 3 ≤ sp) : Space.ofRamNumber sp = none := by
  match sp with
  | 3 | 4 | 5 | 6 | sp + 7 => rfl

theorem hostWrite_of_three_le (h : 3 ≤ sp) : hostWrite s sp addr v = { s with reply := .refused } := by
  simp only [hostWrite, ofRamNumber_of_le h]

end

/-- A byte stored in one of the memories is read back there, and nowhere else (R67). -/
theorem read_ram_setRam_write {s : State} (hmem : MemoriesOk s) {space : Space} {n : Nat} (hn : RamSize space n)
    (target : Space) (addr : Nat) (v : Byte) (b : Nat) :
    (ram (setRam s space ((ram s space).write addr v)) target).read b =
      if space = target ∧ b = addr then v else (ram s target).read b := by
  by_cases h : space = target
  · subst h
    have hram : space.isRam = true := by rw [← Space.limit_isSome, limit_of_ramSize hn, Option.isSome_some]
    rw [ram_setRam_same _ _ _ hram, Memory.read_write (hmem.ram_wf space)]
    simp only [true_and]
  · rw [ram_setRam_other _ _ h, if_neg fun hb => h hb.1]

theorem Space.number_inj {a b : Space} : a.number = b.number ↔ a = b := by
  refine ⟨fun h => Option.some.inj ?_, congrArg Space.number⟩
  rw [← Space.ofNumber_number a, h, Space.ofNumber_number]

/-- Settles O10: the one memory written is that of the space the host names, and each ground of a refusal is a check of its
own. -/
theorem hostWriteStoresOneByte : Obligations.HostWriteStoresOneByte := by
  refine ⟨fun s rest sp addr v hmem hp hr h => ?_, fun s rest sp addr v hp h => ?_⟩
  · have hr' : Running { s with pending := rest } := hr
    have hmem' : MemoriesOk { s with pending := rest } := hmem
    obtain ⟨space, n, hsp, hn, ha⟩ : ∃ space n, Space.ofRamNumber sp = some space ∧ RamSize space n ∧ addr < n := by
      obtain ⟨rfl, ha⟩ | ⟨rfl, ha⟩ | ⟨rfl, ha⟩ := h
      · exact ⟨.inp, 8192, rfl, .inl ⟨rfl, rfl⟩, Nat.lt_succ_of_le ha⟩
      · exact ⟨.dcw, 4096, rfl, .inr ⟨.inl rfl, rfl⟩, Nat.lt_succ_of_le ha⟩
      · exact ⟨.fcw, 4096, rfl, .inr ⟨.inr rfl, rfl⟩, Nat.lt_succ_of_le ha⟩
    have written := (step_of_pending hp).trans (congrArg Host.Outcome.next (hostWrite_done v hsp hn hr' ha))
    have named (target : Space) : sp = target.number ↔ space = target := by
      rw [← Space.number_of_ofRamNumber hsp, Space.number_inj]
    have reads (target : Space) (b : Nat) := read_ram_setRam_write hmem' hn target addr v b
    simp only [← named] at reads
    refine ⟨_, written, rfl, setRam_pending .., reads .inp, reads .dcw, reads .fcw, ?_⟩
    cases space <;> rfl
  · refine (step_of_pending hp).trans (congrArg Host.Outcome.next ?_)
    obtain hs | h3 | ⟨rfl, ha⟩ | ⟨rfl, ha⟩ | ⟨rfl, ha⟩ := h
    · exact hostWrite_of_stopped v hs
    · exact hostWrite_of_three_le v h3
    · exact hostWrite_of_le v (space := .inp) rfl (.inl ⟨rfl, rfl⟩) ha
    · exact hostWrite_of_le v (space := .dcw) rfl (.inr ⟨.inl rfl, rfl⟩) ha
    · exact hostWrite_of_le v (space := .fcw) rfl (.inr ⟨.inr rfl, rfl⟩) ha

/-! ### Reads after reset (R313) -/

theorem hostCsr_number (s : State) (c : Csr) : hostCsr s c.number = .value (csrRead s c) := by
  rw [hostCsr, Csr.ofNumber_number]

theorem csrRead_reset (c : Csr) : csrRead State.reset c = match c with | .plen _ => 1 | _ => 0 := by
  cases c with
  | penv k => exact Vector.getElem_replicate ..
  | plen k =>
    have single : readP State.reset k = [0] := Vector.getElem_replicate ..
    simp only [csrRead, pLen, single]
    rfl
  | _ => rfl

/-- Settles O8: by what each space answers, at the values of the reset state. -/
theorem readsAfterReset : Obligations.ReadsAfterReset := by
  refine ⟨fun c => ?_, fun a h => ?_, fun a h => ⟨?_, ?_⟩, by decide, by decide, fun a => ⟨?_, ?_⟩⟩
  · exact (hostCsr_number ..).trans (congrArg HostReply.value (csrRead_reset c))
  · exact (hostRead_bounded (space := .inp) rfl nofun rfl).trans (if_pos h)
  · exact (hostRead_bounded (space := .dcw) rfl nofun rfl).trans (if_pos h)
  · exact (hostRead_bounded (space := .fcw) rfl nofun rfl).trans (if_pos h)
  · exact (hostRead_mat ..).trans (if_neg fun h => absurd h.1 (by decide))
  · exact (hostRead_bb ..).trans (if_neg (Nat.not_lt_zero a))

/-! ### System commands (R260 to R269) -/

section
variable {s : State} {rs1 : XReg}

theorem exec_csrw_ver (hw : writeWindow s) (h1 : 1 ≤ (readX s rs1).toNat) (h40 : (readX s rs1).toNat ≤ 40) :
    exec (.csrw .ver rs1) s = .next (complete { s with ver := BitVec.ofNat 6 (readX s rs1).toNat }) :=
  (runCommand_bind_ok (require_pos hw _)).trans (runCommand_bind_ok (require_pos ⟨h1, h40⟩ _))

theorem exec_csrw_ecl (hw : writeWindow s) (h3 : (readX s rs1).toNat ≤ 3) :
    exec (.csrw .ecl rs1) s = .next (complete { s with ecl := BitVec.ofNat 2 (readX s rs1).toNat }) :=
  (runCommand_bind_ok (require_pos hw _)).trans (runCommand_bind_ok (require_pos h3 _))

theorem exec_csrw_dlen (h : (readX s rs1).toNat ≤ 4096) :
    exec (.csrw .dlen rs1) s = .next (complete { s with dlen := BitVec.ofNat 13 (readX s rs1).toNat }) :=
  runCommand_bind_ok (require_pos h _)

theorem exec_csrw_flen (h : (readX s rs1).toNat ≤ 4096) :
    exec (.csrw .flen rs1) s = .next (complete { s with flen := BitVec.ofNat 13 (readX s rs1).toNat }) :=
  runCommand_bind_ok (require_pos h _)

end

/-- Settles O52: five commands make no check; the checks of CSRW pass, and the value it stores is its register's low bits. -/
theorem systemCommandsComplete : Obligations.SystemCommandsComplete := by
  intro s rd rs1 imm csr
  refine ⟨rfl, rfl, rfl, rfl, rfl, fun hp hb hf => ?_, fun h => ⟨?_, ?_⟩⟩
  · have opened : writeWindow s := writeWindow_iff.2 ⟨hp, hb, hf⟩
    refine ⟨fun h1 h40 => ?_, fun h3 => ?_⟩
    · rw [exec_csrw_ver opened h1 h40, BitVec.ofNat_toNat, complete]
    · rw [exec_csrw_ecl opened h3, BitVec.ofNat_toNat, complete]
  · rw [exec_csrw_dlen h, BitVec.ofNat_toNat, complete]
  · rw [exec_csrw_flen h, BitVec.ofNat_toNat, complete]

/-! ### Precise faults (R284) -/

/-- A command that completes leaves the running engine without a fault. -/
theorem Effect.fault_eq_none {i : Instr} {s u : State} (h : Effect s u i) (hr : Running s) : u.fault = none := by
  by_cases hi : i = .clear
  · subst hi
    cases h
    rfl
  · exact (h.frame hi).fault.trans hr.1

/-- Settles O11: an illegal word enters its fault at the boundary; a decoded command completes, or enters one with its own
encoding, which is the word. -/
theorem faultsArePrecise : Obligations.FaultsArePrecise := by
  intro s cw rest hp hr
  cases hd : decode cw with
  | error why =>
    refine ⟨_, (step_of_pending hp).trans (command_of_illegal hr hd), fun e he => ?_⟩
    cases he
    rfl
  | ok i =>
    have hr' : Running { s with pending := rest, reply := .noData } := hr
    obtain ⟨t, ht⟩ := exec_next i { s with pending := rest, reply := .noData }
    refine ⟨t, (step_of_pending hp).trans ((command_of_decode hr' hd).trans ht), fun e he => ?_⟩
    obtain ⟨e', rfl⟩ | ⟨u, rfl, hu⟩ := exec_inversion ht
    · cases he
      rw [encode_of_decode hd]
      rfl
    · exact absurd ((hu.fault_eq_none hr').symm.trans he) nofun

/-! ### The faults of a check (R282) -/

/-- The checks `r` raise no fault outside `es`, and a value they answer satisfies `good`. -/
def Raises {α : Type} (es : List ErrCode) (good : α → Prop) : Except ErrCode α → Prop
  | .ok a => good a
  | .error e => e ∈ es

section
variable {es : List ErrCode} {s : State} {α β : Type}

theorem Raises.bind {good : α → Prop} {good' : β → Prop} {r : Except ErrCode α} {k : α → Except ErrCode β}
    (hr : Raises es good r) (hk : ∀ a, good a → Raises es good' (k a)) : Raises es good' (r >>= k) := by
  cases r with
  | ok a => exact hk a hr
  | error e => exact hr

/-- Where a check fails its own fault is raised, and the rest is reached where it holds. -/
theorem Raises.require {c : Prop} [Decidable c] {e : ErrCode} {good : α → Prop} {k : Unit → Except ErrCode α}
    (hk : c → Raises es good (k ())) (he : e ∈ es := by simp [mayRaise]) : Raises es good (require c e >>= k) := by
  rw [require_bind]
  split
  next h => exact hk h
  next => exact he

theorem Raises.bind_ok {good : β → Prop} {r : Except ErrCode α} {k : α → Except ErrCode β} {a : α} (hr : r = .ok a)
    (hk : Raises es good (k a)) : Raises es good (r >>= k) := by
  subst hr
  exact hk

theorem raises_fieldElement (r : XReg) (he : .rangeError ∈ es := by simp [mayRaise]) :
    Raises es (fun _ => True) (fieldElement s r) := .require (fun _ => trivial) he

theorem raises_natUpTo (r : XReg) (hi : Nat) (he : .rangeError ∈ es := by simp [mayRaise]) :
    Raises es (fun _ => True) (natUpTo s r hi) := .require (fun _ => trivial) he

theorem raises_degree (r : XReg) (he : .rangeError ∈ es := by simp [mayRaise]) :
    Raises es (fun _ => True) (degree s r) := .require (fun _ => trivial) he

/-- A space that the command accepts has a limit (R86). -/
theorem raises_ramLimit {sp : Space} (h : sp.isRam = true) : Raises es (Space.limit sp = some ·) (ramLimit sp) := by
  obtain ⟨n, hn⟩ := Option.isSome_iff_exists.1 ((Space.limit_isSome sp).trans h)
  rw [ramLimit_eq_ok.2 hn]
  exact hn

theorem raises_memRead (sp : Space) (a : Nat) :
    Raises [.arithmeticError, .rangeError] (fun _ => True) (memRead s sp a) := by
  cases sp with
  | log =>
    refine .require fun h0 => .require fun h255 => ?_
    obtain ⟨i, -, hlog, -⟩ := exists_romLog_of_range (Nat.pos_of_ne_zero h0) h255
    simp only [hlog, Raises]
  | _ => exact .require fun _ => trivial

theorem raises_gfDiv (a b : Byte) (he : .arithmeticError ∈ es := by simp [mayRaise]) :
    Raises es (fun _ => True) (gfDiv a b) := by
  unfold gfDiv
  split
  · exact he
  · split <;> trivial

end

/-! ### The rows of R282 -/

/-- A fault that the outcome of command `i` holds is in the command's row. -/
def FaultListed (i : Instr) (o : Host.Outcome State Fault Refusal) : Prop :=
  ∀ t e, o = .next t → t.fault = some e → e ∈ mayRaise i

theorem faultListed_runCommand {i : Instr} {s : State} {r : Except ErrCode State}
    (h : Raises (mayRaise i) (·.fault = none) r) : FaultListed i (runCommand i s r) := by
  intro t e ht hf
  obtain ⟨u, rfl, rfl⟩ | ⟨e', rfl, rfl⟩ := runCommand_cases ht
  · have faultless : u.fault = none := h
    exact absurd (faultless.symm.trans hf) nofun
  · cases hf
    exact h

section
variable {s : State}

/-- The division of RSREM runs to its end where the divisor's leading coefficient is not 0 (R145). -/
theorem faultListed_rsrem (hr : Running s) (pd pa pb : PReg) :
    FaultListed (.rsrem pd pa pb) (exec (.rsrem pd pa pb) s) := by
  refine faultListed_runCommand (.require fun _ => .require fun _ => .require fun hlead => ?_)
  obtain ⟨e, he, -⟩ := exists_rsRem hlead (readP s pa)
  exact .bind_ok he hr.1

/-- RSENC divides by generators, which are monic (R142, R144). -/
theorem faultListed_rsenc (hr : Running s) : FaultListed .rsenc (exec .rsenc s) := by
  refine faultListed_runCommand (.require fun _ => .require fun _ => ?_)
  obtain ⟨out, hout⟩ := exists_interleaved (s.dcw.readAll 0 s.dlen.toNat) (nblk s.ver.toNat (level s))
    (eccPerBlock s.ver.toNat (level s))
  exact .bind_ok hout hr.1

/-- A store in range succeeds, so STB raises the faults of its own two checks only (R266). -/
theorem faultListed_stb (hr : Running s) {sp : Space} (hsp : sp.isRam = true) (rs1 rs2 : XReg) :
    FaultListed (.stb sp rs1 rs2) (exec (.stb sp rs1 rs2) s) := by
  refine faultListed_runCommand (.bind (raises_ramLimit hsp) fun n hn => .require fun ha =>
    .bind (raises_fieldElement rs2) fun v _ => ?_)
  rw [memWrite_eq_ok.2 ⟨n, hn, ha, rfl⟩]
  exact (setRam_fault ..).trans hr.1

theorem faultListed_csrw (hr : Running s) {c : Csr} (hc : c.isWritable = true) (rs1 : XReg) :
    FaultListed (.csrw c rs1) (exec (.csrw c rs1) s) := by
  refine faultListed_runCommand ?_
  cases c with
  | ver | ecl => exact .require fun _ => .require fun _ => hr.1
  | dlen | flen => exact .require fun _ => hr.1
  | _ => cases hc

/-- Every command's checks, in their order, raise faults of its row only. -/
theorem faultListed_exec (hr : Running s) {i : Instr} (hw : i.wellFormed = true) : FaultListed i (exec i s) := by
  cases i with
  | gfadd | gfmul =>
    exact faultListed_runCommand
      (.bind (raises_fieldElement _) fun _ _ => .bind (raises_fieldElement _) fun _ _ => hr.1)
  | gfdiv =>
    exact faultListed_runCommand (.bind (raises_fieldElement _) fun _ _ => .bind (raises_fieldElement _) fun _ _ =>
      .bind (raises_gfDiv ..) fun _ _ => hr.1)
  | gfpow | pscl | peval => exact faultListed_runCommand (.bind (raises_fieldElement _) fun _ _ => hr.1)
  | gfexp | bchf | bchv => exact faultListed_runCommand (.bind (raises_natUpTo ..) fun _ _ => hr.1)
  | gflog =>
    refine faultListed_runCommand (.bind (raises_fieldElement _) fun a _ => ?_)
    cases romLog a with
    | some i => exact hr.1
    | none => simp [Raises, mayRaise]
  | pld =>
    exact faultListed_runCommand (.bind (raises_ramLimit hw) fun _ _ => .require fun _ => .require fun _ => hr.1)
  | pst =>
    exact faultListed_runCommand (.bind (raises_ramLimit hw) fun _ _ => .require fun _ => (setRam_fault ..).trans hr.1)
  | rsgen | rssyn => exact faultListed_runCommand (.bind (raises_degree _) fun _ _ => hr.1)
  | rsrem => exact faultListed_rsrem hr _ _ _
  | rsenc => exact faultListed_rsenc hr
  | bapp =>
    exact faultListed_runCommand (.require fun _ => .bind (raises_natUpTo ..) fun _ _ => .require fun _ =>
      .require fun _ => hr.1)
  | bseg =>
    exact faultListed_runCommand (.require fun _ => .require fun _ => .require fun _ => .require fun _ =>
      .require fun _ => .require fun _ => .require fun _ => .require fun _ => hr.1)
  | bterm =>
    exact faultListed_runCommand (.require fun _ => .require fun _ => .require fun _ => .require fun _ => hr.1)
  | minit | mdata | mmask => exact faultListed_runCommand (.require fun _ => .require fun _ => hr.1)
  | pmul | balign | bpad | mfind | mtime | malign | mrsv | mpen | msel | ifmt =>
    exact faultListed_runCommand (.require fun _ => hr.1)
  | iver =>
    refine faultListed_runCommand (.require fun _ => ?_)
    split <;> exact hr.1
  | pmov | pdeg | padd | bflush | nop | halt | ldi | mov | csrr =>
    exact faultListed_runCommand (s := s) (r := .ok _) hr.1
  | clear => exact faultListed_runCommand (s := s) (r := .ok _) rfl
  | ldb => exact faultListed_runCommand (.bind (raises_memRead ..) fun _ _ => hr.1)
  | stb => exact faultListed_stb hr hw _ _
  | csrw => exact faultListed_csrw hr hw _

end

/-- Settles O13. -/
theorem onlyListedFaults : Obligations.OnlyListedFaults := fun _ t _ e hr hw ht hf => faultListed_exec hr hw t e ht hf

end Sys2Proof.Machine
end
